-- ==== Sys2Proof/Word.lean ====
section
/-! DEFINITION. The widths of the engine: the byte that crosses the wire and the request word (00_scope.md R5, R6). -/

namespace Sys2Proof

/-- A byte: 8 bits, bit 0 the least significant (00_scope.md R6). -/
abbrev Byte := BitVec 8

/-- A request word: `REQ_WIDTH` = 32 bits (00_scope.md R5, 30_encoding.md R70). -/
abbrev Word := BitVec 32

end Sys2Proof
end

