-- ==== Sys2Proof/Syntax.lean ====
section
/-! DEFINITION. The instructions: the nine requests a host writes to REQ and the seven classes of byte that cross the
wire, one constructor for each row of spec/opcode_table.json; where an instruction word is taken from; and the requests
as the assembler of 30_encoding.md R79 and R80 has them. -/

namespace Sys2Proof

/-- One constructor for each row of the opcode table. The first nine are requests (30_encoding.md R71), the last seven
the classes of a wire byte (30_encoding.md R77). Every operand has exactly its field's width, so each value of a field
is an operand (30_encoding.md R72). -/
inductive Instr where
  /-- INIT, initialize(brightness): 42_display_ops.md R162. -/
  | init (brightness : Byte)
  /-- RSYM, renderSymbol(digit, code, raw): 42_display_ops.md R164. -/
  | rsym (digit code : Byte) (raw : Bool)
  /-- RHEX, renderHexByte(value): 42_display_ops.md R166. -/
  | rhex (value : Byte)
  /-- RINT, renderInteger(value, useDecimal): 42_display_ops.md R168. -/
  | rint (value : BitVec 16) (useDecimal : Bool)
  /-- SETDP, setDecimalPoint(on): 42_display_ops.md R170. -/
  | setdp (on : Bool)
  /-- CLEAR: 42_display_ops.md R172. -/
  | clear
  /-- SETBR, setBrightness(level): 42_display_ops.md R176. -/
  | setbr (level : Byte)
  /-- PWROFF: 42_display_ops.md R178. -/
  | pwroff
  /-- CLRSTS: 42_display_ops.md R180. -/
  | clrsts
  /-- DATA_AUTO, the auto-increment mode command 0x40 (30_encoding.md R76, R77). -/
  | dataAuto
  /-- DATA_FIXED, the fixed-address mode command 0x44 (30_encoding.md R76, R77). -/
  | dataFixed
  /-- DISP_OFF, the display-off command 0x80 (30_encoding.md R76, R77). -/
  | dispOff
  /-- DISP_ON, the display-on command 0x88 + level (30_encoding.md R76, R77). -/
  | dispOn (level : BitVec 3)
  /-- ADDR, an address byte 0xC0 + aa (30_encoding.md R76, R77). -/
  | addr (aa : BitVec 2)
  /-- SEG_DATA, a segment pattern (30_encoding.md R77). -/
  | segData (pattern : BitVec 7)
  /-- DP_DATA, the decimal-point byte 0x08 or 0x00 (30_encoding.md R77). -/
  | dpData (on : Bool)
deriving DecidableEq, Repr

/-- Where a wire byte stands in its frame, as the frame's reader sees it (30_encoding.md R77, R78). -/
inductive FramePos where
  /-- The first byte: a command. -/
  | first
  /-- A byte of a frame opened by the address byte 0xC0 + `opened`: data. -/
  | data (opened : BitVec 2)
  /-- A byte after a mode or display-control command: ignored, never sent. -/
  | ignored
deriving DecidableEq, Repr

/-- Where an instruction word is taken from: the request port, or a frame on the wire. A byte's meaning depends on its
position in the frame (30_encoding.md R77); a request word's does not (R75). -/
inductive Port where
  | req
  | wire (pos : FramePos)
deriving DecidableEq, Repr

/-- One line of assembler text (30_encoding.md R79, R80), its numbers as written and its defaulted operands absent. -/
inductive AsmLine where
  | init (b : Option Nat)
  | rsym (d c : Nat) (raw : Bool)
  | rhex (v : Nat)
  | rint (v : Nat) (hex : Bool)
  | setdp (on : Option Bool)
  | clear
  | setbr (l : Option Nat)
  | pwroff
  | clrsts
  /-- `.word w`: the word as given, illegal ones included. -/
  | word (w : Nat)
  | dpon
  | dpoff
  | blank (d : Nat)
  | seg (d m : Nat)
  | glyph (d c : Nat)
  | rdec (v : Nat)
  | rhexw (v : Nat)
deriving DecidableEq, Repr

end Sys2Proof
end

