-- ==== Sys2Proof/WellFormed.lean ====
section
/-! DEFINITION. The checks on instructions: which instruction may stand at which port, which sequences of wire bytes are
a frame the engine may send (30_encoding.md R77), and which assembler operands fit their fields (30_encoding.md R79). -/

namespace Sys2Proof

/-- The instruction is a request (30_encoding.md R71). -/
def Instr.isRequest : Instr → Bool
  | .init _ | .rsym _ _ _ | .rhex _ | .rint _ _ | .setdp _ | .clear | .setbr _ | .pwroff | .clrsts => true
  | .dataAuto | .dataFixed | .dispOff | .dispOn _ | .addr _ | .segData _ | .dpData _ => false

/-- The instruction is a byte class that may stand at this position of a frame (30_encoding.md R77, column "position"). -/
def Instr.fitsAt : FramePos → Instr → Bool
  | .first, .dataAuto | .first, .dataFixed | .first, .dispOff | .first, .dispOn _ | .first, .addr _ => true
  | .data opened, .segData _ => opened != 3
  | .data opened, .dpData _ => opened == 3
  | _, _ => false

/-- The instruction may be taken from this port. -/
def Instr.wellFormed : Port → Instr → Bool
  | .req, i => i.isRequest
  | .wire pos, i => i.fitsAt pos

/-- The position of the bytes that follow a frame's first byte (30_encoding.md R77, R78). -/
def Instr.opens : Instr → FramePos
  | .addr aa => .data aa
  | _ => .ignored

/-- A frame the engine may send (30_encoding.md R77): one mode or display-control command alone, or an address byte
followed by data bytes of its class, exactly one of them after the decimal-point address. -/
def wellFormedFrame : List Instr → Bool
  | [] => false
  | i :: rest =>
    i.fitsAt .first && rest.all (·.fitsAt i.opens) &&
      match i with
      | .addr aa => if aa = 3 then rest.length == 1 else 1 ≤ rest.length
      | _ => rest.isEmpty

/-- The operands fit their fields (30_encoding.md R79: an operand that does not is an assembler error). -/
def AsmLine.wellFormed : AsmLine → Bool
  | .init b => b.getD 2 < 256
  | .rsym d c _ => d < 256 && c < 256
  | .rhex v => v < 256
  | .rint v _ => v < 65536
  | .setbr l => l.getD 2 < 256
  | .word w => w < 4294967296
  | .blank d => d < 256
  | .seg d m => d < 256 && m < 256
  | .glyph d c => d < 256 && c < 256
  | .rdec v => v < 65536
  | .rhexw v => v < 65536
  | .setdp _ | .clear | .pwroff | .clrsts | .dpon | .dpoff => true

end Sys2Proof
end

