-- ==== Sys2Proof/Decode.lean ====
section
/-! DEFINITION. From bits to instructions and back: the request rows of 30_encoding.md R73, the wire byte classes of R77,
the encoder, the opcode table's own numbering, and the assembler's words (R79, R80). -/

namespace Sys2Proof

/-! ## Request words (30_encoding.md R70 to R75) -/

/-- `F = word[4]` (30_encoding.md R70). -/
def fieldF (w : Word) : Bool := w.getLsbD 4

/-- `A = word[15:8]` (30_encoding.md R70). -/
def fieldA (w : Word) : Byte := w.extractLsb' 8 8

/-- `V = word[31:16]` (30_encoding.md R70). -/
def fieldV (w : Word) : BitVec 16 := w.extractLsb' 16 16

/-- `V[7:0]` (30_encoding.md R71: RSYM's symbol code). -/
def fieldCode (w : Word) : Byte := w.extractLsb' 16 8

/-- A row of the table of 30_encoding.md R73: the mask, the match value, and the instruction of a word that hits it. -/
structure RequestRow where
  mask : Word
  value : Word
  build : Word → Instr

/-- The word hits the row: `(w & mask) = match` (30_encoding.md R73). -/
def RequestRow.hits (r : RequestRow) (w : Word) : Bool := w &&& r.mask == r.value

/-- The nine rows of 30_encoding.md R73, with the operands R71 gives each. -/
def requestRows : List RequestRow :=
  [ ⟨0xFFFF00FF, 0x00000001, fun w => .init (fieldA w)⟩,
    ⟨0xFF0000EF, 0x00000002, fun w => .rsym (fieldA w) (fieldCode w) (fieldF w)⟩,
    ⟨0xFFFF00FF, 0x00000003, fun w => .rhex (fieldA w)⟩,
    ⟨0x0000FFEF, 0x00000004, fun w => .rint (fieldV w) (fieldF w)⟩,
    ⟨0xFFFFFFEF, 0x00000005, fun w => .setdp (fieldF w)⟩,
    ⟨0xFFFFFFFF, 0x00000006, fun _ => .clear⟩,
    ⟨0xFFFF00FF, 0x00000007, fun w => .setbr (fieldA w)⟩,
    ⟨0xFFFFFFFF, 0x00000008, fun _ => .pwroff⟩,
    ⟨0xFFFFFFFF, 0x00000009, fun _ => .clrsts⟩ ]

/-- A legal request word's instruction, and nothing for an illegal word (30_encoding.md R73, R74). -/
def decodeRequest (w : Word) : Option Instr :=
  (requestRows.find? (·.hits w)).map (·.build w)

/-! ## Wire bytes (30_encoding.md R76, R77) -/

/-- The class of a frame's first byte: a mode command, a display-control command or an address (30_encoding.md R77). -/
def decodeFirst (b : Byte) : Option Instr :=
  if b = 0x40 then some .dataAuto
  else if b = 0x44 then some .dataFixed
  else if b = 0x80 then some .dispOff
  else if b &&& 0xF8 = 0x88 then some (.dispOn (b.extractLsb' 0 3))
  else if b &&& 0xFC = 0xC0 then some (.addr (b.extractLsb' 0 2))
  else none

/-- The class of a data byte of a frame opened by 0xC0 + `opened` (30_encoding.md R77). -/
def decodeData (opened : BitVec 2) (b : Byte) : Option Instr :=
  if opened = 3 then
    if b &&& 0xF7 = 0x00 then some (.dpData (b.getLsbD 3)) else none
  else
    if b &&& 0x80 = 0x00 then some (.segData (b.extractLsb' 0 7)) else none

/-- A wire byte's class at its position in the frame: position first, then its top bits (30_encoding.md R77). -/
def decodeByte : FramePos → Byte → Option Instr
  | .first, b => decodeFirst b
  | .data opened, b => decodeData opened b
  | .ignored, _ => none

/-- The instruction a port's word stands for. A wire byte is a word below 256. -/
def decode : Port → Word → Option Instr
  | .req, w => decodeRequest w
  | .wire pos, w => if w.toNat < 256 then decodeByte pos (w.setWidth 8) else none

/-! ## Encoding -/

/-- The request word of 30_encoding.md R70: V, A, RSV = 0, F, OP from the most significant bit down. -/
def requestWord (op : BitVec 4) (f : Bool) (a : Byte) (v : BitVec 16) : Word :=
  v ++ a ++ 0#3 ++ BitVec.ofBool f ++ op

/-- The word of an instruction: OP, F, A and V of 30_encoding.md R71 for a request, the byte of R76 and R77 for a wire
instruction. -/
def encode : Instr → Word
  | .init b => requestWord 1 false b 0
  | .rsym d c raw => requestWord 2 raw d (0#8 ++ c)
  | .rhex v => requestWord 3 false v 0
  | .rint v dec => requestWord 4 dec 0 v
  | .setdp on => requestWord 5 on 0 0
  | .clear => requestWord 6 false 0 0
  | .setbr l => requestWord 7 false l 0
  | .pwroff => requestWord 8 false 0 0
  | .clrsts => requestWord 9 false 0 0
  | .dataAuto => 0x40
  | .dataFixed => 0x44
  | .dispOff => 0x80
  | .dispOn l => 0x88 ||| l.setWidth 32
  | .addr aa => 0xC0 ||| aa.setWidth 32
  | .segData p => p.setWidth 32
  | .dpData on => if on then 0x08 else 0x00

/-- The byte of a wire instruction, which fits in 8 bits (30_encoding.md R77). -/
def encodeByte (i : Instr) : Byte := (encode i).setWidth 8

/-! ## The opcode table's rows, read without a position

The table gives a wire row's bits and not the byte's position in its frame, and the classes SEG_DATA, DP_DATA and the
mode commands share byte values. A table word of 8 bits is read as the narrowest class that has it: a first byte, then a
decimal-point byte, then a segment pattern (log 14). -/

/-- The position at which a byte is read when the table gives none: the narrowest class that has it. -/
def tablePosition (b : Byte) : FramePos :=
  if (decodeFirst b).isSome then .first
  else if (decodeData 3 b).isSome then .data 3
  else .data 0

/-- The port of a table row of `nbits` bits: 8 for the wire rows, 32 for the request rows. -/
def tablePort (nbits w : Nat) : Port :=
  if nbits = 8 then .wire (tablePosition (BitVec.ofNat 8 w)) else .req

/-- The instruction the decoder reads from an opcode-table row's word. -/
def decodeTableWord (nbits w : Nat) : Option Instr :=
  if (nbits = 8 ∨ nbits = 32) ∧ w < 2 ^ nbits then decode (tablePort nbits w) (BitVec.ofNat 32 w) else none

/-! ## The assembler's words (30_encoding.md R79, R80) -/

/-- The word of an assembler line whose operands fit, defaults filled in (30_encoding.md R79) and pseudo-instructions
expanded (R80). -/
def AsmLine.toWord : AsmLine → Word
  | .init b => requestWord 1 false (BitVec.ofNat 8 (b.getD 2)) 0
  | .rsym d c raw => requestWord 2 raw (BitVec.ofNat 8 d) (BitVec.ofNat 16 c)
  | .rhex v => requestWord 3 false (BitVec.ofNat 8 v) 0
  | .rint v hex => requestWord 4 (!hex) 0 (BitVec.ofNat 16 v)
  | .setdp on => requestWord 5 (on.getD false) 0 0
  | .clear => requestWord 6 false 0 0
  | .setbr l => requestWord 7 false (BitVec.ofNat 8 (l.getD 2)) 0
  | .pwroff => requestWord 8 false 0 0
  | .clrsts => requestWord 9 false 0 0
  | .word w => BitVec.ofNat 32 w
  | .dpon => requestWord 5 true 0 0
  | .dpoff => requestWord 5 false 0 0
  | .blank d => requestWord 2 true (BitVec.ofNat 8 d) 0
  | .seg d m => requestWord 2 true (BitVec.ofNat 8 d) (BitVec.ofNat 16 m)
  | .glyph d c => requestWord 2 false (BitVec.ofNat 8 d) (BitVec.ofNat 16 c)
  | .rdec v => requestWord 4 true 0 (BitVec.ofNat 16 v)
  | .rhexw v => requestWord 4 false 0 (BitVec.ofNat 16 v)

/-- The word of an assembler line, and nothing where an operand does not fit its field (30_encoding.md R79). -/
def assemble (l : AsmLine) : Option Word :=
  if l.wellFormed then some l.toWord else none

end Sys2Proof
end

