-- ==== Sys2Proof/Config.lean ====
section
/-! DEFINITION. What is fixed for one engine before it runs (the open parameters of 00_scope.md R5) and the free values
the spec leaves open. The parameters are plain data that State carries and no step changes, so a statement about every
state is a statement about every setting of them. The free values have no body: nothing can be proved of them. -/

namespace Sys2Proof

/-- The open parameters of 00_scope.md R5, given at construction (10_state.md R20, R32; 70_reset_and_hazards.md R232). -/
structure Params where
  /-- The patterns of `SYMTAB` entries 0 to 32 (10_state.md R32). Entries 33 to 39 are fixed by the same rule and are
  computed (`Machine.symtab`), not stored. A pattern is 7 bits, so bit 7 of an entry is 0 (10_state.md R33). -/
  glyphs : Vector (BitVec 7) 33
  /-- `LATCH_KEPT`: the DIO output latch keeps its value while DIO is an input (10_state.md R23). -/
  latchKept : Bool
  /-- `HEX_CLAMP`: renderInteger's hexadecimal mode clamps to 0xFFF (41_symbol_encoder.md R139). -/
  hexClamp : Bool
  /-- `CELL_MAP`: digit index to physical cell (30_encoding.md R78); appearance only. -/
  cellMap : Vector (Fin 3) 3
  /-- `T_BIT` in microseconds (40_bus_protocol.md R104); no step depends on it (70_reset_and_hazards.md R240). -/
  tBit : Nat
  /-- The identifier of the pin bound to CLK (10_state.md R20). -/
  clockPin : Nat
  /-- The identifier of the pin bound to DIO (10_state.md R20). -/
  dataPin : Nat
deriving DecidableEq, Repr

/-- A free bit: a DIO level drawn at a sample (10_state.md R22), a DIO latch value after `ModeIn` without `LATCH_KEPT`
(R23), a pin direction or level at power-up (R36). The argument is the state's counter of draws. Log 3. -/
opaque Config.freeBit : Nat → Bool

/-- CMD between the start of reset and INIT's SETBR item (10_state.md R36). Log 5. -/
opaque Config.freeCmd : Nat → Byte

/-- The receiver's byte at an address when its contents are not given (30_encoding.md R78,
93_implementation_defined.md I11, I12, I17). First argument the counter of draws, second the address. Log 6. -/
opaque Config.freeRam : Nat → Nat → Byte

/-- Whether the receiver is in auto-increment mode when its contents are not given. Log 6. -/
opaque Config.freeAuto : Nat → Bool

/-- The receiver's display-control byte when its contents are not given. Log 6. -/
opaque Config.freeDctrl : Nat → Byte

end Sys2Proof
end

