-- ==== Sys2Proof/Machine/SymbolTable.lean ====
section
/-! DEFINITION. The symbol ROM: the default patterns of entries 0 to 32 and the whole table of 40 entries
(10_state.md R31 to R33). -/

namespace Sys2Proof.Machine

/-- `SYMTAB_SIZE`: the number of entries (10_state.md R31). -/
def symtabSize : Nat := 40

/-- `SPACE_IDX`: the index of the space glyph, the fallback (10_state.md R31). -/
def spaceIdx : Nat := 31

/-- `H_IDX`: the index of the "h" glyph (10_state.md R31). -/
def hIdx : Nat := 18

/-- The default patterns of entries 0 to 32, in index order (10_state.md R32; decisions D9 to D11). -/
def defaultGlyphs : Vector (BitVec 7) 33 :=
  #v[0x3F, 0x06, 0x5B, 0x4F, 0x66, 0x6D, 0x7D, 0x07, 0x7F, 0x6F,  -- 0 to 9
     0x77, 0x7C, 0x39, 0x5E, 0x79, 0x71,                          -- A b C d E F
     0x58, 0x6F, 0x74, 0x76, 0x38, 0x54, 0x37, 0x73, 0x1C, 0x3E, 0x6E,  -- c g h H L n N P u U y
     0x01, 0x40, 0x08, 0x63, 0x00, 0x5C]                          -- UDASH MDASH LDASH UBOX SPACE LBOX

/-- The default parameters (00_scope.md R5). The two pin identifiers are the model's own (log 18). -/
def defaultParams : Params where
  glyphs := defaultGlyphs
  latchKept := true
  hexClamp := true
  cellMap := #v[0, 1, 2]
  tBit := 50
  clockPin := 0
  dataPin := 1

/-- `SYMTAB[i]` for `i < 40`: a configured pattern up to entry 32, the single-segment mask `1 << s` at entry 33 + s, each
with bit 7 = 0 (10_state.md R32, R33). -/
def symtab (p : Params) (i : Nat) : Byte :=
  if h : i < 33 then p.glyphs[i].setWidth 8 else 1#8 <<< (i - 33)

end Sys2Proof.Machine
end

