-- ==== Sys2Proof/Machine/State.lean ====
section
/-! DEFINITION. Everything the spec gives the machine (10_state.md), the reference receiver at the far end of the wire
(30_encoding.md R78), what the outside world is about to do, and what has been observed. -/

namespace Sys2Proof.Machine

/-! ## Pins and wire events -/

/-- The two pin ports (10_state.md R20). -/
inductive Pin where
  | clk
  | dio
deriving DecidableEq, Repr

/-- A wire event the engine performs whatever the line level (00_scope.md R8). Only DIO can become an input. -/
inductive Action where
  | modeOut (p : Pin)
  | modeIn
  | drive (p : Pin) (v : Bool)
  | wait
deriving DecidableEq, Repr

/-- An entry of the wire event trace (00_scope.md R8). -/
inductive WireEvent where
  | act (a : Action)
  | sample (v : Bool)
deriving DecidableEq, Repr

/-! ## The sequencer -/

/-- An item of a request's body: a wire event or a register update (10_state.md R26). -/
inductive Item where
  | emit (a : Action)
  /-- `Sample(DIO)` of the acknowledgment phase, with its STATUS update (40_bus_protocol.md R103). -/
  | sampleAck
  /-- `CMD <- v` (42_display_ops.md R176, R178). -/
  | setCmd (v : Byte)
  /-- `STATUS.NACK_SEEN <- 0` (42_display_ops.md R180). -/
  | clearNack
  /-- `STATUS.ERR <- 0` (42_display_ops.md R180). -/
  | clearErr
deriving DecidableEq, Repr

/-- The operands latched at acceptance (10_state.md R27; fields of 30_encoding.md R70). -/
structure Latched where
  op : BitVec 4
  f : Bool
  a : Byte
  v : BitVec 16
deriving DecidableEq, Repr

/-- The sequencer (10_state.md R26). `k` counts the items performed; `todo` is the rest of the item list, so that
`todo`'s head is item `k` (log 9). -/
inductive Seq where
  | idle
  | run (req : Latched) (k : Nat) (todo : List Item)
  | reset (k : Nat) (todo : List Item)
deriving DecidableEq, Repr

/-! ## STATUS -/

/-- The STATUS register's four flags (10_state.md R30). Bits 7 to 4 read as 0 and have no storage (`Status.byte`). -/
structure Status where
  busy : Bool
  lastAck : Bool
  nackSeen : Bool
  err : Bool
deriving DecidableEq, Repr

/-! ## The reference receiver -/

/-- The receiver's digit RAM: pairs of a wire address (0xC0 to 0xC3) and a byte, in one canonical form (`Memory.wf`). -/
abbrev Memory := List Host.Cell

/-- What an address the RAM does not list reads as: 0x00, which the reset sequence's CLEAR writes to every location
(70_reset_and_hazards.md R230, 42_display_ops.md R184). Log 2. -/
def unlistedByte : Byte := 0x00

/-- `MODE` (30_encoding.md R78). -/
inductive AddrMode where
  | auto
  | fixed
deriving DecidableEq, Repr

/-- The receiver: what its end of the wire has seen of the frame in progress, the bytes of a heard frame it has yet to
read, and its registers `RAM`, `MODE` and `DCTRL` (30_encoding.md R78). -/
structure Receiver where
  /-- A start condition has been seen and no stop condition since (40_bus_protocol.md R100, R101). -/
  inFrame : Bool
  /-- CLK is high for the ninth time since the last byte: the acknowledgment bit (40_bus_protocol.md R103). -/
  ackBit : Bool
  /-- The levels sampled at the rising edges since the start or the last byte, first one first (20_memory.md R54). -/
  bits : List Bool
  /-- The bytes of the frame so far, first one first (00_scope.md R9). -/
  bytes : List Byte
  /-- A byte of the frame was not acknowledged, so the spec does not give the frame's effect (30_encoding.md R78). -/
  spoiled : Bool
  /-- The bytes of the heard frame that are still to be read. -/
  inbox : List Byte
  /-- The position of the next byte to be read. -/
  pos : FramePos
  /-- `p` (30_encoding.md R78): the location the next data byte goes to. -/
  ptr : Nat
  mode : AddrMode
  dctrl : Byte
  ram : Memory
deriving DecidableEq, Repr

/-! ## The outside world -/

/-- What the outside does next (00_scope.md R10). -/
inductive Input where
  /-- The host offers `v` to host register `n`: `MemWrite(n, v)` (20_memory.md R51). -/
  | write (n : Nat) (v : Word)
  /-- The host reads host register `n`: `MemRead(n)` (20_memory.md R51). -/
  | read (n : Nat)
  /-- Reset is applied (70_reset_and_hazards.md R230, R231). -/
  | reset
  /-- Nothing: the engine makes one step of its own, so that a list of inputs can place an access between any two items
  (20_memory.md R57). -/
  | quiet
deriving DecidableEq, Repr

/-! ## The whole state -/

structure State where
  /-- The configuration, the symbol ROM among it; no step changes it (10_state.md R33). -/
  params : Params
  /-- CLK has been configured as an output (10_state.md R20, 00_scope.md R8). -/
  clkOe : Bool
  /-- `CLK_OUT` (10_state.md R20). -/
  clkOut : Bool
  /-- `DIO_OE`: DIO is an output (10_state.md R20). -/
  dioOe : Bool
  /-- `DIO_OUT`, the output latch (10_state.md R20). -/
  dioOut : Bool
  /-- STATUS, host register 1 (10_state.md R30). -/
  status : Status
  /-- CMD, host register 2 (10_state.md R28). -/
  cmd : Byte
  /-- The sequencer with the latched operands (10_state.md R26, R27). -/
  seq : Seq
  /-- The reference receiver (30_encoding.md R78). -/
  rx : Receiver
  /-- What the outside does next, in order; a write at its head is the write pending at REQ (10_state.md R34). -/
  inputs : List Input
  /-- The DIO levels the outside supplies at the coming samples (10_state.md R22); when it is empty a sample is a draw. -/
  dioIn : List Bool
  /-- The model's own counter of draws, the argument of the free values (log 3). -/
  draws : Nat
  /-- The wire event trace, newest first (00_scope.md R8). -/
  trace : List WireEvent
  /-- The frames heard on the wire, newest first, each with its first byte first (00_scope.md R9). -/
  frames : List (List Byte)
  /-- The host's reads, newest first: register number and value (20_memory.md R51). -/
  reads : List (Nat × Byte)
deriving DecidableEq, Repr

/-- The reasons to stop with a fault: none. The engine has no fault and no trap (60_exceptions.md R201, R204): an
illegal request sets STATUS.ERR and the engine goes on, and a write while BUSY = 1 is held (10_state.md R34). -/
inductive Fault where
deriving DecidableEq, Repr

/-- The reasons to give no meaning. Each is a refusal the spec itself asks of the model, and safe. -/
inductive Refusal where
  /-- Raised by `exec` for an instruction without a meaning; none is left. Safe. -/
  | notModelled (mnemonic : String)
  /-- Raised by `step`: a host access that is not a write of REQ or a read of STATUS or CMD (10_state.md R25). Safe. -/
  | hostAccess (n : Nat)
  /-- Raised by RINT: hexadecimal mode with a value above 0xFFF while `HEX_CLAMP` is false (41_symbol_encoder.md R139).
  Safe. -/
  | hexNotClamped
deriving DecidableEq, Repr

/-- The receiver after a reset sequence whose every byte was acknowledged (95_test_vectors.md, Conventions; 42_display_ops.md
R184 for INIT). The spec leaves it open where a byte was not acknowledged. Log 1. -/
def Receiver.reset : Receiver where
  inFrame := false
  ackBit := false
  bits := []
  bytes := []
  spoiled := false
  inbox := []
  pos := .first
  ptr := 0
  mode := .fixed
  dctrl := 0x8A
  ram := []

/-- The machine right after reset, at the first `seq = Idle` (10_state.md R36), with the default parameters. `LAST_ACK`
and `NACK_SEEN`, draws in R36, are those of a reset sequence whose every byte was acknowledged (log 1). -/
def State.reset : State where
  params := defaultParams
  clkOe := true
  clkOut := true
  dioOe := true
  dioOut := true
  status := { busy := false, lastAck := false, nackSeen := false, err := false }
  cmd := 0x8A
  seq := .idle
  rx := Receiver.reset
  inputs := []
  dioIn := []
  draws := 0
  trace := []
  frames := []
  reads := []

end Sys2Proof.Machine
end

