-- ==== Sys2Proof/Machine/Operands.lean ====
section
/-! DEFINITION. The symbol encoder and operand arithmetic of 41_symbol_encoder.md (R130 to R141), and the wire's command
bytes (30_encoding.md R76): pure functions of the operands and the symbol table. -/

namespace Sys2Proof.Machine

/-! ## Command bytes (30_encoding.md R76) -/

/-- `CMD_AUTO`: the auto-increment mode command. -/
def cmdAuto : Byte := 0x40

/-- `CMD_FIXED`: the fixed-address mode command. -/
def cmdFixed : Byte := 0x44

/-- `ADDR_BASE`: the digit base address. -/
def addrBase : Byte := 0xC0

/-- `ADDR_DP`: the decimal-point address, digit base + 3 (41_symbol_encoder.md R135). -/
def addrDp : Byte := addrBase + 3

/-- `DP_ON`: the decimal-point-enable data byte. -/
def dpOn : Byte := 0x08

/-- `DP_OFF`: the decimal-point-disable data byte. -/
def dpOff : Byte := 0x00

/-- `DISP_OFF`: the display-off command. -/
def dispOffByte : Byte := 0x80

/-- `DISP_ON_BASE`: the display-on command at level 0. -/
def dispOnBase : Byte := 0x88

/-! ## Clamps (41_symbol_encoder.md R133, R134) and the bytes built on them (R135 to R137) -/

/-- `DIGIT_MAX` (00_scope.md R5). -/
def digitMax : Nat := 2

/-- `BRIGHT_MAX` (00_scope.md R5). -/
def brightMax : Nat := 7

/-- `BRIGHT_DEFAULT` (00_scope.md R5). -/
def brightDefault : Byte := 2

/-- `clampDigit(d) = min(d, 2)` (41_symbol_encoder.md R133). -/
def clampDigit (d : Byte) : Byte := BitVec.ofNat 8 (min d.toNat digitMax)

/-- `clampLevel(l) = min(l, 7)` (41_symbol_encoder.md R134). -/
def clampLevel (l : Byte) : Byte := BitVec.ofNat 8 (min l.toNat brightMax)

/-- `digitAddr(d) = 0xC0 + clampDigit(d)` (41_symbol_encoder.md R135). -/
def digitAddr (d : Byte) : Byte := addrBase + clampDigit d

/-- `dispOn(l) = 0x88 + clampLevel(l)` (41_symbol_encoder.md R136). -/
def dispOn (l : Byte) : Byte := dispOnBase + clampLevel l

/-- `dpByte(on)` (41_symbol_encoder.md R137). -/
def dpByte (on : Bool) : Byte := if on then dpOn else dpOff

/-! ## Segment patterns (41_symbol_encoder.md R130 to R132) -/

/-- `lookup(code)`: the table entry, and the space entry for a code beyond the table (41_symbol_encoder.md R130). -/
def lookup (p : Params) (code : Byte) : Byte :=
  if code.toNat < symtabSize then symtab p code.toNat else symtab p spaceIdx

/-- `rawPattern(code) = code & 0x7F` (41_symbol_encoder.md R131). -/
def rawPattern (code : Byte) : Byte := code &&& 0x7F

/-- `resolve(code, raw)` (41_symbol_encoder.md R132). -/
def resolve (p : Params) (code : Byte) (raw : Bool) : Byte := if raw then rawPattern code else lookup p code

/-! ## Number splitting (41_symbol_encoder.md R138 to R141) -/

/-- The symbol code of a digit or nibble: its own value (41_symbol_encoder.md R141). -/
def glyph (p : Params) (n : Nat) : Byte := lookup p (BitVec.ofNat 8 n)

/-- `decDigits(value)`: hundreds, tens and units of `min(value, 999)` (41_symbol_encoder.md R138). -/
def decDigits (p : Params) (value : BitVec 16) : List Byte :=
  let v := min value.toNat 999
  [glyph p (v / 100), glyph p (v / 10 % 10), glyph p (v % 10)]

/-- `hexDigits(value)`: the three nibbles of `min(value, 0xFFF)`, most significant first (41_symbol_encoder.md R139). -/
def hexDigits (p : Params) (value : BitVec 16) : List Byte :=
  let v := min value.toNat 0xFFF
  [glyph p (v / 256), glyph p (v / 16 % 16), glyph p (v % 16)]

/-- `hexByte(value)`: the "h" glyph and the two nibbles (41_symbol_encoder.md R140). -/
def hexByte (p : Params) (value : Byte) : List Byte :=
  [symtab p hIdx, glyph p (value.toNat / 16), glyph p (value.toNat % 16)]

/-- The patterns renderInteger writes (42_display_ops.md R168). -/
def intDigits (p : Params) (value : BitVec 16) (useDecimal : Bool) : List Byte :=
  if useDecimal then decDigits p value else hexDigits p value

/-- The spec gives no meaning to this renderInteger: hexadecimal mode, `HEX_CLAMP` false, value above 0xFFF
(41_symbol_encoder.md R139). -/
def hexRefused (p : Params) (value : BitVec 16) (useDecimal : Bool) : Bool :=
  !useDecimal && !p.hexClamp && decide (0xFFF < value.toNat)

end Sys2Proof.Machine
end

