-- ==== Sys2Proof/Machine/Bus.lean ====
section
/-! DEFINITION. The item lists: the bus primitives of 40_bus_protocol.md (R100 to R108) and the bodies of the requests of
42_display_ops.md (R162 to R180), each the exact list of wire events and register updates, in order. -/

namespace Sys2Proof.Machine

/-- An item that drives a pin. -/
def driveItem (p : Pin) (v : Bool) : Item := .emit (.drive p v)

/-- `start()` (40_bus_protocol.md R100). -/
def startItems : List Item :=
  [driveItem .clk true, driveItem .dio true, driveItem .dio false, driveItem .clk false]

/-- `stop()` (40_bus_protocol.md R101). -/
def stopItems : List Item :=
  [driveItem .clk false, driveItem .dio false, driveItem .clk true, driveItem .dio true]

/-- One data bit: DIO changes while CLK is low, then CLK rises (40_bus_protocol.md R102). -/
def bitItems (v : Bool) : List Item := [driveItem .clk false, driveItem .dio v, driveItem .clk true]

/-- The data phase of `writeByte(b)`: eight bits, bit 0 first (40_bus_protocol.md R102). -/
def dataPhase (b : Byte) : List Item := (List.range 8).flatMap fun i => bitItems (b.getLsbD i)

/-- The acknowledgment phase (40_bus_protocol.md R103), less the branch on the sampled bit, which `ackBranch` supplies
when the sample is performed. -/
def ackPhase : List Item :=
  [driveItem .clk false, driveItem .dio true, driveItem .clk true, .emit .modeIn, .emit .wait, .sampleAck,
    .emit .wait, .emit (.modeOut .dio), .emit .wait]

/-- The events of the acknowledgment phase that are performed only when the sampled bit is 0 (40_bus_protocol.md R103). -/
def ackLowItems : List Item := [.emit (.modeOut .dio), driveItem .dio false]

/-- `writeByte(b)` (40_bus_protocol.md R102, R103). -/
def writeByte (b : Byte) : List Item := dataPhase b ++ ackPhase

/-- A frame: start, its bytes, stop (00_scope.md R9). -/
def frameItems (bytes : List Byte) : List Item := startItems ++ bytes.flatMap writeByte ++ stopItems

/-- Frames one after another. -/
def framesItems (fs : List (List Byte)) : List Item := fs.flatMap frameItems

/-- The frames of `fixedWrite(addr, data)` (40_bus_protocol.md R106). -/
def fixedWrite (addr data : Byte) : List (List Byte) := [[cmdFixed], [addr, data]]

/-- The frames of `autoWrite(d0, d1, d2)`, the patterns given as a list (40_bus_protocol.md R107). -/
def autoWrite (patterns : List Byte) : List (List Byte) := [[cmdAuto], addrBase :: patterns]

/-- The frame of `cmdWrite(c)` (40_bus_protocol.md R108). -/
def cmdWrite (c : Byte) : List (List Byte) := [[c]]

/-! ## Frames of the requests -/

/-- RSYM's frames (42_display_ops.md R164). -/
def framesRsym (p : Params) (digit code : Byte) (raw : Bool) : List (List Byte) :=
  fixedWrite (digitAddr digit) (resolve p code raw)

/-- RHEX's frames (42_display_ops.md R166). -/
def framesRhex (p : Params) (value : Byte) : List (List Byte) := autoWrite (hexByte p value)

/-- RINT's frames (42_display_ops.md R168). -/
def framesRint (p : Params) (value : BitVec 16) (useDecimal : Bool) : List (List Byte) :=
  autoWrite (intDigits p value useDecimal)

/-- SETDP's frames (42_display_ops.md R170). -/
def framesSetdp (on : Bool) : List (List Byte) := fixedWrite addrDp (dpByte on)

/-- CLEAR's frames: the raw zero pattern to each digit in order, then the decimal point off (42_display_ops.md R172). -/
def framesClear : List (List Byte) :=
  [0x00, 0x01, 0x02].flatMap (fun d => fixedWrite (addrBase + d) (rawPattern 0)) ++ fixedWrite addrDp (dpByte false)

/-- SETBR's frame (42_display_ops.md R176). -/
def framesSetbr (level : Byte) : List (List Byte) := cmdWrite (dispOn level)

/-- INIT's frames: SETBR's, then CLEAR's (42_display_ops.md R162). -/
def framesInit (brightness : Byte) : List (List Byte) := framesSetbr brightness ++ framesClear

/-- PWROFF's frame (42_display_ops.md R178). -/
def framesPwroff : List (List Byte) := cmdWrite dispOffByte

/-! ## Bodies of the requests -/

/-- RSYM's body (42_display_ops.md R164). -/
def bodyRsym (p : Params) (digit code : Byte) (raw : Bool) : List Item := framesItems (framesRsym p digit code raw)

/-- RHEX's body (42_display_ops.md R166). -/
def bodyRhex (p : Params) (value : Byte) : List Item := framesItems (framesRhex p value)

/-- RINT's body (42_display_ops.md R168). -/
def bodyRint (p : Params) (value : BitVec 16) (useDecimal : Bool) : List Item :=
  framesItems (framesRint p value useDecimal)

/-- SETDP's body (42_display_ops.md R170). -/
def bodySetdp (on : Bool) : List Item := framesItems (framesSetdp on)

/-- CLEAR's body (42_display_ops.md R172). -/
def bodyClear : List Item := framesItems framesClear

/-- SETBR's body: CMD before the frame (42_display_ops.md R176). -/
def bodySetbr (level : Byte) : List Item := .setCmd (dispOn level) :: framesItems (framesSetbr level)

/-- INIT's body: SETBR's, then CLEAR's (42_display_ops.md R162). -/
def bodyInit (brightness : Byte) : List Item := bodySetbr brightness ++ bodyClear

/-- PWROFF's body: CMD before the frame (42_display_ops.md R178). -/
def bodyPwroff : List Item := .setCmd dispOffByte :: framesItems framesPwroff

/-- CLRSTS's body: two register updates and no wire event (42_display_ops.md R180). -/
def bodyClrsts : List Item := [.clearNack, .clearErr]

/-- The items of the reset sequence: both pins outputs, CLK first, then INIT at the default brightness
(70_reset_and_hazards.md R230). -/
def resetItems : List Item :=
  [.emit (.modeOut .clk), .emit (.modeOut .dio)] ++ bodyInit brightDefault

end Sys2Proof.Machine
end

