-- ==== Sys2Proof/Machine/Flags.lean ====
section
/-! DEFINITION. STATUS: the byte a host reads, and how each flag changes (10_state.md R30). -/

namespace Sys2Proof.Machine

/-- STATUS as the host reads it: BUSY bit 0, LAST_ACK bit 1, NACK_SEEN bit 2, ERR bit 3, bits 7 to 4 zero
(10_state.md R30). -/
def Status.byte (st : Status) : Byte :=
  0#4 ++ BitVec.ofBool st.err ++ BitVec.ofBool st.nackSeen ++ BitVec.ofBool st.lastAck ++ BitVec.ofBool st.busy

/-- An acknowledgment sample: LAST_ACK is the bit, NACK_SEEN stays set once it is 1 (40_bus_protocol.md R103). -/
def Status.recordAck (st : Status) (ack : Bool) : Status :=
  { st with lastAck := ack, nackSeen := st.nackSeen || ack }

/-- BUSY set or cleared (10_state.md R26, R30). -/
def Status.setBusy (st : Status) (b : Bool) : Status := { st with busy := b }

/-- `STATUS.ERR <- 1` (60_exceptions.md R200). -/
def Status.setErr (st : Status) : Status := { st with err := true }

/-- `STATUS.ERR <- 0` (42_display_ops.md R180). -/
def Status.clearErr (st : Status) : Status := { st with err := false }

/-- `STATUS.NACK_SEEN <- 0` (42_display_ops.md R180). -/
def Status.clearNack (st : Status) : Status := { st with nackSeen := false }

/-- STATUS at the start of reset: 0x01 (70_reset_and_hazards.md R230). -/
def Status.atReset : Status := { busy := true, lastAck := false, nackSeen := false, err := false }

end Sys2Proof.Machine
end

