-- ==== Sys2Proof/Machine/Ops.lean ====
section
/-! DEFINITION. The named operations over the state: the receiver's RAM, the pins and what the receiver hears of them, the
acknowledgment sample, the sequencer's items, acceptance and holding of a request, IllegalRequest, reset, the host's
accesses, and the receiver's reading of a byte. -/

namespace Sys2Proof.Machine

/-! ## The receiver's RAM -/

/-- The byte at an address. -/
def Memory.read : Memory → Nat → Byte
  | [], _ => unlistedByte
  | (k, b) :: m, a => if k = a then b else Memory.read m a

/-- Stores a byte, keeping the canonical form: an entry equal to what an unlisted address reads as is removed. -/
def Memory.write : Memory → Nat → Byte → Memory
  | [], a, v => if v = unlistedByte then [] else [(a, v)]
  | (k, b) :: m, a, v =>
    if a < k then (if v = unlistedByte then (k, b) :: m else (a, v) :: (k, b) :: m)
    else if a = k then (if v = unlistedByte then m else (a, v) :: m)
    else (k, b) :: Memory.write m a v

/-- The canonical form: addresses strictly rising, no entry equal to what an unlisted address reads as. -/
abbrev Memory.wf (m : Memory) : Prop :=
  m.Pairwise (fun c d => c.1 < d.1) ∧ ∀ c ∈ m, c.2 ≠ unlistedByte

/-- The wire address of location `p` of `RAM[0..3]`: 0xC0 + p (20_memory.md R50, R52). -/
def ramAddr (p : Nat) : Nat := 0xC0 + p

/-! ## The receiver reads a byte of a frame (30_encoding.md R78) -/

/-- Where the receiver's next byte is stored: nowhere for a first byte, at `RAM[p]` for a data byte if `p <= 3`, nowhere
otherwise (30_encoding.md R78). -/
def Receiver.storeAddr (r : Receiver) : Option Nat :=
  match r.pos with
  | .data _ => if r.ptr ≤ 3 then some (ramAddr r.ptr) else none
  | .first | .ignored => none

/-- A frame's first byte (30_encoding.md R78). -/
def Receiver.takeFirst (r : Receiver) (b : Byte) : Receiver :=
  if b = cmdAuto then { r with mode := .auto, pos := .ignored }
  else if b = cmdFixed then { r with mode := .fixed, pos := .ignored }
  else if b &&& 0xF0 = 0x80 then { r with dctrl := b, pos := .ignored }
  else if b &&& 0xFC = addrBase then { r with ptr := (b.extractLsb' 0 2).toNat, pos := .data (b.extractLsb' 0 2) }
  else { r with pos := .ignored }

/-- A data byte: stored at `RAM[p]` if `p <= 3`; in auto-increment mode `p` moves on (30_encoding.md R78). -/
def Receiver.takeData (r : Receiver) (b : Byte) : Receiver :=
  { r with
    ram := match r.storeAddr with
      | some a => r.ram.write a b
      | none => r.ram
    ptr := match r.mode with
      | .auto => r.ptr + 1
      | .fixed => r.ptr }

/-- Any byte, by its position in the frame (30_encoding.md R78). -/
def Receiver.take (r : Receiver) (b : Byte) : Receiver :=
  match r.pos with
  | .first => r.takeFirst b
  | .data _ => r.takeData b
  | .ignored => r

/-- The receiver reads a byte; nothing else changes. -/
def receiveByte (b : Byte) (s : State) : State := { s with rx := s.rx.take b }

/-! ## What the receiver hears on the lines -/

/-- The bits sampled at a byte's rising edges as a byte: the first is bit 0 (20_memory.md R54). -/
def byteOfBits (l : List Bool) : Byte := (BitVec.ofBoolListLE l).setWidth 8

/-- CLK rises: a data bit is sampled, or the acknowledgment bit begins (40_bus_protocol.md R102, R103). -/
def Receiver.clockRise (r : Receiver) (level : Bool) : Receiver :=
  if r.inFrame then
    if r.bits.length = 8 then { r with ackBit := true } else { r with bits := r.bits ++ [level] }
  else r

/-- CLK falls: at the end of an acknowledgment bit the byte is complete (40_bus_protocol.md R103). -/
def Receiver.clockFall (r : Receiver) : Receiver :=
  if r.ackBit then { r with ackBit := false, bits := [], bytes := r.bytes ++ [byteOfBits r.bits] } else r

/-- A start condition: DIO falls while CLK is high (40_bus_protocol.md R100). -/
def Receiver.start (r : Receiver) : Receiver :=
  { r with inFrame := true, bits := [], bytes := [], spoiled := false }

/-- The receiver's registers when the spec does not give its contents (30_encoding.md R78; 93_implementation_defined.md
I11, I12, I17): `RAM`, `MODE` and `DCTRL` are free values. Log 6. -/
def Receiver.unknown (r : Receiver) (n : Nat) : Receiver :=
  { r with
    mode := if Config.freeAuto n then .auto else .fixed
    dctrl := Config.freeDctrl n
    ram := [0xC0, 0xC1, 0xC2, 0xC3].foldl (fun m a => m.write a (Config.freeRam n a)) [] }

/-- The receiver has no frame in progress. -/
def Receiver.endFrame (r : Receiver) : Receiver :=
  { r with inFrame := false, ackBit := false, bits := [], bytes := [], spoiled := false }

/-- A stop condition: DIO rises while CLK is high (40_bus_protocol.md R101). The frame is complete: its bytes are to be
read from its first position, unless one was not acknowledged, and then the receiver's contents are not given
(30_encoding.md R78). -/
def hearStop (s : State) : State :=
  if s.rx.inFrame then
    if s.rx.spoiled then
      { s with
        frames := s.rx.bytes :: s.frames
        rx := (s.rx.unknown s.draws).endFrame
        draws := s.draws + 1 }
    else
      { s with
        frames := s.rx.bytes :: s.frames
        rx := { s.rx with inbox := s.rx.bytes, pos := .first }.endFrame }
  else s

/-- What the receiver makes of an event, from the levels before it (40_bus_protocol.md R100 to R103). It ignores DIO edges
during the acknowledgment bit (93_implementation_defined.md I18). Log 7. -/
def hear (a : Action) (s : State) : State :=
  match a with
  | .drive .clk v =>
    if v = s.clkOut then s
    else { s with rx := if v then s.rx.clockRise s.dioOut else s.rx.clockFall }
  | .drive .dio v =>
    if v = s.dioOut ∨ s.clkOut = false ∨ s.rx.ackBit = true then s
    else if v then hearStop s
    else { s with rx := s.rx.start }
  | .modeOut _ | .modeIn | .wait => s

/-! ## The pins -/

/-- The effect of an event on the pins (00_scope.md R8, 10_state.md R20, R23). Without `LATCH_KEPT` the latch is a draw
after `ModeIn(DIO)`. -/
def pinEffect (a : Action) (s : State) : State :=
  match a with
  | .modeOut .clk => { s with clkOe := true }
  | .modeOut .dio => { s with dioOe := true }
  | .modeIn =>
    if s.params.latchKept then { s with dioOe := false }
    else { s with dioOe := false, dioOut := Config.freeBit s.draws, draws := s.draws + 1 }
  | .drive .clk v => { s with clkOut := v }
  | .drive .dio v => { s with dioOut := v }
  | .wait => s

/-- Appends an event to the trace (00_scope.md R7). -/
def logEvent (e : WireEvent) (s : State) : State := { s with trace := e :: s.trace }

/-- `emit(e)`: the event is performed on the pins, heard by the receiver and appended to the trace (00_scope.md R7). -/
def emitAction (a : Action) (s : State) : State := logEvent (.act a) (pinEffect a (hear a s))

/-- `Sample(DIO)`: the level of the line and the state after it is read (10_state.md R22). The level is `DIO_OUT` while DIO
is an output; otherwise it is what the outside supplies, and a draw where it supplies nothing. -/
def sampleDio (s : State) : Bool × State :=
  if s.dioOe then (s.dioOut, s)
  else
    match s.dioIn with
    | l :: rest => (l, { s with dioIn := rest })
    | [] => (Config.freeBit s.draws, { s with draws := s.draws + 1 })

/-- The acknowledgment sample with its STATUS update (40_bus_protocol.md R103, decision D27). A byte not acknowledged
leaves the frame's effect on the receiver open (30_encoding.md R78). -/
def sampleAck (s : State) : State :=
  let ack := (sampleDio s).1
  let t := logEvent (.sample ack) (sampleDio s).2
  { t with
    status := t.status.recordAck ack
    rx := { t.rx with spoiled := t.rx.spoiled || ack } }

/-! ## The sequencer -/

/-- Performs one item (10_state.md R26). -/
def perform (it : Item) (s : State) : State :=
  match it with
  | .emit a => emitAction a s
  | .sampleAck => sampleAck s
  | .setCmd v => { s with cmd := v }
  | .clearNack => { s with status := s.status.clearNack }
  | .clearErr => { s with status := s.status.clearErr }

/-- The items an acknowledgment sample adds at once after itself: those of the acknowledged branch, by the bit just
sampled (40_bus_protocol.md R103). `s` is the state after the item. -/
def ackBranch (it : Item) (s : State) : List Item :=
  match it with
  | .sampleAck => if s.status.lastAck then [] else ackLowItems
  | .emit _ | .setCmd _ | .clearNack | .clearErr => []

/-- The items still to be performed. -/
def Seq.pending : Seq → List Item
  | .idle => []
  | .run _ _ todo => todo
  | .reset _ todo => todo

/-- The sequencer after an item, with the items that remain: Idle when none does (10_state.md R26). -/
def Seq.advance (q : Seq) (todo : List Item) : Seq :=
  match todo, q with
  | [], _ => .idle
  | _ :: _, .idle => .idle
  | it :: rest, .run req k _ => .run req (k + 1) (it :: rest)
  | it :: rest, .reset k _ => .reset (k + 1) (it :: rest)

/-- The sequencer moves on; BUSY is 1 exactly while items remain (10_state.md R26). -/
def sequence (todo : List Item) (s : State) : State :=
  { s with seq := s.seq.advance todo, status := s.status.setBusy (!todo.isEmpty) }

/-- One step of the engine: item `k` is performed and the sequencer moves on; an idle engine stays as it is
(10_state.md R26). -/
def engineStep (s : State) : State :=
  match s.seq.pending with
  | [] => s
  | it :: rest => sequence (ackBranch it (perform it s) ++ rest) (perform it s)

/-! ## Requests -/

/-- The fields latched from a request word (10_state.md R27, 30_encoding.md R70). -/
def latch (w : Word) : Latched where
  op := w.extractLsb' 0 4
  f := fieldF w
  a := fieldA w
  v := fieldV w

/-- Acceptance: BUSY is set, the operands are latched and the sequencer starts the body (42_display_ops.md R160). -/
def accept (i : Instr) (body : List Item) (s : State) : State :=
  { s with seq := .run (latch (encode i)) 0 body, status := s.status.setBusy true }

/-- The hold: the write stays pending at REQ, neither lost nor faulted (10_state.md R34). -/
def hold (i : Instr) (s : State) : State := { s with inputs := .write 0 (encode i) :: s.inputs }

/-- A request offered to the engine: accepted when it is idle, held otherwise (10_state.md R34, 42_display_ops.md R160). -/
def offer (i : Instr) (body : List Item) (s : State) : State :=
  match s.seq with
  | .idle => accept i body s
  | .run _ _ _ | .reset _ _ => hold i s

/-- `raise IllegalRequest(w)`: ERR is set and nothing else changes (60_exceptions.md R200). BUSY is 1 and 0 again within
the acceptance (42_display_ops.md R160). -/
def raiseIllegalRequest (s : State) : State := { s with status := s.status.setErr }

/-! ## Reset -/

/-- Reset begins, whatever the engine was doing (70_reset_and_hazards.md R230, R231): a running request is abandoned,
STATUS is 0x01, CMD and the receiver's contents are not given (10_state.md R36), the pins keep their levels. -/
def beginReset (s : State) : State :=
  { s with
    seq := .reset 0 resetItems
    status := Status.atReset
    cmd := Config.freeCmd s.draws
    rx := { (s.rx.unknown s.draws).endFrame with inbox := [] }
    draws := s.draws + 1 }

/-- Power-up is reset (60_exceptions.md R211) from pins whose direction and levels are not given (10_state.md R36), with
the given configuration. -/
def State.powerUp (p : Params) : State :=
  beginReset { State.reset with
    params := p
    clkOe := Config.freeBit 0
    clkOut := Config.freeBit 1
    dioOe := Config.freeBit 2
    dioOut := Config.freeBit 3
    draws := 4 }

/-! ## Host accesses -/

/-- `MemRead(n)`: STATUS for register 1, CMD for register 2, no other (10_state.md R24, R25; 20_memory.md R51). -/
def hostRegister (n : Nat) (s : State) : Option Byte :=
  if n = 1 then some s.status.byte else if n = 2 then some s.cmd else none

/-- A host read: the value goes to the host and nothing else changes (20_memory.md R51); any other register is refused
(10_state.md R25). -/
def hostRead (n : Nat) (s : State) : Host.Outcome State Fault Refusal :=
  match hostRegister n s with
  | some v => .next { s with reads := (n, v) :: s.reads }
  | none => .refused (.hostAccess n)

end Sys2Proof.Machine
end

