-- ==== Sys2Proof/Machine/Requests.lean ====
section
/-! DEFINITION. The meanings of the nine requests (42_display_ops.md R162 to R180): each is offered to the engine, which
accepts it when idle (R160) and then performs its body item by item, one item a step (10_state.md R26). -/

namespace Sys2Proof.Machine

/-- INIT (42_display_ops.md R162). -/
def execInit (brightness : Byte) (s : State) : Host.Outcome State Fault Refusal :=
  .next (offer (.init brightness) (bodyInit brightness) s)

/-- RSYM (42_display_ops.md R164). -/
def execRsym (digit code : Byte) (raw : Bool) (s : State) : Host.Outcome State Fault Refusal :=
  .next (offer (.rsym digit code raw) (bodyRsym s.params digit code raw) s)

/-- RHEX (42_display_ops.md R166). -/
def execRhex (value : Byte) (s : State) : Host.Outcome State Fault Refusal :=
  .next (offer (.rhex value) (bodyRhex s.params value) s)

/-- RINT (42_display_ops.md R168); refused where 41_symbol_encoder.md R139 gives no meaning. -/
def execRint (value : BitVec 16) (useDecimal : Bool) (s : State) : Host.Outcome State Fault Refusal :=
  if hexRefused s.params value useDecimal then .refused .hexNotClamped
  else .next (offer (.rint value useDecimal) (bodyRint s.params value useDecimal) s)

/-- SETDP (42_display_ops.md R170). -/
def execSetdp (on : Bool) (s : State) : Host.Outcome State Fault Refusal :=
  .next (offer (.setdp on) (bodySetdp on) s)

/-- CLEAR (42_display_ops.md R172). -/
def execClear (s : State) : Host.Outcome State Fault Refusal := .next (offer .clear bodyClear s)

/-- SETBR (42_display_ops.md R176). -/
def execSetbr (level : Byte) (s : State) : Host.Outcome State Fault Refusal :=
  .next (offer (.setbr level) (bodySetbr level) s)

/-- PWROFF (42_display_ops.md R178). -/
def execPwroff (s : State) : Host.Outcome State Fault Refusal := .next (offer .pwroff bodyPwroff s)

/-- CLRSTS (42_display_ops.md R180). -/
def execClrsts (s : State) : Host.Outcome State Fault Refusal := .next (offer .clrsts bodyClrsts s)

end Sys2Proof.Machine
end

