-- ==== Sys2Proof/Machine/Wire.lean ====
section
/-! DEFINITION. The meanings of the seven wire byte classes (30_encoding.md R76, R77): each is a byte of a heard frame, and
its effect is the reference receiver's reading of that byte at its position (30_encoding.md R78; log 8). -/

namespace Sys2Proof.Machine

/-- DATA_AUTO, 0x40. -/
def execDataAuto (s : State) : Host.Outcome State Fault Refusal := .next (receiveByte cmdAuto s)

/-- DATA_FIXED, 0x44. -/
def execDataFixed (s : State) : Host.Outcome State Fault Refusal := .next (receiveByte cmdFixed s)

/-- DISP_OFF, 0x80. -/
def execDispOff (s : State) : Host.Outcome State Fault Refusal := .next (receiveByte dispOffByte s)

/-- DISP_ON, 0x88 + level. -/
def execDispOn (level : BitVec 3) (s : State) : Host.Outcome State Fault Refusal :=
  .next (receiveByte (dispOnBase + level.setWidth 8) s)

/-- ADDR, 0xC0 + aa. -/
def execAddr (aa : BitVec 2) (s : State) : Host.Outcome State Fault Refusal :=
  .next (receiveByte (addrBase + aa.setWidth 8) s)

/-- SEG_DATA, a pattern with bit 7 = 0. -/
def execSegData (pattern : BitVec 7) (s : State) : Host.Outcome State Fault Refusal :=
  .next (receiveByte (pattern.setWidth 8) s)

/-- DP_DATA, 0x08 or 0x00. -/
def execDpData (on : Bool) (s : State) : Host.Outcome State Fault Refusal := .next (receiveByte (dpByte on) s)

end Sys2Proof.Machine
end

