-- ==== Sys2Proof/Machine/Dispatch.lean ====
section
/-! DEFINITION. The meaning of each instruction, one arm per constructor. -/

namespace Sys2Proof.Machine

-- One arm for each row of spec/opcode_table.json, in the table's order.
def exec (i : Instr) (s : State) : Host.Outcome State Fault Refusal :=
  match i with
  | .init brightness => Sys2Proof.Machine.execInit brightness s
  | .rsym digit code raw => Sys2Proof.Machine.execRsym digit code raw s
  | .rhex value => Sys2Proof.Machine.execRhex value s
  | .rint value useDecimal => Sys2Proof.Machine.execRint value useDecimal s
  | .setdp on => Sys2Proof.Machine.execSetdp on s
  | .clear => Sys2Proof.Machine.execClear s
  | .setbr level => Sys2Proof.Machine.execSetbr level s
  | .pwroff => Sys2Proof.Machine.execPwroff s
  | .clrsts => Sys2Proof.Machine.execClrsts s
  | .dataAuto => Sys2Proof.Machine.execDataAuto s
  | .dataFixed => Sys2Proof.Machine.execDataFixed s
  | .dispOff => Sys2Proof.Machine.execDispOff s
  | .dispOn level => Sys2Proof.Machine.execDispOn level s
  | .addr aa => Sys2Proof.Machine.execAddr aa s
  | .segData pattern => Sys2Proof.Machine.execSegData pattern s
  | .dpData on => Sys2Proof.Machine.execDpData on s

end Sys2Proof.Machine
end

