-- ==== Sys2Proof/Machine/Fetch.lean ====
section
/-! DEFINITION. The two ports an instruction is taken from, and the step each makes. -/

namespace Sys2Proof.Machine

/-- The receiver reads the next byte of a heard frame: the instruction its position gives it (30_encoding.md R77), and the
reference receiver's reading of any other byte (R78; the engine sends none). -/
def stepWire (b : Byte) (s : State) : Host.Outcome State Fault Refusal :=
  match decodeByte s.rx.pos b with
  | some i => exec i s
  | none => .next (receiveByte b s)

/-- An idle engine takes a request word from REQ: a legal word's request, IllegalRequest otherwise
(42_display_ops.md R160). -/
def stepRequest (w : Word) (s : State) : Host.Outcome State Fault Refusal :=
  match decodeRequest w with
  | some i => exec i s
  | none => .next (raiseIllegalRequest s)

/-- The next input. `s` is the state with that input taken off the list, `held` the state with it still there. A host write
to REQ is taken when the engine is idle and held while it is busy (10_state.md R34); one to another register is refused
(R25). -/
def stepInput (x : Input) (held s : State) : Host.Outcome State Fault Refusal :=
  match x with
  | .write n w =>
    if n = 0 then
      match s.seq with
      | .idle => stepRequest w s
      | .run _ _ _ | .reset _ _ => .next (engineStep held)
    else .refused (.hostAccess n)
  | .read n => hostRead n s
  | .reset => .next (beginReset s)
  | .quiet => .next (engineStep s)

/-- The request word placed at REQ of an idle engine whose receiver has nothing to read. -/
def placeRequest (w : Word) (s : State) : State :=
  { s with
    seq := .idle
    status := s.status.setBusy false
    rx := { s.rx with inbox := [] }
    inputs := .write 0 w :: s.inputs }

/-- The location a data byte of a frame at this position goes to; a first byte needs none. -/
def ptrAt (pos : FramePos) (ptr : Nat) : Nat :=
  match pos with
  | .data opened => opened.toNat
  | .first | .ignored => ptr

/-- The byte placed as the receiver's next byte, at the position at which the opcode table's row is read. -/
def placeByte (b : Byte) (s : State) : State :=
  { s with
    rx := { s.rx with
      inbox := b :: s.rx.inbox
      pos := tablePosition b
      ptr := ptrAt (tablePosition b) s.rx.ptr } }

end Sys2Proof.Machine
end

