-- ==== Sys2Proof/Machine/Step.lean ====
section
/-! DEFINITION. One step of the machine, and where its next instruction is taken from. -/

namespace Sys2Proof.Machine

/-- One step. A byte the receiver has to read comes first; then the next input; with no input the engine performs its next
item, and an idle engine waits for a request (00_scope.md R10, 10_state.md R26, 70_reset_and_hazards.md R230). -/
def step (s : State) : Host.Outcome State Fault Refusal :=
  match s.rx.inbox with
  | b :: rest => stepWire b { s with rx := { s.rx with inbox := rest } }
  | [] =>
    match s.inputs with
    | x :: rest => stepInput x s { s with inputs := rest }
    | [] => .next (engineStep s)

/-- The state with an opcode-table row's word placed where the next step takes its instruction: as the receiver's next
byte for a wire row (8 bits), at REQ of an idle engine for a request row. Log 13. -/
def State.withFetchWord (s : State) (nbits w : Nat) : State :=
  if nbits = 8 then placeByte (BitVec.ofNat 8 w) s else placeRequest (BitVec.ofNat 32 w) s

end Sys2Proof.Machine
end

