-- ==== Sys2Proof/Machine/Assembler.lean ====
section
/-! DEFINITION. The text of an assembler line (30_encoding.md R79, R80): mnemonic in lower case, operands separated by
commas, numbers in decimal or 0x hexadecimal, a comment from `;` on. -/

namespace Sys2Proof.Machine

/-- A space or a tab. -/
def isBlank (c : Char) : Bool := c == ' ' || c == '\t'

/-- The text without the blanks at its two ends. -/
def trim (t : List Char) : List Char := ((t.dropWhile isBlank).reverse.dropWhile isBlank).reverse

/-- The value of a digit in the given base. -/
def digitValue (base : Nat) (c : Char) : Option Nat :=
  let n := c.toNat
  let v := if 48 ≤ n ∧ n ≤ 57 then n - 48 else if 97 ≤ n ∧ n ≤ 102 then n - 87 else if 65 ≤ n ∧ n ≤ 70 then n - 55 else 16
  if v < base then some v else none

/-- The value of a run of digits, at least one. -/
def digitsValue (base : Nat) : List Char → Option Nat
  | [] => none
  | c :: cs => (c :: cs).foldl (fun acc d => acc.bind fun n => (digitValue base d).map (n * base + ·)) (some 0)

/-- A number: `0x` hexadecimal or decimal. -/
def parseNumber : List Char → Option Nat
  | '0' :: 'x' :: ds => digitsValue 16 ds
  | ds => digitsValue 10 ds

/-- The operands: the text split at commas, each trimmed; none where the text is blank. -/
def operandsOf (t : List Char) : List (List Char) :=
  if (trim t).isEmpty then [] else (t.splitOn ',').map trim

/-- The mnemonic and the operands of a line, its comment dropped. -/
def splitLine (t : List Char) : List Char × List (List Char) :=
  let body := trim (t.takeWhile (· != ';'))
  (body.takeWhile (!isBlank ·), operandsOf (body.dropWhile (!isBlank ·)))

/-- The line a mnemonic and its operands stand for (30_encoding.md R79, R80). -/
def lineOf (mnemonic : List Char) (ops : List (List Char)) : Option AsmLine :=
  if mnemonic = ['i', 'n', 'i', 't'] then
    match ops with
    | [] => some (.init none)
    | [b] => (parseNumber b).map (.init ·)
    | _ => none
  else if mnemonic = ['r', 's', 'y', 'm'] then
    match ops with
    | [d, c] => (parseNumber d).bind fun d => (parseNumber c).map fun c => .rsym d c false
    | [d, c, ['r', 'a', 'w']] => (parseNumber d).bind fun d => (parseNumber c).map fun c => .rsym d c true
    | _ => none
  else if mnemonic = ['r', 'h', 'e', 'x'] then
    match ops with
    | [v] => (parseNumber v).map .rhex
    | _ => none
  else if mnemonic = ['r', 'i', 'n', 't'] then
    match ops with
    | [v] => (parseNumber v).map (.rint · false)
    | [v, ['h', 'e', 'x']] => (parseNumber v).map (.rint · true)
    | _ => none
  else if mnemonic = ['s', 'e', 't', 'd', 'p'] then
    match ops with
    | [] => some (.setdp none)
    | [['o', 'n']] => some (.setdp true)
    | [['o', 'f', 'f']] => some (.setdp false)
    | _ => none
  else if mnemonic = ['c', 'l', 'e', 'a', 'r'] ∧ ops = [] then some .clear
  else if mnemonic = ['s', 'e', 't', 'b', 'r'] then
    match ops with
    | [] => some (.setbr none)
    | [l] => (parseNumber l).map (.setbr ·)
    | _ => none
  else if mnemonic = ['p', 'w', 'r', 'o', 'f', 'f'] ∧ ops = [] then some .pwroff
  else if mnemonic = ['c', 'l', 'r', 's', 't', 's'] ∧ ops = [] then some .clrsts
  else if mnemonic = ['d', 'p', 'o', 'n'] ∧ ops = [] then some .dpon
  else if mnemonic = ['d', 'p', 'o', 'f', 'f'] ∧ ops = [] then some .dpoff
  else if mnemonic = ['.', 'w', 'o', 'r', 'd'] then
    match ops with
    | [w] => (parseNumber w).map .word
    | _ => none
  else if mnemonic = ['b', 'l', 'a', 'n', 'k'] then
    match ops with
    | [d] => (parseNumber d).map .blank
    | _ => none
  else if mnemonic = ['s', 'e', 'g'] then
    match ops with
    | [d, m] => (parseNumber d).bind fun d => (parseNumber m).map fun m => .seg d m
    | _ => none
  else if mnemonic = ['g', 'l', 'y', 'p', 'h'] then
    match ops with
    | [d, c] => (parseNumber d).bind fun d => (parseNumber c).map fun c => .glyph d c
    | _ => none
  else if mnemonic = ['r', 'd', 'e', 'c'] then
    match ops with
    | [v] => (parseNumber v).map .rdec
    | _ => none
  else if mnemonic = ['r', 'h', 'e', 'x', 'w'] then
    match ops with
    | [v] => (parseNumber v).map .rhexw
    | _ => none
  else none

/-- The line a text stands for, and nothing where the text is no line of 30_encoding.md R79 or R80. -/
def parseLine (t : List Char) : Option AsmLine := lineOf (splitLine t).1 (splitLine t).2

/-- The request word of a line of text, and nothing where the text is no line or an operand does not fit its field
(30_encoding.md R79). -/
def assembleText (t : List Char) : Option Word := (parseLine t).bind assemble

end Sys2Proof.Machine
end

