-- ==== Sys2Proof/Safety.lean ====
section
/-! DEFINITION. What the claims about the machine are said with: the idle bus, a legal CMD, the invariants, the wire trace the
rules give for a list of frames, the completion of a request, and the display a viewer sees. -/

namespace Sys2Proof.Machine

/-! ## Runs -/

/-- The machine goes from one state to the other by steps that each answer a next state. -/
abbrev StepsTo (s t : State) : Prop := Relation.ReflTransGen (fun a b => step a = .next b) s t

/-! ## Pins and the idle bus -/

/-- The pin ports' state (10_state.md R20). -/
structure Pins where
  clkOe : Bool
  clkOut : Bool
  dioOe : Bool
  dioOut : Bool
deriving DecidableEq, Repr

/-- The pins of a state. -/
def State.pins (s : State) : Pins := ⟨s.clkOe, s.clkOut, s.dioOe, s.dioOut⟩

/-- The idle bus: CLK = 1, DIO an output driving 1 (40_bus_protocol.md R110). -/
abbrev Pins.idle : Pins := ⟨true, true, true, true⟩

/-- The pins after an event, for the latch value `latch` that `ModeIn` may leave (10_state.md R20, R23). -/
def Pins.after (a : Action) (latch : Bool) (p : Pins) : Pins :=
  match a with
  | .modeOut .clk => { p with clkOe := true }
  | .modeOut .dio => { p with dioOe := true }
  | .modeIn => { p with dioOe := false, dioOut := latch }
  | .drive .clk v => { p with clkOut := v }
  | .drive .dio v => { p with dioOut := v }
  | .wait => p

/-- The items may be performed from these pins and end in the idle bus, whatever bits are sampled and whatever the latch
holds after `ModeIn`: DIO is driven only while it is an output (10_state.md R23), sampled only while it is an input
(R22), and at the end the bus is idle (40_bus_protocol.md R110). -/
def busPlan : List Item → Pins → Prop
  | [], p => p = Pins.idle
  | .emit (.drive .dio v) :: rest, p => p.dioOe = true ∧ busPlan rest (p.after (.drive .dio v) false)
  | .emit a :: rest, p => ∀ latch, busPlan rest (p.after a latch)
  | .sampleAck :: rest, p =>
    p.dioOe = false ∧ busPlan rest p ∧ busPlan rest { p with dioOe := true, dioOut := false }
  | .setCmd _ :: rest, p | .clearNack :: rest, p | .clearErr :: rest, p => busPlan rest p

/-! ## Invariants -/

/-- BUSY is 1 exactly when the sequencer is not Idle, and a sequencer that is not Idle has an item to perform
(10_state.md R26). -/
def BusyInv (s : State) : Prop :=
  (s.status.busy = true ↔ s.seq ≠ .idle) ∧ (s.seq ≠ .idle → s.seq.pending ≠ [])

/-- The legal values of CMD (10_state.md R28). -/
def legalCmds : List Byte := [0x80, 0x88, 0x89, 0x8A, 0x8B, 0x8C, 0x8D, 0x8E, 0x8F]

/-- CMD holds a legal value, but for the part of a reset before its SETBR item (10_state.md R28, R36); and every value still
to be written to CMD is legal. -/
def CmdInv (s : State) : Prop :=
  (s.cmd ∈ legalCmds ∨ (∃ k todo, s.seq = .reset k todo ∧ .setCmd (0x8A : Byte) ∈ todo)) ∧
    ∀ v, .setCmd v ∈ s.seq.pending → v ∈ legalCmds

/-- What remains of the running request keeps the rules of the bus and ends in the idle bus (40_bus_protocol.md R110). -/
def BusInv (s : State) : Prop := busPlan s.seq.pending s.pins

/-- The receiver's RAM is in its canonical form and holds locations of `RAM[0..3]` only (30_encoding.md R78). -/
def RamInv (s : State) : Prop :=
  Memory.wf s.rx.ram ∧ ∀ c ∈ s.rx.ram, 0xC0 ≤ c.1 ∧ c.1 ≤ 0xC3

/-- Which request is running, by its latched OP, when an item of its own kind remains: an update of CMD belongs to INIT,
SETBR or PWROFF (10_state.md R24), a clearing of NACK_SEEN or ERR to CLRSTS (10_state.md R30). A reset sequence clears
neither. -/
def OwnerInv (s : State) : Prop :=
  (∀ req k todo, s.seq = .run req k todo →
    ((∃ v, .setCmd v ∈ todo) → req.op = 1 ∨ req.op = 7 ∨ req.op = 8) ∧
    (.clearNack ∈ todo ∨ .clearErr ∈ todo → req.op = 9)) ∧
  ∀ k todo, s.seq = .reset k todo → .clearNack ∉ todo ∧ .clearErr ∉ todo

/-! ## States between requests -/

/-- Nothing is going on: the engine is idle and not busy, the bus is idle, the receiver is in no frame and has no byte to
read (10_state.md R36, 40_bus_protocol.md R110). -/
structure Ready (s : State) : Prop where
  seq : s.seq = .idle
  busy : s.status.busy = false
  pins : s.pins = Pins.idle
  inFrame : s.rx.inFrame = false
  ackBit : s.rx.ackBit = false
  inbox : s.rx.inbox = []

/-- The outside does nothing while a request runs: no input comes, or the next one is a write to REQ, which is held
(10_state.md R34). -/
def HostWaits (s : State) : Prop := s.inputs = [] ∨ ∃ w rest, s.inputs = .write 0 w :: rest

/-- The engine has the next step: the receiver has no byte to read, and the outside does nothing (no input, or one that is
quiet) or its write is held; `more` is what it does after that (10_state.md R26, R34). -/
def EngineTurn (s : State) (more : List Input) : Prop :=
  s.rx.inbox = [] ∧
    (s.inputs = [] ∧ more = [] ∨ s.inputs = .quiet :: more ∨ ∃ w rest, s.inputs = .write 0 w :: rest ∧ more = s.inputs)

/-! ## The wire trace of a list of frames (40_bus_protocol.md R100 to R108) -/

/-- The event of driving a pin. -/
abbrev drives (p : Pin) (v : Bool) : WireEvent := .act (.drive p v)

/-- The events of a byte's data phase: bit 0 first, DIO changed while CLK is low (40_bus_protocol.md R102). -/
def dataTrace (b : Byte) : List WireEvent :=
  (List.range 8).flatMap fun i => [drives .clk false, drives .dio (b.getLsbD i), drives .clk true]

/-- The events of a byte's acknowledgment phase with the sampled bit `ack` (40_bus_protocol.md R103). -/
def ackTrace (ack : Bool) : List WireEvent :=
  [drives .clk false, drives .dio true, drives .clk true, .act .modeIn, .act .wait, .sample ack] ++
    (if ack then [] else [.act (.modeOut .dio), drives .dio false]) ++
    [.act .wait, .act (.modeOut .dio), .act .wait]

/-- The events of `writeByte(b)` with the sampled bit `ack` (40_bus_protocol.md R102, R103). -/
def byteTrace (b : Byte) (ack : Bool) : List WireEvent := dataTrace b ++ ackTrace ack

/-- The events of bytes sent one after another, each with its sampled bit. -/
def bytesTrace : List Byte → List Bool → List WireEvent
  | [], _ => []
  | b :: bs, acks => byteTrace b (acks.headD false) ++ bytesTrace bs acks.tail

/-- The events of a start, oldest first (40_bus_protocol.md R100). -/
def startTrace : List WireEvent := [drives .clk true, drives .dio true, drives .dio false, drives .clk false]

/-- The events of a stop, oldest first (40_bus_protocol.md R101). -/
def stopTrace : List WireEvent := [drives .clk false, drives .dio false, drives .clk true, drives .dio true]

/-- The events of a frame, oldest first (00_scope.md R9). -/
def frameTrace (bytes : List Byte) (acks : List Bool) : List WireEvent :=
  startTrace ++ bytesTrace bytes acks ++ stopTrace

/-- The events of frames one after another, oldest first, `acks` the bits sampled at their bytes in order. -/
def framesTrace : List (List Byte) → List Bool → List WireEvent
  | [], _ => []
  | f :: fs, acks => frameTrace f acks ++ framesTrace fs (acks.drop f.length)

/-- The number of bytes of a list of frames. -/
def byteCount (fs : List (List Byte)) : Nat := (fs.map List.length).sum

/-- The number of segment and decimal-point data bytes of a list of frames: all but each frame's first byte. -/
def dataByteCount (fs : List (List Byte)) : Nat := (fs.map (·.length - 1)).sum

/-- The frames a request puts on the wire (42_display_ops.md R162 to R180). -/
def requestFrames (p : Params) : Instr → List (List Byte)
  | .init b => framesInit b
  | .rsym d c raw => framesRsym p d c raw
  | .rhex v => framesRhex p v
  | .rint v dec => framesRint p v dec
  | .setdp on => framesSetdp on
  | .clear => framesClear
  | .setbr l => framesSetbr l
  | .pwroff => framesPwroff
  | .clrsts | .dataAuto | .dataFixed | .dispOff | .dispOn _ | .addr _ | .segData _ | .dpData _ => []

/-- The model gives the request no meaning (41_symbol_encoder.md R139). -/
def refusedRequest (p : Params) : Instr → Bool
  | .rint v dec => hexRefused p v dec
  | .init _ | .rsym _ _ _ | .rhex _ | .setdp _ | .clear | .setbr _ | .pwroff | .clrsts | .dataAuto | .dataFixed
  | .dispOff | .dispOn _ | .addr _ | .segData _ | .dpData _ => false

/-- The bytes of a frame as the classes their positions give them (30_encoding.md R77). -/
def decodeFrame : List Byte → Option (List Instr)
  | [] => some []
  | b :: rest => (decodeFirst b).bind fun i => (rest.mapM (decodeByte i.opens)).map (i :: ·)

/-! ## Edges on the two lines, read off a trace -/

/-- The number of rising edges of CLK in a trace, oldest event first, from a level of CLK (40_bus_protocol.md R109). -/
def clockRises : Bool → List WireEvent → Nat
  | _, [] => 0
  | clk, .act (.drive .clk v) :: es => (if v && !clk then 1 else 0) + clockRises v es
  | clk, .act (.drive .dio _) :: es | clk, .act (.modeOut _) :: es | clk, .act .modeIn :: es | clk, .act .wait :: es
  | clk, .sample _ :: es => clockRises clk es

/-- The number of times the engine changes `DIO_OUT` while `CLK_OUT` is 1, in a trace, oldest event first, from levels of
CLK and DIO (40_bus_protocol.md R105). -/
def dataEdgesHigh : Bool → Bool → List WireEvent → Nat
  | _, _, [] => 0
  | _, dio, .act (.drive .clk v) :: es => dataEdgesHigh v dio es
  | clk, dio, .act (.drive .dio v) :: es => (if clk && v != dio then 1 else 0) + dataEdgesHigh clk v es
  | clk, dio, .act (.modeOut _) :: es | clk, dio, .act .modeIn :: es | clk, dio, .act .wait :: es
  | clk, dio, .sample _ :: es => dataEdgesHigh clk dio es

/-- The levels of DIO at the rising edges of CLK in a trace, oldest first, from levels of CLK and DIO (20_memory.md R54). -/
def bitsAtRises : Bool → Bool → List WireEvent → List Bool
  | _, _, [] => []
  | clk, dio, .act (.drive .clk v) :: es => (if v && !clk then [dio] else []) ++ bitsAtRises v dio es
  | clk, _, .act (.drive .dio v) :: es => bitsAtRises clk v es
  | clk, dio, .act (.modeOut _) :: es | clk, dio, .act .modeIn :: es | clk, dio, .act .wait :: es
  | clk, dio, .sample _ :: es => bitsAtRises clk dio es

/-! ## The receiver -/

/-- The receiver's reading of a whole frame (30_encoding.md R78). -/
def Receiver.readFrame (r : Receiver) (bytes : List Byte) : Receiver :=
  bytes.foldl Receiver.take { r with pos := .first }

/-- The receiver's reading of frames one after another. -/
def Receiver.readFrames (r : Receiver) (fs : List (List Byte)) : Receiver := fs.foldl Receiver.readFrame r

/-- Two receivers hold the same in `MODE`, `DCTRL` and `RAM` (30_encoding.md R78). -/
def Receiver.agrees (r q : Receiver) : Prop := r.mode = q.mode ∧ r.dctrl = q.dctrl ∧ r.ram = q.ram

/-! ## Completion of a request -/

/-- The fields of a request word: OP, F, A and V, with RSV = 0 (30_encoding.md R70). -/
def HasFields (w : Word) (op : BitVec 4) (f : Bool) (a : Byte) (v : BitVec 16) : Prop :=
  w.extractLsb' 0 4 = op ∧ fieldF w = f ∧ w.extractLsb' 5 3 = 0 ∧ fieldA w = a ∧ fieldV w = v

/-- The state `u` in which a request that began in `s` has completed: it has put exactly the frames `fs` on the wire, with
`acks` sampled at their bytes in order, and left `c` in CMD. The engine is idle again, the bus too; LAST_ACK is the last
bit sampled and NACK_SEEN set if one was 1 (40_bus_protocol.md R103); and ERR, the configuration, the host's inputs and
reads are untouched. -/
structure Completed (s u : State) (fs : List (List Byte)) (c : Byte) (acks rest : List Bool) : Prop where
  ready : Ready u
  cmd : u.cmd = c
  status : u.status =
    { busy := false
      lastAck := acks.getLastD s.status.lastAck
      nackSeen := s.status.nackSeen || acks.any id
      err := s.status.err }
  frames : u.frames = fs.reverse ++ s.frames
  trace : u.trace = (framesTrace fs acks).reverse ++ s.trace
  dioIn : u.dioIn = rest
  params : u.params = s.params
  inputs : u.inputs = s.inputs
  reads : u.reads = s.reads

/-- The instruction is accepted in `s` and runs to completion: whatever bits are sampled at its bytes, `exec` answers the
state in which the engine has accepted it (42_display_ops.md R160) and the machine's steps lead from there to a state in
which it has completed. -/
def CompletesWith (i : Instr) (s : State) (fs : List (List Byte)) (c : Byte) : Prop :=
  ∀ acks rest, acks.length = byteCount fs → s.dioIn = acks ++ rest →
    ∃ t u, exec i s = .next t ∧
      (∃ body, t = { s with
        seq := .run (latch (encode i)) 0 body
        status := { s.status with busy := true } }) ∧
      StepsTo t u ∧ Completed s u fs c acks rest

/-- The instruction is accepted in `s`, runs, and ends in a state between requests of which `P` holds. -/
def RunsTo (i : Instr) (s : State) (P : State → Prop) : Prop :=
  ∃ t u, exec i s = .next t ∧ StepsTo t u ∧ Ready u ∧ P u

/-- The receiver acknowledges every byte of the next request, which has at most 13. -/
def AllAcked (s : State) : Prop := ∃ rest, s.dioIn = List.replicate 13 false ++ rest

/-! ## The display (30_encoding.md R78) -/

/-- What a viewer sees: the digit cells as pairs of physical cell and pattern, the decimal point, and whether anything is
lit and how brightly. -/
structure Display where
  cells : List (Fin 3 × Byte)
  point : Bool
  lit : Bool
  level : BitVec 3
deriving DecidableEq, Repr

/-- The display's appearance: cell `CELL_MAP(d)` shows `RAM[d]`, the point is lit iff `RAM[3] = 0x08`, all is dark iff
`DCTRL[3] = 0` (30_encoding.md R78). -/
def appearance (s : State) : Display where
  cells := (List.finRange 3).map fun d => (s.params.cellMap.get d, Memory.read s.rx.ram (ramAddr d))
  point := Memory.read s.rx.ram (ramAddr 3) == 0x08
  lit := s.rx.dctrl.getLsbD 3
  level := s.rx.dctrl.extractLsb' 0 3

/-! ## Boot and time -/

/-- The environment's first duty: CLK and DIO are bound to two distinct pins (70_reset_and_hazards.md R232). -/
def bootable (p : Params) : Prop := p.clockPin ≠ p.dataPin

/-- The time spent waiting in a trace, in microseconds: `T_BIT` for each Wait (40_bus_protocol.md R104,
70_reset_and_hazards.md R240). For information: no step depends on it. -/
def waitingTime (p : Params) (trace : List WireEvent) : Nat := p.tBit * trace.countP (· == .act .wait)

end Sys2Proof.Machine
end

