-- ==== Sys2Proof/Certificates/Slice0/Obligations.lean ====
section
/-! DEFINITION. The statements about the machine, one definition each; OBLIGATIONS.json lists them with the rules they
formalise. Frames and traces are written oldest first and State keeps them newest first. -/

open Sys2Proof
open Sys2Proof.Machine

/-! ## Encoding -/

/-- 30_encoding.md R73: a word is legal exactly when OP is one of 1 to 9, RSV is 0, and every field R71 marks 0 for that
opcode is 0; equivalently (the spec's own derivation) when, masked, it is the match value of one row of the table; and no
word hits two rows. -/
def Obligations.LegalWordsExactly : Prop :=
  (∀ w : Word, (decodeRequest w).isSome = true ↔
    w.extractLsb' 5 3 = 0 ∧
    ((w.extractLsb' 0 4 = 1 ∧ fieldF w = false ∧ fieldV w = 0) ∨
     (w.extractLsb' 0 4 = 2 ∧ w.extractLsb' 24 8 = 0) ∨
     (w.extractLsb' 0 4 = 3 ∧ fieldF w = false ∧ fieldV w = 0) ∨
     (w.extractLsb' 0 4 = 4 ∧ fieldA w = 0) ∨
     (w.extractLsb' 0 4 = 5 ∧ fieldA w = 0 ∧ fieldV w = 0) ∨
     (w.extractLsb' 0 4 = 6 ∧ fieldF w = false ∧ fieldA w = 0 ∧ fieldV w = 0) ∨
     (w.extractLsb' 0 4 = 7 ∧ fieldF w = false ∧ fieldV w = 0) ∨
     (w.extractLsb' 0 4 = 8 ∧ fieldF w = false ∧ fieldA w = 0 ∧ fieldV w = 0) ∨
     (w.extractLsb' 0 4 = 9 ∧ fieldF w = false ∧ fieldA w = 0 ∧ fieldV w = 0))) ∧
  (∀ w : Word, (decodeRequest w).isSome = true ↔
    w &&& 0xFFFF00FF = 0x00000001 ∨ w &&& 0xFF0000EF = 0x00000002 ∨ w &&& 0xFFFF00FF = 0x00000003 ∨
    w &&& 0x0000FFEF = 0x00000004 ∨ w &&& 0xFFFFFFEF = 0x00000005 ∨ w &&& 0xFFFFFFFF = 0x00000006 ∨
    w &&& 0xFFFF00FF = 0x00000007 ∨ w &&& 0xFFFFFFFF = 0x00000008 ∨ w &&& 0xFFFFFFFF = 0x00000009) ∧
  requestRows.Pairwise fun r q => ∀ w, ¬(r.hits w = true ∧ q.hits w = true)

/-- Every instruction that may stand at a port decodes there from its own word. -/
def Obligations.DecodeEncodeRoundTrip : Prop :=
  ∀ (port : Port) (i : Instr), i.wellFormed port = true → decode port (encode i) = some i

/-- A port's word decodes to an instruction that may stand there and has that word: each word has one meaning. -/
def Obligations.EncodeDecodeRoundTrip : Prop :=
  ∀ (port : Port) (w : Word) (i : Instr), decode port w = some i → i.wellFormed port = true ∧ encode i = w

/-- 30_encoding.md R81: the worked encodings, each line of text assembled to its word and the word decoded, and the illegal
words (the spec's own derivation from R70, R71 and R79); with bytes of R76 at their positions. -/
def Obligations.WrittenOutWordsDecode : Prop :=
  (assembleText "rsym 1, 7".toList = some 0x00070102 ∧ decode .req 0x00070102 = some (.rsym 1 7 false)) ∧
  (assembleText "rsym 0, 0x49, raw".toList = some 0x00490012 ∧ decode .req 0x00490012 = some (.rsym 0 0x49 true)) ∧
  (assembleText "rint 1234".toList = some 0x04D20014 ∧ decode .req 0x04D20014 = some (.rint 1234 true)) ∧
  (assembleText "rint 0xABC, hex".toList = some 0x0ABC0004 ∧ decode .req 0x0ABC0004 = some (.rint 0xABC false)) ∧
  (assembleText "rhex 0x3C".toList = some 0x00003C03 ∧ decode .req 0x00003C03 = some (.rhex 0x3C)) ∧
  (assembleText "setbr 5".toList = some 0x00000507 ∧ decode .req 0x00000507 = some (.setbr 5)) ∧
  (assembleText "setbr 9".toList = some 0x00000907 ∧ decode .req 0x00000907 = some (.setbr 9)) ∧
  (assembleText "init".toList = some 0x00000201 ∧ decode .req 0x00000201 = some (.init 2)) ∧
  (assembleText "setdp on".toList = some 0x00000015 ∧ decode .req 0x00000015 = some (.setdp true)) ∧
  (assembleText "clear".toList = some 0x00000006 ∧ decode .req 0x00000006 = some .clear) ∧
  (assembleText "pwroff".toList = some 0x00000008 ∧ decode .req 0x00000008 = some .pwroff) ∧
  (assembleText "clrsts".toList = some 0x00000009 ∧ decode .req 0x00000009 = some .clrsts) ∧
  (∀ w ∈ [0x00000000, 0x0000000F, 0x00000026, 0x01000002, 0x00000106], decode .req w = none) ∧
  decode (.wire .first) 0x40 = some .dataAuto ∧
  decode (.wire .first) 0x44 = some .dataFixed ∧
  decode (.wire .first) 0x80 = some .dispOff ∧
  decode (.wire .first) 0x8D = some (.dispOn 5) ∧
  decode (.wire .first) 0xC3 = some (.addr 3) ∧
  decode (.wire (.data 1)) 0x44 = some (.segData 0x44) ∧
  decode (.wire (.data 3)) 0x08 = some (.dpData true) ∧
  decode (.wire (.data 3)) 0x00 = some (.dpData false)

/-- 30_encoding.md R79 and R80: an assembler line whose operands fit, but for `.word`, assembles to a word that decodes to
its request with the source's defaults; a line with an operand that does not fit assembles to nothing. That a number of
2^32 or more given to `.word` is such an operand is the model's choice (log 24): R79 does not say it. -/
def Obligations.AssemblerWordsDecode : Prop :=
  (∀ l : AsmLine, l.wellFormed = false → assemble l = none) ∧
  ∀ l : AsmLine, l.wellFormed = true →
    ∃ w, assemble l = some w ∧
      match l with
      | .init b => decodeRequest w = some (.init (BitVec.ofNat 8 (b.getD 2)))
      | .rsym d c raw => decodeRequest w = some (.rsym (BitVec.ofNat 8 d) (BitVec.ofNat 8 c) raw)
      | .rhex v => decodeRequest w = some (.rhex (BitVec.ofNat 8 v))
      | .rint v hex => decodeRequest w = some (.rint (BitVec.ofNat 16 v) (!hex))
      | .setdp on => decodeRequest w = some (.setdp (on.getD false))
      | .clear => decodeRequest w = some .clear
      | .setbr l => decodeRequest w = some (.setbr (BitVec.ofNat 8 (l.getD 2)))
      | .pwroff => decodeRequest w = some .pwroff
      | .clrsts => decodeRequest w = some .clrsts
      | .word n => w.toNat = n
      | .dpon => decodeRequest w = some (.setdp true)
      | .dpoff => decodeRequest w = some (.setdp false)
      | .blank d => decodeRequest w = some (.rsym (BitVec.ofNat 8 d) 0 true)
      | .seg d m => decodeRequest w = some (.rsym (BitVec.ofNat 8 d) (BitVec.ofNat 8 m) true)
      | .glyph d c => decodeRequest w = some (.rsym (BitVec.ofNat 8 d) (BitVec.ofNat 8 c) false)
      | .rdec v => decodeRequest w = some (.rint (BitVec.ofNat 16 v) true)
      | .rhexw v => decodeRequest w = some (.rint (BitVec.ofNat 16 v) false)

/-- 30_encoding.md R77: every frame of every request is a mode or display-control command alone, or an address byte followed
by data bytes of its class. -/
def Obligations.RequestFramesAreWellFormed : Prop :=
  ∀ (p : Params) (i : Instr), ∀ f ∈ requestFrames p i,
    ∃ is, decodeFrame f = some is ∧ wellFormedFrame is = true

/-! ## Steps -/

/-- A step runs the instruction its port gives it: a heard frame's byte, with that byte taken off, or the word pending at
REQ of an idle engine, with that write taken off. -/
def Obligations.StepRunsDecodedInstruction : Prop :=
  (∀ (s : State) (b : Byte) (rest : List Byte) (i : Instr), s.rx.inbox = b :: rest →
    decodeByte s.rx.pos b = some i → step s = exec i { s with rx := { s.rx with inbox := rest } }) ∧
  (∀ (s : State) (w : Word) (rest : List Input) (i : Instr), s.rx.inbox = [] → s.seq = .idle →
    s.inputs = .write 0 w :: rest → decodeRequest w = some i → step s = exec i { s with inputs := rest })

/-- 60_exceptions.md R200: an idle engine that is offered an illegal word sets ERR and changes nothing else, so that it is
idle for the next request; no legal word raises IllegalRequest; and ERR stays 1 until CLRSTS or reset. -/
def Obligations.IllegalWordSetsErrOnly : Prop :=
  (∀ (s : State) (w : Word) (rest : List Input), s.rx.inbox = [] → s.seq = .idle → s.inputs = .write 0 w :: rest →
    decodeRequest w = none →
    step s = .next { s with inputs := rest, status := { s.status with err := true } }) ∧
  (∀ (s t : State) (w : Word) (rest : List Input), s.rx.inbox = [] → s.seq = .idle → s.inputs = .write 0 w :: rest →
    (decodeRequest w).isSome = true → step s = .next t → t.status.err = s.status.err) ∧
  ∀ s t : State, OwnerInv s → step s = .next t → s.status.err = true → t.status.err = false →
    (∃ rest, s.inputs = .reset :: rest) ∨ ∃ req k todo, s.seq = .run req k todo ∧ req.op = 9

/-- 10_state.md R34: an idle engine accepts a write to REQ, which leaves the port, its fields latched in the sequencer
(42_display_ops.md R160; an illegal word is IllegalWordSetsErrOnly's); while the engine runs, a write is neither lost
nor faulted: the engine performs its next item as it would with no write pending, and the write stays pending. -/
def Obligations.RequestHeldWhileBusy : Prop :=
  (∀ (s : State) (w : Word) (rest : List Input) (i : Instr), s.rx.inbox = [] → s.seq = .idle →
    s.inputs = .write 0 w :: rest → decodeRequest w = some i → refusedRequest s.params i = false →
    ∃ body, step s = .next { s with
      inputs := rest
      seq := .run { op := w.extractLsb' 0 4, f := fieldF w, a := fieldA w, v := fieldV w } 0 body
      status := { s.status with busy := true } }) ∧
  ∀ (s : State) (w : Word) (rest : List Input), s.rx.inbox = [] → s.seq ≠ .idle → s.inputs = .write 0 w :: rest →
    ∃ t, step { s with inputs := [] } = .next t ∧ step s = .next { t with inputs := .write 0 w :: rest }

/-- The same at the instruction: a request whose meaning is asked for while the engine runs stays pending at REQ as its own
word, and nothing else changes. -/
def Obligations.RequestExecutedWhileBusyIsHeld : Prop :=
  ∀ (s : State) (i : Instr), i.isRequest = true → refusedRequest s.params i = false → s.seq ≠ .idle →
    exec i s = .next { s with inputs := .write 0 (encode i) :: s.inputs }

/-- 20_memory.md R51: a host read of STATUS or CMD gives the register as it stands and has no side effect. -/
def Obligations.HostReadsHaveNoSideEffect : Prop :=
  ∀ (s : State) (rest : List Input), s.rx.inbox = [] →
    (s.inputs = .read 1 :: rest → step s = .next { s with inputs := rest, reads := (1, s.status.byte) :: s.reads }) ∧
    (s.inputs = .read 2 :: rest → step s = .next { s with inputs := rest, reads := (2, s.cmd) :: s.reads })

/-- 10_state.md R25: any other host access is refused. -/
def Obligations.UndefinedHostAccessRefused : Prop :=
  ∀ (s : State) (n : Nat) (v : Word) (rest : List Input), s.rx.inbox = [] →
    (n ≠ 1 → n ≠ 2 → s.inputs = .read n :: rest → step s = .refused (.hostAccess n)) ∧
    (n ≠ 0 → s.inputs = .write n v :: rest → step s = .refused (.hostAccess n))

/-- 10_state.md R30: the bits of STATUS as the host reads them. -/
def Obligations.StatusByteLayout : Prop :=
  ∀ st : Status, st.byte.getLsbD 0 = st.busy ∧ st.byte.getLsbD 1 = st.lastAck ∧ st.byte.getLsbD 2 = st.nackSeen ∧
    st.byte.getLsbD 3 = st.err ∧ st.byte.extractLsb' 4 4 = 0

/-- 10_state.md R26, R27, R24 and 40_bus_protocol.md R103: when the engine has the next step, of a request or of the reset
sequence, it performs the next item and counts it. A register update writes its register and nothing else; an event joins
the trace (its pins are WireEventsOnPins); a sample gives LAST_ACK and NACK_SEEN the level of DIO. The latched operands stay;
the rest of the list follows unchanged, after the items a sample of 0 adds; past the last item the sequencer is Idle and BUSY
is 0. A byte before the receiver comes first and leaves the engine alone (the model's choice, log 16). -/
def Obligations.EngineAdvancesByOneItem : Prop :=
  (∀ (s : State) (it : Item) (rest : List Item) (more : List Input), EngineTurn s more → s.seq.pending = it :: rest →
    ∃ t extra, step s = .next t ∧ t.inputs = more ∧ (it ≠ .sampleAck → extra = []) ∧
      (extra ++ rest ≠ [] → t.status.busy = true ∧
        (∀ req k, s.seq = .run req k (it :: rest) → t.seq = .run req (k + 1) (extra ++ rest)) ∧
        (∀ k, s.seq = .reset k (it :: rest) → t.seq = .reset (k + 1) (extra ++ rest))) ∧
      (extra ++ rest = [] → t.seq = .idle ∧ t.status.busy = false) ∧
      match it with
      | .setCmd v => t = { s with
          inputs := more, seq := t.seq, cmd := v, status := { s.status with busy := t.status.busy } }
      | .clearNack => t = { s with
          inputs := more, seq := t.seq, status := { s.status with busy := t.status.busy, nackSeen := false } }
      | .clearErr => t = { s with
          inputs := more, seq := t.seq, status := { s.status with busy := t.status.busy, err := false } }
      | .emit a => t.trace = .act a :: s.trace ∧ t.status = { s.status with busy := t.status.busy } ∧ t.cmd = s.cmd ∧
          t.dioIn = s.dioIn ∧ t.params = s.params ∧ t.reads = s.reads
      | .sampleAck => ∃ a, extra = (if a then [] else [.emit (.modeOut .dio), .emit (.drive .dio false)]) ∧
          (s.dioOe = true → a = s.dioOut ∧ t.dioIn = s.dioIn) ∧
          (∀ l later, s.dioOe = false → s.dioIn = l :: later → a = l ∧ t.dioIn = later) ∧
          t.trace = .sample a :: s.trace ∧ t.cmd = s.cmd ∧ t.pins = s.pins ∧ t.params = s.params ∧ t.reads = s.reads ∧
          t.status = { busy := t.status.busy, lastAck := a, nackSeen := s.status.nackSeen || a, err := s.status.err }) ∧
  ∀ (s : State) (b : Byte) (rest : List Byte), s.rx.inbox = b :: rest →
    step s = .next { s with rx := { s.rx with inbox := rest }.take b }

/-- 40_bus_protocol.md R103 with 10_state.md R22: the acknowledgment sample of a bit the outside supplies. LAST_ACK is the
bit, NACK_SEEN is set by a 1 and stays, an acknowledged byte adds the two events that drive DIO low again, and CMD, ERR, the
pins, the configuration and the frames heard do not change. -/
def Obligations.AckSampleUpdatesStatus : Prop :=
  ∀ (s : State) (req : Latched) (k : Nat) (it : Item) (rest : List Item) (a : Bool) (more : List Bool),
    s.rx.inbox = [] → s.inputs = [] → s.seq = .run req k (.sampleAck :: it :: rest) → s.dioOe = false → s.dioIn = a :: more →
    ∃ t, step s = .next t ∧ t.status = { busy := true, lastAck := a, nackSeen := s.status.nackSeen || a, err := s.status.err } ∧
      t.seq = .run req (k + 1) ((if a then [] else [.emit (.modeOut .dio), .emit (.drive .dio false)]) ++ it :: rest) ∧
      t.trace = .sample a :: s.trace ∧ t.dioIn = more ∧ t.pins = s.pins ∧ t.cmd = s.cmd ∧ t.params = s.params ∧
      t.frames = s.frames ∧ t.rx.ram = s.rx.ram ∧ t.rx.mode = s.rx.mode ∧ t.rx.dctrl = s.rx.dctrl

/-- 10_state.md R20 and R23: what each wire event of a request or of the reset sequence does to the pins. A direction change
leaves the latch alone with `LATCH_KEPT`; without it `ModeIn(DIO)` leaves the latch, and it alone, open. -/
def Obligations.WireEventsOnPins : Prop :=
  ∀ (s : State) (a : Action) (rest : List Item) (more : List Input), EngineTurn s more →
    s.seq.pending = .emit a :: rest →
    ∃ t, step s = .next t ∧ t.trace = .act a :: s.trace ∧ t.cmd = s.cmd ∧
      t.status = { s.status with busy := !rest.isEmpty } ∧
      t.pins = match a with
        | .modeOut .clk => { s.pins with clkOe := true }
        | .modeOut .dio => { s.pins with dioOe := true }
        | .modeIn => { s.pins with dioOe := false, dioOut := if s.params.latchKept then s.dioOut else t.dioOut }
        | .drive .clk v => { s.pins with clkOut := v }
        | .drive .dio v => { s.pins with dioOut := v }
        | .wait => s.pins

/-! ## Acceptance and completion of the requests -/

/-- 42_display_ops.md R160 with 10_state.md R27: an idle engine accepts every request the spec gives a meaning: BUSY is set,
OP, F, A and V are latched, a body is begun at item 0, and nothing else changes: no other STATUS bit, not CMD, no pin, no
byte of the receiver's RAM. -/
def Obligations.AcceptanceChangesOnlySequencerAndBusy : Prop :=
  ∀ (s : State) (i : Instr), i.isRequest = true → refusedRequest s.params i = false → s.seq = .idle →
    ∃ body, body ≠ [] ∧ exec i s = .next { s with
      seq := .run { op := (encode i).extractLsb' 0 4, f := (encode i).getLsbD 4, a := (encode i).extractLsb' 8 8,
                    v := (encode i).extractLsb' 16 16 } 0 body
      status := { s.status with busy := true } }

/-- 42_display_ops.md R162: the encoding, the frames and CMD, for every level, clamped to 7. -/
def Obligations.InitCompletes : Prop :=
  (∀ b : Byte, HasFields (encode (.init b)) 1 false b 0) ∧
  ∀ (s : State) (b : Byte), Ready s → HostWaits s →
    CompletesWith (.init b) s
      [[0x88 + BitVec.ofNat 8 (min b.toNat 7)], [0x44], [0xC0, 0x00], [0x44], [0xC1, 0x00], [0x44], [0xC2, 0x00],
        [0x44], [0xC3, 0x00]]
      (0x88 + BitVec.ofNat 8 (min b.toNat 7))

/-- 42_display_ops.md R164, with 41_symbol_encoder.md R130 to R133. -/
def Obligations.RsymCompletes : Prop :=
  (∀ (d c : Byte) (raw : Bool), HasFields (encode (.rsym d c raw)) 2 raw d (c.setWidth 16)) ∧
  ∀ (s : State) (d c : Byte) (raw : Bool), Ready s → HostWaits s →
    CompletesWith (.rsym d c raw) s
      [[0x44], [0xC0 + BitVec.ofNat 8 (min d.toNat 2),
        if raw then c &&& 0x7F else if c.toNat < 40 then symtab s.params c.toNat else symtab s.params 31]]
      s.cmd

/-- 42_display_ops.md R166, with 41_symbol_encoder.md R140. -/
def Obligations.RhexCompletes : Prop :=
  (∀ v : Byte, HasFields (encode (.rhex v)) 3 false v 0) ∧
  ∀ (s : State) (v : Byte), Ready s → HostWaits s →
    CompletesWith (.rhex v) s
      [[0x40], [0xC0, symtab s.params 18, symtab s.params (v.toNat / 16), symtab s.params (v.toNat % 16)]]
      s.cmd

/-- 42_display_ops.md R168, with 41_symbol_encoder.md R138 and R139: in decimal mode for every value; in hexadecimal mode for
every value where `HEX_CLAMP` is true and for values up to 0xFFF where it is false; and the model refuses RINT, in any
state, exactly in hexadecimal mode above 0xFFF with `HEX_CLAMP` false. -/
def Obligations.RintCompletes : Prop :=
  (∀ (v : BitVec 16) (dec : Bool), HasFields (encode (.rint v dec)) 4 dec 0 v) ∧
  (∀ (s : State) (v : BitVec 16), Ready s → HostWaits s →
    CompletesWith (.rint v true) s
      [[0x40], [0xC0, symtab s.params (min v.toNat 999 / 100), symtab s.params (min v.toNat 999 / 10 % 10),
        symtab s.params (min v.toNat 999 % 10)]]
      s.cmd) ∧
  (∀ (s : State) (v : BitVec 16), Ready s → HostWaits s → (s.params.hexClamp = true ∨ v.toNat ≤ 0xFFF) →
    CompletesWith (.rint v false) s
      [[0x40], [0xC0, symtab s.params (min v.toNat 0xFFF / 256), symtab s.params (min v.toNat 0xFFF / 16 % 16),
        symtab s.params (min v.toNat 0xFFF % 16)]]
      s.cmd) ∧
  ∀ (s : State) (v : BitVec 16) (dec : Bool),
    exec (.rint v dec) s = .refused .hexNotClamped ↔ dec = false ∧ s.params.hexClamp = false ∧ 0xFFF < v.toNat

/-- 42_display_ops.md R170, with 41_symbol_encoder.md R137. -/
def Obligations.SetdpCompletes : Prop :=
  (∀ on : Bool, HasFields (encode (.setdp on)) 5 on 0 0) ∧
  ∀ (s : State) (on : Bool), Ready s → HostWaits s →
    CompletesWith (.setdp on) s [[0x44], [0xC3, if on then 0x08 else 0x00]] s.cmd

/-- 42_display_ops.md R172: the encoding, the eight frames, and CMD as it was. -/
def Obligations.ClearCompletes : Prop :=
  HasFields (encode .clear) 6 false 0 0 ∧
  ∀ s : State, Ready s → HostWaits s →
    CompletesWith .clear s
      [[0x44], [0xC0, 0x00], [0x44], [0xC1, 0x00], [0x44], [0xC2, 0x00], [0x44], [0xC3, 0x00]]
      s.cmd

/-- 42_display_ops.md R176: the encoding, CMD and its frame, for every level, clamped to 7. -/
def Obligations.SetbrCompletes : Prop :=
  (∀ l : Byte, HasFields (encode (.setbr l)) 7 false l 0) ∧
  ∀ (s : State) (l : Byte), Ready s → HostWaits s →
    CompletesWith (.setbr l) s [[0x88 + BitVec.ofNat 8 (min l.toNat 7)]] (0x88 + BitVec.ofNat 8 (min l.toNat 7))

/-- 42_display_ops.md R178: the encoding, CMD and its frame, whatever CMD was. -/
def Obligations.PwroffCompletes : Prop :=
  HasFields (encode .pwroff) 8 false 0 0 ∧
  ∀ s : State, Ready s → HostWaits s → CompletesWith .pwroff s [[0x80]] 0x80

/-- 42_display_ops.md R180: NACK_SEEN and ERR are cleared and nothing else is changed: LAST_ACK is kept, no event is
emitted. -/
def Obligations.ClrstsCompletes : Prop :=
  HasFields (encode .clrsts) 9 false 0 0 ∧
  ∀ s : State, Ready s → HostWaits s →
    ∃ t, exec .clrsts s = .next t ∧
      StepsTo t { s with status := { busy := false, lastAck := s.status.lastAck, nackSeen := false, err := false } }

/-- 70_reset_and_hazards.md R238: after SETBR's or PWROFF's first item the host reads the new CMD while no event of the
frame has been emitted and BUSY is 1. -/
def Obligations.CmdVisibleBeforeFrame : Prop :=
  (∀ (s : State) (l : Byte), Ready s → HostWaits s →
    ∃ t u, exec (.setbr l) s = .next t ∧ step t = .next u ∧
      u.cmd = 0x88 + BitVec.ofNat 8 (min l.toNat 7) ∧ u.trace = s.trace ∧ u.frames = s.frames ∧ u.status.busy = true) ∧
  ∀ s : State, Ready s → HostWaits s →
    ∃ t u, exec .pwroff s = .next t ∧ step t = .next u ∧
      u.cmd = 0x80 ∧ u.trace = s.trace ∧ u.frames = s.frames ∧ u.status.busy = true

/-- 41_symbol_encoder.md R133 and R130: a digit above 2 behaves as digit 2, and, with raw = 0, a code of 40 or more as the
space code: both requests run to one and the same state. -/
def Obligations.ClampedDigitAndFallbackCode : Prop :=
  ∀ (s : State) (d c : Byte) (raw : Bool) (acks rest : List Bool), Ready s → HostWaits s → acks.length = 3 →
    s.dioIn = acks ++ rest →
    (2 < d.toNat → ∃ u, RunsTo (.rsym d c raw) s (· = u) ∧ RunsTo (.rsym 2 c raw) s (· = u)) ∧
    (40 ≤ c.toNat → ∃ u, RunsTo (.rsym d c false) s (· = u) ∧ RunsTo (.rsym d 31 false) s (· = u))

/-- 40_bus_protocol.md R111: from two states with the same configuration and CMD, whatever bits are sampled, a request puts
the same frames on the wire and leaves the same CMD and ERR; its events are those of its frames, in which a sampled bit
matters within its byte's acknowledgment phase only (`ackTrace`). -/
def Obligations.AcknowledgmentsDoNotSteer : Prop :=
  ∀ (s r : State) (i : Instr), i.isRequest = true → refusedRequest s.params i = false → Ready s → Ready r →
    HostWaits s → HostWaits r → s.params = r.params → s.cmd = r.cmd → s.status.err = r.status.err →
    13 ≤ s.dioIn.length → 13 ≤ r.dioIn.length →
    ∃ (fs : List (List Byte)) (c : Byte) (err : Bool), byteCount fs ≤ 13 ∧
      RunsTo i s (fun u => u.frames = fs.reverse ++ s.frames ∧ u.cmd = c ∧ u.status.err = err ∧
        u.trace = (framesTrace fs (s.dioIn.take (byteCount fs))).reverse ++ s.trace) ∧
      RunsTo i r (fun u => u.frames = fs.reverse ++ r.frames ∧ u.cmd = c ∧ u.status.err = err ∧
        u.trace = (framesTrace fs (r.dioIn.take (byteCount fs))).reverse ++ r.trace)

/-! ## The symbol encoder -/

/-- 10_state.md R32: bit 7 of every entry is 0, entry 33 + k is the mask of segment k, and the default table's 40 values
(rows 0-32 "are the default of an open parameter, not a source fact"). -/
def Obligations.SymbolTableValues : Prop :=
  (∀ (p : Params) (i : Nat), i < 40 → symtab p i &&& 0x80 = 0) ∧
  (∀ (p : Params) (k : Nat), k < 7 → symtab p (33 + k) = BitVec.ofNat 8 (2 ^ k)) ∧
  (List.range 40).map (symtab defaultParams) =
    [0x3F, 0x06, 0x5B, 0x4F, 0x66, 0x6D, 0x7D, 0x07, 0x7F, 0x6F, 0x77, 0x7C, 0x39, 0x5E, 0x79, 0x71, 0x58, 0x6F, 0x74, 0x76,
     0x38, 0x54, 0x37, 0x73, 0x1C, 0x3E, 0x6E, 0x01, 0x40, 0x08, 0x63, 0x00, 0x5C, 0x01, 0x02, 0x04, 0x08, 0x10, 0x20, 0x40]

/-- 41_symbol_encoder.md R130 to R132: the pattern of a symbol code, the raw pattern, and the choice between them, each
with bit 7 = 0. -/
def Obligations.PatternsResolved : Prop :=
  ∀ (p : Params) (c : Byte),
    (c.toNat < 40 → lookup p c = symtab p c.toNat) ∧ (40 ≤ c.toNat → lookup p c = symtab p 31) ∧
    rawPattern c = c &&& 0x7F ∧ resolve p c true = rawPattern c ∧ resolve p c false = lookup p c ∧
    (lookup p c).getLsbD 7 = false ∧ (rawPattern c).getLsbD 7 = false

/-- 41_symbol_encoder.md R138: the three patterns of the decimal form are those of the hundreds, tens and units of the value
clamped to 999. -/
def Obligations.DecimalDigitsSpellTheValue : Prop :=
  ∀ (p : Params) (v : BitVec 16), ∃ h t u, h < 10 ∧ t < 10 ∧ u < 10 ∧ 100 * h + 10 * t + u = min v.toNat 999 ∧
    decDigits p v = [symtab p h, symtab p t, symtab p u]

/-- 41_symbol_encoder.md R139's definition of `hexDigits`, which the model applies to every value (the request is refused where
R139 gives no meaning: RintCompletes), R140, and R141, the spec's own derivation that nibble n shows as `SYMTAB[n]`: the
nibbles of the hexadecimal forms spell the value, most significant first, after the "h" glyph for a byte. -/
def Obligations.HexDigitsSpellTheValue : Prop :=
  (∀ (p : Params) (v : BitVec 16), ∃ a b c, a < 16 ∧ b < 16 ∧ c < 16 ∧ 256 * a + 16 * b + c = min v.toNat 0xFFF ∧
    hexDigits p v = [symtab p a, symtab p b, symtab p c]) ∧
  ∀ (p : Params) (v : Byte), ∃ a b, a < 16 ∧ b < 16 ∧ 16 * a + b = v.toNat ∧
    hexByte p v = [symtab p 18, symtab p a, symtab p b]

/-- 41_symbol_encoder.md R133 to R137: the clamps, the address and display-control bytes built on them with their ranges,
the decimal-point byte, and no carry out of the level, the spec's own derivation from R134 ("The addition never carries out
of bits 2:0 because clampLevel(l) <= 7"). -/
def Obligations.ClampsAndCommandBytes : Prop :=
  (∀ d : Byte, (clampDigit d).toNat = min d.toNat 2 ∧ (2 < d.toNat → clampDigit d = clampDigit 2)) ∧
  (∀ l : Byte, (clampLevel l).toNat = min l.toNat 7) ∧
  (∀ d : Byte, digitAddr d = 0xC0 + clampDigit d ∧ (digitAddr d = 0xC0 ∨ digitAddr d = 0xC1 ∨ digitAddr d = 0xC2)) ∧
  addrDp = 0xC3 ∧
  (∀ l : Byte, dispOn l = 0x88 + clampLevel l ∧ (dispOn l).extractLsb' 3 5 = 0x11 ∧
    ((dispOn l).extractLsb' 0 3).toNat = min l.toNat 7) ∧
  dispOffByte = 0x80 ∧ dpByte true = 0x08 ∧ dpByte false = 0x00

/-! ## The wire -/

/-- 40_bus_protocol.md R102 with 20_memory.md R54: at the eight rising edges of a byte's data phase the line holds its bits,
least significant first, and DIO changes only while CLK is low, from whatever levels the phase begins. -/
def Obligations.DataPhaseIsLsbFirst : Prop :=
  ∀ (b : Byte) (clk dio : Bool),
    bitsAtRises clk dio (dataTrace b) = [b.getLsbD 0, b.getLsbD 1, b.getLsbD 2, b.getLsbD 3, b.getLsbD 4, b.getLsbD 5,
      b.getLsbD 6, b.getLsbD 7] ∧
    dataEdgesHigh clk dio (dataTrace b) = 0

/-- 40_bus_protocol.md R109: the events, Waits and rising edges of CLK of a start from the idle bus, of a stop, of a byte, and
of a frame of n bytes, z of them acknowledged (the spec's own derivation from R100 to R103). -/
def Obligations.FrameEventCounts : Prop :=
  (startTrace.length = 4 ∧ startTrace.count (.act .wait) = 0 ∧ clockRises true startTrace = 0) ∧
  (∀ clk, stopTrace.length = 4 ∧ stopTrace.count (.act .wait) = 0 ∧ clockRises clk stopTrace = 1) ∧
  (∀ (b : Byte) (ack clk : Bool), (dataTrace b).length = 24 ∧ (ackTrace ack).length = (if ack then 9 else 11) ∧
    (byteTrace b ack).count (.act .wait) = 3 ∧ clockRises clk (dataTrace b) = 8 ∧ clockRises clk (ackTrace ack) = 1) ∧
  ∀ (bytes : List Byte) (acks : List Bool), acks.length = bytes.length →
    (frameTrace bytes acks).length = 8 + 33 * bytes.length + 2 * acks.count false ∧
    (frameTrace bytes acks).count (.act .wait) = 3 * bytes.length ∧
    clockRises true (frameTrace bytes acks) = 9 * bytes.length + 1

/-- 40_bus_protocol.md R105 (the spec's own derivation from R100 to R103) with `LATCH_KEPT`: where the engine changes
`DIO_OUT` while CLK is high. A start from the idle bus does once and a stop once; a data phase never; an acknowledgment phase
once if the byte is acknowledged, at the `Drive(DIO, 0)` of R103's branch, its eighth event, and else never. So a frame does
twice and once more for each acknowledged byte. -/
def Obligations.DataEdgesWhileClockHigh : Prop :=
  dataEdgesHigh true true startTrace = 1 ∧
  (∀ clk dio, dataEdgesHigh clk dio stopTrace = 1) ∧
  (∀ clk dio b, dataEdgesHigh clk dio (dataTrace b) = 0) ∧
  (∀ clk dio, dataEdgesHigh clk dio (ackTrace true) = 0) ∧
  (∀ clk dio, dataEdgesHigh clk dio ((ackTrace false).take 7) = 0 ∧ (ackTrace false)[7]? = some (drives .dio false) ∧
    dataEdgesHigh clk dio (ackTrace false) = 1) ∧
  ∀ (bytes : List Byte) (acks : List Bool), acks.length = bytes.length →
    dataEdgesHigh true true (frameTrace bytes acks) = 2 + acks.count false

/-- 42_display_ops.md R182 (the spec's own derivation from R162 to R180): for each request its frames, bytes, segment and
decimal-point data bytes, Waits, and events when no byte is acknowledged. -/
def Obligations.TransactionCounts : Prop :=
  ∀ (p : Params) (i : Instr), i.isRequest = true →
    ((requestFrames p i).length, byteCount (requestFrames p i), dataByteCount (requestFrames p i),
      (framesTrace (requestFrames p i) (List.replicate 13 true)).count (.act .wait),
      (framesTrace (requestFrames p i) (List.replicate 13 true)).length) =
    match i with
    | .init _ => (9, 13, 4, 39, 501)
    | .rsym _ _ _ => (2, 3, 1, 9, 115)
    | .rhex _ => (2, 5, 3, 15, 181)
    | .rint _ _ => (2, 5, 3, 15, 181)
    | .setdp _ => (2, 3, 1, 9, 115)
    | .clear => (8, 12, 4, 36, 460)
    | .setbr _ => (1, 1, 0, 3, 41)
    | .pwroff => (1, 1, 0, 3, 41)
    | _ => (0, 0, 0, 0, 0)

/-! ## The receiver -/

/-- 30_encoding.md R78: what the reference receiver does with a byte, by its position. The pointer of a data byte of a frame
opened by 0xC0 + aa starts at aa. -/
def Obligations.ReceiverReadsByte : Prop :=
  ∀ (r : Receiver) (b : Byte),
    (r.pos = .first → b = 0x40 → r.take b = { r with mode := .auto, pos := .ignored }) ∧
    (r.pos = .first → b = 0x44 → r.take b = { r with mode := .fixed, pos := .ignored }) ∧
    (r.pos = .first → 0x80 ≤ b.toNat ∧ b.toNat ≤ 0x8F → r.take b = { r with dctrl := b, pos := .ignored }) ∧
    (∀ aa : BitVec 2, r.pos = .first → b.toNat = 0xC0 + aa.toNat →
      r.take b = { r with ptr := aa.toNat, pos := .data aa }) ∧
    (r.pos = .first → b ≠ 0x40 → b ≠ 0x44 → ¬(0x80 ≤ b.toNat ∧ b.toNat ≤ 0x8F) → ¬(0xC0 ≤ b.toNat ∧ b.toNat ≤ 0xC3) →
      r.take b = { r with pos := .ignored }) ∧
    (∀ aa, r.pos = .data aa → r.take b = { r with
      ram := if r.ptr ≤ 3 then Memory.write r.ram (0xC0 + r.ptr) b else r.ram
      ptr := if r.mode = .auto then r.ptr + 1 else r.ptr }) ∧
    (r.pos = .ignored → r.take b = r)

/-- Every wire instruction completes in every state: the receiver reads the instruction's own byte (log 8). -/
def Obligations.WireInstructionsComplete : Prop :=
  ∀ (s : State) (i : Instr), i.isRequest = false → exec i s = .next { s with rx := s.rx.take (encodeByte i) }

/-- 30_encoding.md R78 for the five first-byte classes: what each does as the first byte of a frame. -/
def Obligations.FirstBytesSetModeControlOrPointer : Prop :=
  ∀ s : State, s.rx.pos = .first →
    exec .dataAuto s = .next { s with rx := { s.rx with mode := .auto, pos := .ignored } } ∧
    exec .dataFixed s = .next { s with rx := { s.rx with mode := .fixed, pos := .ignored } } ∧
    exec .dispOff s = .next { s with rx := { s.rx with dctrl := 0x80, pos := .ignored } } ∧
    (∀ l : BitVec 3, exec (.dispOn l) s = .next { s with rx := { s.rx with
      dctrl := 0x88 + l.setWidth 8, pos := .ignored } }) ∧
    (∀ aa : BitVec 2, exec (.addr aa) s = .next { s with rx := { s.rx with ptr := aa.toNat, pos := .data aa } })

/-- 30_encoding.md R78 for the data classes: the byte goes to `RAM[p]`, at the address the receiver's own function gives, if
p is at most 3; in auto-increment mode p moves on. -/
def Obligations.DataBytesAreStored : Prop :=
  ∀ (s : State) (aa : BitVec 2), s.rx.pos = .data aa → Memory.wf s.rx.ram →
    (∀ pattern : BitVec 7, ∃ t, exec (.segData pattern) s = .next t ∧
      (∀ a, Memory.read t.rx.ram a =
        if s.rx.storeAddr = some a then pattern.setWidth 8 else Memory.read s.rx.ram a) ∧
      t.rx.ptr = (if s.rx.mode = .auto then s.rx.ptr + 1 else s.rx.ptr)) ∧
    (∀ on : Bool, ∃ t, exec (.dpData on) s = .next t ∧
      (∀ a, Memory.read t.rx.ram a =
        if s.rx.storeAddr = some a then (if on then 0x08 else 0x00) else Memory.read s.rx.ram a) ∧
      t.rx.ptr = (if s.rx.mode = .auto then s.rx.ptr + 1 else s.rx.ptr)) ∧
    (s.rx.ptr ≤ 3 → s.rx.storeAddr = some (0xC0 + s.rx.ptr)) ∧
    (3 < s.rx.ptr → s.rx.storeAddr = none)

/-- The frame of the wire instructions: outside the receiver nothing changes; in it, the line's side and the bytes still to
be read do not; and every byte of RAM outside the address stored to reads as before (all of RAM where nothing is stored). -/
def Obligations.WireInstructionsFrame : Prop :=
  ∀ (s t : State) (i : Instr), i.isRequest = false → exec i s = .next t →
    t = { s with rx := t.rx } ∧ t.rx.inFrame = s.rx.inFrame ∧ t.rx.ackBit = s.rx.ackBit ∧ t.rx.bits = s.rx.bits ∧
    t.rx.bytes = s.rx.bytes ∧ t.rx.spoiled = s.rx.spoiled ∧ t.rx.inbox = s.rx.inbox ∧
    (Memory.wf s.rx.ram → ∀ a, s.rx.storeAddr ≠ some a → Memory.read t.rx.ram a = Memory.read s.rx.ram a)

/-- 42_display_ops.md R184 (the spec's own derivation from R162 to R180 and R78): each request's effect on the reference
receiver when every byte is acknowledged. That the receiver hears the frame so is the model's choice (log 7, log 8). -/
def Obligations.ReceiverEffectsOfRequests : Prop :=
  ∀ s : State, Ready s → HostWaits s → AllAcked s → Memory.wf s.rx.ram →
    (∀ b, RunsTo (.init b) s fun u => u.rx.mode = .fixed ∧ u.rx.dctrl = 0x88 + BitVec.ofNat 8 (min b.toNat 7) ∧
      u.rx.dctrl = u.cmd ∧ ∀ a, Memory.read u.rx.ram a = if 0xC0 ≤ a ∧ a ≤ 0xC3 then 0 else Memory.read s.rx.ram a) ∧
    (∀ d c raw, RunsTo (.rsym d c raw) s fun u => u.rx.mode = .fixed ∧ u.rx.dctrl = s.rx.dctrl ∧
      ∀ a, Memory.read u.rx.ram a =
        if a = 0xC0 + min d.toNat 2 then resolve s.params c raw else Memory.read s.rx.ram a) ∧
    (∀ v, RunsTo (.rhex v) s fun u => u.rx.mode = .auto ∧ u.rx.dctrl = s.rx.dctrl ∧
      ∀ a, Memory.read u.rx.ram a = if 0xC0 ≤ a ∧ a ≤ 0xC2 then (hexByte s.params v).getD (a - 0xC0) 0
        else Memory.read s.rx.ram a) ∧
    (∀ v dec, hexRefused s.params v dec = false → RunsTo (.rint v dec) s fun u => u.rx.mode = .auto ∧
      u.rx.dctrl = s.rx.dctrl ∧ ∀ a, Memory.read u.rx.ram a = if 0xC0 ≤ a ∧ a ≤ 0xC2 then
        (if dec then decDigits s.params v else hexDigits s.params v).getD (a - 0xC0) 0 else Memory.read s.rx.ram a) ∧
    (∀ on, RunsTo (.setdp on) s fun u => u.rx.mode = .fixed ∧ u.rx.dctrl = s.rx.dctrl ∧
      ∀ a, Memory.read u.rx.ram a = if a = 0xC3 then dpByte on else Memory.read s.rx.ram a) ∧
    (RunsTo .clear s fun u => u.rx.mode = .fixed ∧ u.rx.dctrl = s.rx.dctrl ∧
      ∀ a, Memory.read u.rx.ram a = if 0xC0 ≤ a ∧ a ≤ 0xC3 then 0 else Memory.read s.rx.ram a) ∧
    (∀ l, RunsTo (.setbr l) s fun u => u.rx.mode = s.rx.mode ∧ u.rx.dctrl = 0x88 + BitVec.ofNat 8 (min l.toNat 7) ∧
      u.rx.dctrl = u.cmd ∧ u.rx.ram = s.rx.ram) ∧
    (RunsTo .pwroff s fun u => u.rx.mode = s.rx.mode ∧ u.rx.dctrl = 0x80 ∧ u.rx.dctrl = u.cmd ∧ u.rx.ram = s.rx.ram) ∧
    (RunsTo .clrsts s fun u => u.rx = s.rx) ∧
    ∀ w rest, s.inputs = .write 0 w :: rest → decodeRequest w = none → ∃ u, step s = .next u ∧ u.rx = s.rx

/-- 20_memory.md R58: at the reference receiver a request's frames read twice leave what they leave read once. -/
def Obligations.RequestsIdempotentAtReceiver : Prop :=
  ∀ (p : Params) (i : Instr) (r : Receiver), Memory.wf r.ram →
    ((r.readFrames (requestFrames p i)).readFrames (requestFrames p i)).agrees (r.readFrames (requestFrames p i))

/-- 30_encoding.md R78 and 60_exceptions.md R211: what the display shows: cell `CELL_MAP(d)` shows `RAM[d]`, the point is lit
iff `RAM[3]` = 0x08, all is dark iff `DCTRL[3]` = 0, else lit at `DCTRL[2:0]`. Every byte acknowledged, PWROFF darkens the
display and keeps its cells and point; SETBR lights it at the clamped level and keeps them too. That the receiver hears the
frame so is the model's choice (log 7, log 8). -/
def Obligations.DisplayPowerKeepsDigits : Prop :=
  (∀ s : State,
    (∀ d : Fin 3, (appearance s).cells[d.val]? =
      some (s.params.cellMap[d.val], Memory.read s.rx.ram (0xC0 + d.val))) ∧
    (appearance s).cells.length = 3 ∧
    ((appearance s).point = true ↔ Memory.read s.rx.ram 0xC3 = 0x08) ∧
    ((appearance s).lit = false ↔ s.rx.dctrl.getLsbD 3 = false) ∧
    (appearance s).level = s.rx.dctrl.extractLsb' 0 3) ∧
  ∀ (s : State) (l : Byte), Ready s → HostWaits s → AllAcked s →
    (RunsTo .pwroff s fun u => appearance u = { appearance s with lit := false, level := 0 }) ∧
    (RunsTo (.setbr l) s fun u => appearance u =
      { appearance s with lit := true, level := BitVec.ofNat 3 (min l.toNat 7) })

/-! ## Reset -/

/-- 70_reset_and_hazards.md R231 with R230: reset applied in any state abandons what was running, sets STATUS to 0x01, begins
the reset sequence at its first item, and leaves the pins, the trace and the configuration as they are. -/
def Obligations.ResetAbandonsRequest : Prop :=
  ∀ (s : State) (rest : List Input), s.rx.inbox = [] → s.inputs = .reset :: rest →
    ∃ t more, step s = .next t ∧ t.seq = .reset 0 (.emit (.modeOut .clk) :: .emit (.modeOut .dio) :: more) ∧
      t.status.byte = 0x01 ∧ t.pins = s.pins ∧ t.trace = s.trace ∧ t.frames = s.frames ∧ t.params = s.params ∧
      t.inputs = rest ∧ t.dioIn = s.dioIn

/-- 70_reset_and_hazards.md R230: in any state in which a reset is all that comes (no byte before the receiver, no input behind
it) and the outside supplies the 13 bits to be sampled (log 3), the reset sequence starts with STATUS = 0x01, emits ModeOut(CLK),
ModeOut(DIO) and INIT(2)'s nine frames, whatever is sampled, and ends with CMD = 0x8A, ERR = 0, LAST_ACK and NACK_SEEN as its
13 bits leave them and the bus idle. -/
def Obligations.ResetSequenceCompletes : Prop :=
  ∀ (s : State) (acks rest : List Bool), s.rx.inbox = [] → s.inputs = [.reset] → acks.length = 13 → s.dioIn = acks ++ rest →
    ∃ r u, step s = .next r ∧ r.status.byte = 0x01 ∧ r.seq = .reset 0 resetItems ∧ StepsTo r u ∧ Ready u ∧ u.cmd = 0x8A ∧
      u.status = { busy := false, lastAck := acks.getLastD false, nackSeen := acks.any id, err := false } ∧
      u.frames = [[0x8A], [0x44], [0xC0, 0x00], [0x44], [0xC1, 0x00], [0x44], [0xC2, 0x00], [0x44], [0xC3, 0x00]].reverse ++
        s.frames ∧
      u.trace = (.act (.modeOut .clk) :: .act (.modeOut .dio) :: framesTrace
        [[0x8A], [0x44], [0xC0, 0x00], [0x44], [0xC1, 0x00], [0x44], [0xC2, 0x00], [0x44], [0xC3, 0x00]] acks).reverse ++
        s.trace ∧
      u.params = s.params ∧ u.reads = s.reads ∧ u.dioIn = rest

/-- 95_test_vectors.md 2.6, for the model's receiver, which hears each start afresh (log 7): from any state, a reset
sequence whose every byte is acknowledged leaves the receiver in fixed-address mode with DCTRL = 0x8A = CMD and zeros in all
of RAM. -/
def Obligations.AcknowledgedResetClearsReceiver : Prop :=
  ∀ (s : State) (rest : List Bool), s.rx.inbox = [] → s.inputs = [.reset] → s.dioIn = List.replicate 13 false ++ rest →
    ∃ u, StepsTo s u ∧ Ready u ∧ u.rx.mode = .fixed ∧ u.rx.dctrl = 0x8A ∧ u.cmd = 0x8A ∧
      ∀ a, Memory.read u.rx.ram a = 0

/-- 10_state.md R36, as far as it gives values: the state right after reset. -/
def Obligations.ResetStateValues : Prop :=
  State.reset.seq = .idle ∧ State.reset.clkOut = true ∧ State.reset.dioOe = true ∧ State.reset.dioOut = true ∧
  State.reset.cmd = 0x8A ∧ State.reset.status.busy = false ∧ State.reset.status.err = false

/-- The invariants hold right after reset. -/
def Obligations.ResetMeetsInvariants : Prop :=
  Ready State.reset ∧ BusyInv State.reset ∧ CmdInv State.reset ∧ BusInv State.reset ∧ RamInv State.reset ∧
    OwnerInv State.reset

/-! ## Invariants: from every state that meets one, a step gives a state that meets it -/

/-- 10_state.md R26: BUSY is 1 exactly while the sequencer is not Idle. -/
def Obligations.BusyExactlyWhileNotIdle : Prop :=
  ∀ s t : State, BusyInv s → step s = .next t → BusyInv t

/-- 10_state.md R28 ("no rule writes any other value" is the spec's own derivation from R176 and R178): CMD holds a legal
value, but for the part of a reset before its SETBR item, in which R36 leaves it open (log 5). -/
def Obligations.CmdStaysLegal : Prop :=
  ∀ s t : State, CmdInv s → step s = .next t → CmdInv t

/-- 40_bus_protocol.md R110 with 10_state.md R22 and R23: what remains to be performed drives DIO only while it is an output,
samples it only while it is an input, and ends in the idle bus; so an idle engine's bus is idle (R110's levels are the
spec's own derivation from R101 and R106 to R108). -/
def Obligations.BusStaysDisciplined : Prop :=
  (∀ s t : State, BusInv s → step s = .next t → BusInv t) ∧
  (∀ s : State, BusInv s → s.seq = .idle → s.pins = Pins.idle) ∧
  (∀ (s : State) (v : Bool) (rest : List Item), BusInv s → s.seq.pending = .emit (.drive .dio v) :: rest →
    s.dioOe = true) ∧
  (∀ (s : State) (rest : List Item), BusInv s → s.seq.pending = .sampleAck :: rest → s.dioOe = false)

/-- The receiver's RAM keeps its canonical form and holds the four locations of 30_encoding.md R78 only. -/
def Obligations.ReceiverRamStaysCanonical : Prop :=
  ∀ s t : State, RamInv s → step s = .next t → RamInv t

/-- An update of CMD remains only in a request that R24 names, a clearing of NACK_SEEN or ERR only in CLRSTS. -/
def Obligations.ItemsStayWithTheirRequests : Prop :=
  ∀ s t : State, OwnerInv s → step s = .next t → OwnerInv t

/-- 10_state.md R24: CMD changes in a step only while INIT, SETBR or PWROFF runs, or in a reset. -/
def Obligations.CmdWrittenOnlyByPowerRequests : Prop :=
  ∀ s t : State, OwnerInv s → step s = .next t → t.cmd ≠ s.cmd →
    (∃ rest, s.inputs = .reset :: rest) ∨ (∃ k todo, s.seq = .reset k todo) ∨
    ∃ req k todo, s.seq = .run req k todo ∧ (req.op = 1 ∨ req.op = 7 ∨ req.op = 8)

/-- 60_exceptions.md R205 for ERR, 10_state.md R30 for NACK_SEEN ("cleared by": CLRSTS, reset start): the two go from 1 to 0
in a step only while CLRSTS runs or as reset begins. -/
def Obligations.StickyBitsClearedOnlyByClrstsOrReset : Prop :=
  ∀ s t : State, OwnerInv s → step s = .next t →
    (s.status.err = true ∧ t.status.err = false ∨ s.status.nackSeen = true ∧ t.status.nackSeen = false) →
    (∃ rest, s.inputs = .reset :: rest) ∨ ∃ req k todo, s.seq = .run req k todo ∧ req.op = 9

/-- 10_state.md R33: no step changes the symbol table or any other part of the configuration, and every entry of the table
has bit 7 = 0. -/
def Obligations.ConfigurationNeverChanges : Prop :=
  (∀ s t : State, step s = .next t → t.params = s.params) ∧
  ∀ (p : Params) (i : Nat), i < 40 → symtab p i &&& 0x80 = 0
end

