-- ==== Sys2Proof/Laws/Encoding.lean ====
section
/-! SUPPORT. The fields of a request word, and the rows of the request table said by fields (30_encoding.md R70, R71, R73). -/

namespace Sys2Proof

/-! ## Words and their fields -/

/-- A word of five fields, from the most significant down (30_encoding.md R70). -/
def wordOf (v : BitVec 16) (a : Byte) (rsv : BitVec 3) (f : Bool) (op : BitVec 4) : Word :=
  v ++ a ++ rsv ++ BitVec.ofBool f ++ op

theorem requestWord_eq_wordOf (op : BitVec 4) (f : Bool) (a : Byte) (v : BitVec 16) :
    requestWord op f a v = wordOf v a 0 f op := rfl

/-- A field above the lower part of a word is a field of its upper part. -/
theorem extractLsb'_append_high (n m i k : Nat) (x : BitVec n) (y : BitVec m) (h : m ≤ i) :
    (x ++ y).extractLsb' i k = x.extractLsb' (i - m) k := by
  rw [BitVec.extractLsb'_append_eq_ite, dif_neg (by omega)]

@[simp] theorem wordOf_op (v : BitVec 16) (a : Byte) (rsv : BitVec 3) (f : Bool) (op : BitVec 4) :
    (wordOf v a rsv f op).extractLsb' 0 4 = op := BitVec.extractLsb'_append_eq_right

@[simp] theorem wordOf_f (v : BitVec 16) (a : Byte) (rsv : BitVec 3) (f : Bool) (op : BitVec 4) :
    fieldF (wordOf v a rsv f op) = f := by
  refine BitVec.getLsbD_append.trans ((if_neg (by decide)).trans (BitVec.getLsbD_append.trans ?_))
  simp

@[simp] theorem wordOf_rsv (v : BitVec 16) (a : Byte) (rsv : BitVec 3) (f : Bool) (op : BitVec 4) :
    (wordOf v a rsv f op).extractLsb' 5 3 = rsv := by
  refine (extractLsb'_append_high 28 4 5 3 _ _ (by decide)).trans ?_
  refine (extractLsb'_append_high 27 1 1 3 _ _ (by decide)).trans ?_
  exact BitVec.extractLsb'_append_eq_right

@[simp] theorem wordOf_a (v : BitVec 16) (a : Byte) (rsv : BitVec 3) (f : Bool) (op : BitVec 4) :
    fieldA (wordOf v a rsv f op) = a := by
  refine (extractLsb'_append_high 28 4 8 8 _ _ (by decide)).trans ?_
  refine (extractLsb'_append_high 27 1 4 8 _ _ (by decide)).trans ?_
  refine (extractLsb'_append_high 24 3 3 8 _ _ (by decide)).trans ?_
  exact BitVec.extractLsb'_append_eq_right

@[simp] theorem wordOf_v (v : BitVec 16) (a : Byte) (rsv : BitVec 3) (f : Bool) (op : BitVec 4) :
    fieldV (wordOf v a rsv f op) = v := by
  refine (extractLsb'_append_high 28 4 16 16 _ _ (by decide)).trans ?_
  refine (extractLsb'_append_high 27 1 12 16 _ _ (by decide)).trans ?_
  refine (extractLsb'_append_high 24 3 11 16 _ _ (by decide)).trans ?_
  exact BitVec.extractLsb'_append_eq_left

/-- Every word is the word of its fields (30_encoding.md R70). -/
theorem wordOf_fields (w : Word) :
    wordOf (fieldV w) (fieldA w) (w.extractLsb' 5 3) (fieldF w) (w.extractLsb' 0 4) = w := by
  have hf : BitVec.ofBool (fieldF w) = w.extractLsb' 4 1 := by
    ext i hi
    obtain rfl : i = 0 := by omega
    simp [fieldF]
  rw [wordOf, hf, fieldV, fieldA, BitVec.extractLsb'_append_extractLsb'_eq_extractLsb' (by rfl),
    BitVec.extractLsb'_append_extractLsb'_eq_extractLsb' (by rfl),
    BitVec.extractLsb'_append_extractLsb'_eq_extractLsb' (by rfl),
    BitVec.extractLsb'_append_extractLsb'_eq_extractLsb' (by rfl)]
  simp

/-- Words are equal when their fields are. -/
theorem wordOf_inj (v v' : BitVec 16) (a a' : Byte) (r r' : BitVec 3) (f f' : Bool) (op op' : BitVec 4) :
    wordOf v a r f op = wordOf v' a' r' f' op' ↔ v = v' ∧ a = a' ∧ r = r' ∧ f = f' ∧ op = op' := by
  refine ⟨fun h => ⟨?_, ?_, ?_, ?_, ?_⟩, by rintro ⟨rfl, rfl, rfl, rfl, rfl⟩; rfl⟩
  · simpa using congrArg fieldV h
  · simpa using congrArg fieldA h
  · simpa using congrArg (BitVec.extractLsb' 5 3) h
  · simpa using congrArg fieldF h
  · simpa using congrArg (BitVec.extractLsb' 0 4) h

/-- The and of two words is the and of their fields. -/
theorem wordOf_and (v v' : BitVec 16) (a a' : Byte) (r r' : BitVec 3) (f f' : Bool) (op op' : BitVec 4) :
    wordOf v a r f op &&& wordOf v' a' r' f' op' =
      wordOf (v &&& v') (a &&& a') (r &&& r') (f && f') (op &&& op') := by
  refine BitVec.and_append.trans (congrArg (· ++ (op &&& op')) ?_)
  refine BitVec.and_append.trans (congrArg₂ (· ++ ·) ?_ (by cases f <;> cases f' <;> rfl))
  refine BitVec.and_append.trans (congrArg (· ++ (r &&& r')) ?_)
  exact BitVec.and_append

/-! ## The rows of the table by fields -/

theorem and_full16 (v : BitVec 16) : v &&& 0xFFFF = v := BitVec.and_allOnes
theorem and_full8 (v : Byte) : v &&& 0xFF = v := BitVec.and_allOnes
theorem and_full4 (v : BitVec 4) : v &&& 0xF = v := BitVec.and_allOnes
theorem and_full3 (v : BitVec 3) : v &&& 7 = v := BitVec.and_allOnes

/-- The upper byte of a wide operand is 0 when the mask finds it so. -/
theorem and_high (v : BitVec 16) : v &&& 0xFF00 = 0 ↔ v.extractLsb' 8 8 = 0 := by
  have hv : v.extractLsb' 8 8 ++ v.extractLsb' 0 8 = v := by
    rw [BitVec.extractLsb'_append_extractLsb'_eq_extractLsb' (by rfl)]; simp
  have h : v &&& 0xFF00 = v.extractLsb' 8 8 ++ 0#8 := by
    conv_lhs => rw [← hv]
    exact (BitVec.and_append (x₂ := 0xFF#8) (y₂ := 0#8)).trans (congrArg₂ (· ++ ·) (and_full8 _) BitVec.and_zero)
  rw [h]
  refine ⟨fun e => ?_, fun e => by rw [e]; rfl⟩
  exact BitVec.extractLsb'_append_eq_left.symm.trans (congrArg (BitVec.extractLsb' 8 8) e)

/-- What a row's mask and value ask of a word's fields. -/
theorem hits_wordOf (build : Word → Instr) (v mv vv : BitVec 16) (a ma va : Byte) (r mr vr : BitVec 3) (f mf vf : Bool)
    (op mop vop : BitVec 4) :
    RequestRow.hits ⟨wordOf mv ma mr mf mop, wordOf vv va vr vf vop, build⟩ (wordOf v a r f op) =
      decide (v &&& mv = vv ∧ a &&& ma = va ∧ r &&& mr = vr ∧ (f && mf) = vf ∧ op &&& mop = vop) := by
  rw [RequestRow.hits, wordOf_and, Bool.eq_iff_iff, beq_iff_eq, decide_eq_true_iff, wordOf_inj]

/-- The decoder by fields: OP picks the request, RSV is 0, and the fields the table marks 0 are 0 (30_encoding.md R71, R73). -/
theorem decodeRequest_wordOf (v : BitVec 16) (a : Byte) (r : BitVec 3) (f : Bool) (op : BitVec 4) :
    decodeRequest (wordOf v a r f op) =
      if r ≠ 0 then none
      else if op = 1 then (if f = false ∧ v = 0 then some (.init a) else none)
      else if op = 2 then (if v.extractLsb' 8 8 = 0 then some (.rsym a (v.extractLsb' 0 8) f) else none)
      else if op = 3 then (if f = false ∧ v = 0 then some (.rhex a) else none)
      else if op = 4 then (if a = 0 then some (.rint v f) else none)
      else if op = 5 then (if a = 0 ∧ v = 0 then some (.setdp f) else none)
      else if op = 6 then (if f = false ∧ a = 0 ∧ v = 0 then some .clear else none)
      else if op = 7 then (if f = false ∧ v = 0 then some (.setbr a) else none)
      else if op = 8 then (if f = false ∧ a = 0 ∧ v = 0 then some .pwroff else none)
      else if op = 9 then (if f = false ∧ a = 0 ∧ v = 0 then some .clrsts else none)
      else none := by
  have hc : fieldCode (wordOf v a r f op) = v.extractLsb' 0 8 := by
    have : fieldCode (wordOf v a r f op) = (fieldV (wordOf v a r f op)).extractLsb' 0 8 := by
      ext i hi; simp [fieldCode, fieldV, BitVec.getElem_extractLsb', BitVec.getLsbD_extractLsb']; omega
    rw [this, wordOf_v]
  have e1 : (0xFFFF00FF : Word) = wordOf 0xFFFF 0 7 true 0xF := rfl
  have e2 : (0xFF0000EF : Word) = wordOf 0xFF00 0 7 false 0xF := rfl
  have e4 : (0x0000FFEF : Word) = wordOf 0 0xFF 7 false 0xF := rfl
  have e5 : (0xFFFFFFEF : Word) = wordOf 0xFFFF 0xFF 7 false 0xF := rfl
  have e6 : (0xFFFFFFFF : Word) = wordOf 0xFFFF 0xFF 7 true 0xF := rfl
  have v1 : (1 : Word) = wordOf 0 0 0 false 1 := rfl
  have v2 : (2 : Word) = wordOf 0 0 0 false 2 := rfl
  have v3 : (3 : Word) = wordOf 0 0 0 false 3 := rfl
  have v4 : (4 : Word) = wordOf 0 0 0 false 4 := rfl
  have v5 : (5 : Word) = wordOf 0 0 0 false 5 := rfl
  have v6 : (6 : Word) = wordOf 0 0 0 false 6 := rfl
  have v7 : (7 : Word) = wordOf 0 0 0 false 7 := rfl
  have v8 : (8 : Word) = wordOf 0 0 0 false 8 := rfl
  have v9 : (9 : Word) = wordOf 0 0 0 false 9 := rfl
  simp only [decodeRequest, requestRows]
  rw [e1, e2, e4, e5, e6, v1, v2, v3, v4, v5, v6, v7, v8, v9]
  simp only [List.find?_cons, hits_wordOf]
  have z16 : ∀ v : BitVec 16, v &&& 0 = 0 := fun _ => BitVec.and_zero
  have z8 : ∀ v : Byte, v &&& 0 = 0 := fun _ => BitVec.and_zero
  simp only [and_full16, and_full8, and_full4, and_full3, z16, z8, and_high, Bool.and_true, Bool.and_false, true_and]
  have hop : op = 1 ∨ op = 2 ∨ op = 3 ∨ op = 4 ∨ op = 5 ∨ op = 6 ∨ op = 7 ∨ op = 8 ∨ op = 9 ∨
      (op ≠ 1 ∧ op ≠ 2 ∧ op ≠ 3 ∧ op ≠ 4 ∧ op ≠ 5 ∧ op ≠ 6 ∧ op ≠ 7 ∧ op ≠ 8 ∧ op ≠ 9) := by
    clear hc
    revert op
    decide
  clear e1 e2 e4 e5 e6 v1 v2 v3 v4 v5 v6 v7 v8 v9
  by_cases hr : r = 0
  · subst hr
    rcases hop with rfl | rfl | rfl | rfl | rfl | rfl | rfl | rfl | rfl | ho
    · by_cases hv : v = 0#16 <;> cases f <;> simp [hv]
    · by_cases hh : v.extractLsb' 8 8 = 0#8 <;> simp [hh, show fieldCode (wordOf v a 0#3 f 2#4) = _ from hc]
    · by_cases hv : v = 0#16 <;> cases f <;> simp [hv]
    · by_cases ha : a = 0#8 <;> simp [ha]
    · by_cases hv : v = 0#16 <;> by_cases ha : a = 0#8 <;> simp [hv, ha]
    · by_cases hv : v = 0#16 <;> by_cases ha : a = 0#8 <;> cases f <;> simp [hv, ha]
    · by_cases hv : v = 0#16 <;> cases f <;> simp [hv]
    · by_cases hv : v = 0#16 <;> by_cases ha : a = 0#8 <;> cases f <;> simp [hv, ha]
    · by_cases hv : v = 0#16 <;> by_cases ha : a = 0#8 <;> cases f <;> simp [hv, ha]
    · simp_all
  · simp_all
end Sys2Proof
end

