-- ==== Sys2Proof/Laws/State.lean ====
section
/-! SUPPORT. One lemma per field for each update of the state, so that no proof unfolds a record update. -/

namespace Sys2Proof.Machine

variable (s : State)

/-! ### receiveByte -/

@[simp] theorem receiveByte_params (b : Byte) : (receiveByte b s).params = s.params := rfl
@[simp] theorem receiveByte_clkOe (b : Byte) : (receiveByte b s).clkOe = s.clkOe := rfl
@[simp] theorem receiveByte_clkOut (b : Byte) : (receiveByte b s).clkOut = s.clkOut := rfl
@[simp] theorem receiveByte_dioOe (b : Byte) : (receiveByte b s).dioOe = s.dioOe := rfl
@[simp] theorem receiveByte_dioOut (b : Byte) : (receiveByte b s).dioOut = s.dioOut := rfl
@[simp] theorem receiveByte_status (b : Byte) : (receiveByte b s).status = s.status := rfl
@[simp] theorem receiveByte_cmd (b : Byte) : (receiveByte b s).cmd = s.cmd := rfl
@[simp] theorem receiveByte_seq (b : Byte) : (receiveByte b s).seq = s.seq := rfl
@[simp] theorem receiveByte_rx (b : Byte) : (receiveByte b s).rx = s.rx.take b := rfl
@[simp] theorem receiveByte_inputs (b : Byte) : (receiveByte b s).inputs = s.inputs := rfl
@[simp] theorem receiveByte_dioIn (b : Byte) : (receiveByte b s).dioIn = s.dioIn := rfl
@[simp] theorem receiveByte_draws (b : Byte) : (receiveByte b s).draws = s.draws := rfl
@[simp] theorem receiveByte_trace (b : Byte) : (receiveByte b s).trace = s.trace := rfl
@[simp] theorem receiveByte_frames (b : Byte) : (receiveByte b s).frames = s.frames := rfl
@[simp] theorem receiveByte_reads (b : Byte) : (receiveByte b s).reads = s.reads := rfl

/-! ### logEvent -/

@[simp] theorem logEvent_params (e : WireEvent) : (logEvent e s).params = s.params := rfl
@[simp] theorem logEvent_clkOe (e : WireEvent) : (logEvent e s).clkOe = s.clkOe := rfl
@[simp] theorem logEvent_clkOut (e : WireEvent) : (logEvent e s).clkOut = s.clkOut := rfl
@[simp] theorem logEvent_dioOe (e : WireEvent) : (logEvent e s).dioOe = s.dioOe := rfl
@[simp] theorem logEvent_dioOut (e : WireEvent) : (logEvent e s).dioOut = s.dioOut := rfl
@[simp] theorem logEvent_status (e : WireEvent) : (logEvent e s).status = s.status := rfl
@[simp] theorem logEvent_cmd (e : WireEvent) : (logEvent e s).cmd = s.cmd := rfl
@[simp] theorem logEvent_seq (e : WireEvent) : (logEvent e s).seq = s.seq := rfl
@[simp] theorem logEvent_rx (e : WireEvent) : (logEvent e s).rx = s.rx := rfl
@[simp] theorem logEvent_inputs (e : WireEvent) : (logEvent e s).inputs = s.inputs := rfl
@[simp] theorem logEvent_dioIn (e : WireEvent) : (logEvent e s).dioIn = s.dioIn := rfl
@[simp] theorem logEvent_draws (e : WireEvent) : (logEvent e s).draws = s.draws := rfl
@[simp] theorem logEvent_trace (e : WireEvent) : (logEvent e s).trace = e :: s.trace := rfl
@[simp] theorem logEvent_frames (e : WireEvent) : (logEvent e s).frames = s.frames := rfl
@[simp] theorem logEvent_reads (e : WireEvent) : (logEvent e s).reads = s.reads := rfl

/-! ### sequence -/

@[simp] theorem sequence_params (todo : List Item) : (sequence todo s).params = s.params := rfl
@[simp] theorem sequence_clkOe (todo : List Item) : (sequence todo s).clkOe = s.clkOe := rfl
@[simp] theorem sequence_clkOut (todo : List Item) : (sequence todo s).clkOut = s.clkOut := rfl
@[simp] theorem sequence_dioOe (todo : List Item) : (sequence todo s).dioOe = s.dioOe := rfl
@[simp] theorem sequence_dioOut (todo : List Item) : (sequence todo s).dioOut = s.dioOut := rfl
@[simp] theorem sequence_status (todo : List Item) : (sequence todo s).status = s.status.setBusy (!todo.isEmpty) := rfl
@[simp] theorem sequence_cmd (todo : List Item) : (sequence todo s).cmd = s.cmd := rfl
@[simp] theorem sequence_seq (todo : List Item) : (sequence todo s).seq = s.seq.advance todo := rfl
@[simp] theorem sequence_rx (todo : List Item) : (sequence todo s).rx = s.rx := rfl
@[simp] theorem sequence_inputs (todo : List Item) : (sequence todo s).inputs = s.inputs := rfl
@[simp] theorem sequence_dioIn (todo : List Item) : (sequence todo s).dioIn = s.dioIn := rfl
@[simp] theorem sequence_draws (todo : List Item) : (sequence todo s).draws = s.draws := rfl
@[simp] theorem sequence_trace (todo : List Item) : (sequence todo s).trace = s.trace := rfl
@[simp] theorem sequence_frames (todo : List Item) : (sequence todo s).frames = s.frames := rfl
@[simp] theorem sequence_reads (todo : List Item) : (sequence todo s).reads = s.reads := rfl

/-! ### accept -/

@[simp] theorem accept_params (i : Instr) (body : List Item) : (accept i body s).params = s.params := rfl
@[simp] theorem accept_clkOe (i : Instr) (body : List Item) : (accept i body s).clkOe = s.clkOe := rfl
@[simp] theorem accept_clkOut (i : Instr) (body : List Item) : (accept i body s).clkOut = s.clkOut := rfl
@[simp] theorem accept_dioOe (i : Instr) (body : List Item) : (accept i body s).dioOe = s.dioOe := rfl
@[simp] theorem accept_dioOut (i : Instr) (body : List Item) : (accept i body s).dioOut = s.dioOut := rfl
@[simp] theorem accept_status (i : Instr) (body : List Item) : (accept i body s).status = s.status.setBusy true := rfl
@[simp] theorem accept_cmd (i : Instr) (body : List Item) : (accept i body s).cmd = s.cmd := rfl
@[simp] theorem accept_seq (i : Instr) (body : List Item) : (accept i body s).seq = .run (latch (encode i)) 0 body := rfl
@[simp] theorem accept_rx (i : Instr) (body : List Item) : (accept i body s).rx = s.rx := rfl
@[simp] theorem accept_inputs (i : Instr) (body : List Item) : (accept i body s).inputs = s.inputs := rfl
@[simp] theorem accept_dioIn (i : Instr) (body : List Item) : (accept i body s).dioIn = s.dioIn := rfl
@[simp] theorem accept_draws (i : Instr) (body : List Item) : (accept i body s).draws = s.draws := rfl
@[simp] theorem accept_trace (i : Instr) (body : List Item) : (accept i body s).trace = s.trace := rfl
@[simp] theorem accept_frames (i : Instr) (body : List Item) : (accept i body s).frames = s.frames := rfl
@[simp] theorem accept_reads (i : Instr) (body : List Item) : (accept i body s).reads = s.reads := rfl

/-! ### hold -/

@[simp] theorem hold_params (i : Instr) : (hold i s).params = s.params := rfl
@[simp] theorem hold_clkOe (i : Instr) : (hold i s).clkOe = s.clkOe := rfl
@[simp] theorem hold_clkOut (i : Instr) : (hold i s).clkOut = s.clkOut := rfl
@[simp] theorem hold_dioOe (i : Instr) : (hold i s).dioOe = s.dioOe := rfl
@[simp] theorem hold_dioOut (i : Instr) : (hold i s).dioOut = s.dioOut := rfl
@[simp] theorem hold_status (i : Instr) : (hold i s).status = s.status := rfl
@[simp] theorem hold_cmd (i : Instr) : (hold i s).cmd = s.cmd := rfl
@[simp] theorem hold_seq (i : Instr) : (hold i s).seq = s.seq := rfl
@[simp] theorem hold_rx (i : Instr) : (hold i s).rx = s.rx := rfl
@[simp] theorem hold_inputs (i : Instr) : (hold i s).inputs = .write 0 (encode i) :: s.inputs := rfl
@[simp] theorem hold_dioIn (i : Instr) : (hold i s).dioIn = s.dioIn := rfl
@[simp] theorem hold_draws (i : Instr) : (hold i s).draws = s.draws := rfl
@[simp] theorem hold_trace (i : Instr) : (hold i s).trace = s.trace := rfl
@[simp] theorem hold_frames (i : Instr) : (hold i s).frames = s.frames := rfl
@[simp] theorem hold_reads (i : Instr) : (hold i s).reads = s.reads := rfl

/-! ### raiseIllegalRequest -/

@[simp] theorem raiseIllegalRequest_params : (raiseIllegalRequest s).params = s.params := rfl
@[simp] theorem raiseIllegalRequest_clkOe : (raiseIllegalRequest s).clkOe = s.clkOe := rfl
@[simp] theorem raiseIllegalRequest_clkOut : (raiseIllegalRequest s).clkOut = s.clkOut := rfl
@[simp] theorem raiseIllegalRequest_dioOe : (raiseIllegalRequest s).dioOe = s.dioOe := rfl
@[simp] theorem raiseIllegalRequest_dioOut : (raiseIllegalRequest s).dioOut = s.dioOut := rfl
@[simp] theorem raiseIllegalRequest_status : (raiseIllegalRequest s).status = s.status.setErr := rfl
@[simp] theorem raiseIllegalRequest_cmd : (raiseIllegalRequest s).cmd = s.cmd := rfl
@[simp] theorem raiseIllegalRequest_seq : (raiseIllegalRequest s).seq = s.seq := rfl
@[simp] theorem raiseIllegalRequest_rx : (raiseIllegalRequest s).rx = s.rx := rfl
@[simp] theorem raiseIllegalRequest_inputs : (raiseIllegalRequest s).inputs = s.inputs := rfl
@[simp] theorem raiseIllegalRequest_dioIn : (raiseIllegalRequest s).dioIn = s.dioIn := rfl
@[simp] theorem raiseIllegalRequest_draws : (raiseIllegalRequest s).draws = s.draws := rfl
@[simp] theorem raiseIllegalRequest_trace : (raiseIllegalRequest s).trace = s.trace := rfl
@[simp] theorem raiseIllegalRequest_frames : (raiseIllegalRequest s).frames = s.frames := rfl
@[simp] theorem raiseIllegalRequest_reads : (raiseIllegalRequest s).reads = s.reads := rfl

/-! ### beginReset -/

@[simp] theorem beginReset_params : (beginReset s).params = s.params := rfl
@[simp] theorem beginReset_clkOe : (beginReset s).clkOe = s.clkOe := rfl
@[simp] theorem beginReset_clkOut : (beginReset s).clkOut = s.clkOut := rfl
@[simp] theorem beginReset_dioOe : (beginReset s).dioOe = s.dioOe := rfl
@[simp] theorem beginReset_dioOut : (beginReset s).dioOut = s.dioOut := rfl
@[simp] theorem beginReset_status : (beginReset s).status = Status.atReset := rfl
@[simp] theorem beginReset_cmd : (beginReset s).cmd = Config.freeCmd s.draws := rfl
@[simp] theorem beginReset_seq : (beginReset s).seq = .reset 0 resetItems := rfl
@[simp] theorem beginReset_rx : (beginReset s).rx = { (s.rx.unknown s.draws).endFrame with inbox := [] } := rfl
@[simp] theorem beginReset_inputs : (beginReset s).inputs = s.inputs := rfl
@[simp] theorem beginReset_dioIn : (beginReset s).dioIn = s.dioIn := rfl
@[simp] theorem beginReset_draws : (beginReset s).draws = s.draws + 1 := rfl
@[simp] theorem beginReset_trace : (beginReset s).trace = s.trace := rfl
@[simp] theorem beginReset_frames : (beginReset s).frames = s.frames := rfl
@[simp] theorem beginReset_reads : (beginReset s).reads = s.reads := rfl

/-! ### hearStop: what a stop condition leaves alone -/

@[simp] theorem hearStop_params : (hearStop s).params = s.params := by
  unfold hearStop; split <;> [split <;> rfl; rfl]
@[simp] theorem hearStop_clkOe : (hearStop s).clkOe = s.clkOe := by
  unfold hearStop; split <;> [split <;> rfl; rfl]
@[simp] theorem hearStop_clkOut : (hearStop s).clkOut = s.clkOut := by
  unfold hearStop; split <;> [split <;> rfl; rfl]
@[simp] theorem hearStop_dioOe : (hearStop s).dioOe = s.dioOe := by
  unfold hearStop; split <;> [split <;> rfl; rfl]
@[simp] theorem hearStop_dioOut : (hearStop s).dioOut = s.dioOut := by
  unfold hearStop; split <;> [split <;> rfl; rfl]
@[simp] theorem hearStop_status : (hearStop s).status = s.status := by
  unfold hearStop; split <;> [split <;> rfl; rfl]
@[simp] theorem hearStop_cmd : (hearStop s).cmd = s.cmd := by
  unfold hearStop; split <;> [split <;> rfl; rfl]
@[simp] theorem hearStop_seq : (hearStop s).seq = s.seq := by
  unfold hearStop; split <;> [split <;> rfl; rfl]
@[simp] theorem hearStop_inputs : (hearStop s).inputs = s.inputs := by
  unfold hearStop; split <;> [split <;> rfl; rfl]
@[simp] theorem hearStop_dioIn : (hearStop s).dioIn = s.dioIn := by
  unfold hearStop; split <;> [split <;> rfl; rfl]
@[simp] theorem hearStop_trace : (hearStop s).trace = s.trace := by
  unfold hearStop; split <;> [split <;> rfl; rfl]
@[simp] theorem hearStop_reads : (hearStop s).reads = s.reads := by
  unfold hearStop; split <;> [split <;> rfl; rfl]

/-! ### hear: what hearing an event leaves alone -/

@[simp] theorem hear_params (a : Action) : (hear a s).params = s.params := by
  unfold hear; repeat' split
  all_goals simp
@[simp] theorem hear_clkOe (a : Action) : (hear a s).clkOe = s.clkOe := by
  unfold hear; repeat' split
  all_goals simp
@[simp] theorem hear_clkOut (a : Action) : (hear a s).clkOut = s.clkOut := by
  unfold hear; repeat' split
  all_goals simp
@[simp] theorem hear_dioOe (a : Action) : (hear a s).dioOe = s.dioOe := by
  unfold hear; repeat' split
  all_goals simp
@[simp] theorem hear_dioOut (a : Action) : (hear a s).dioOut = s.dioOut := by
  unfold hear; repeat' split
  all_goals simp
@[simp] theorem hear_status (a : Action) : (hear a s).status = s.status := by
  unfold hear; repeat' split
  all_goals simp
@[simp] theorem hear_cmd (a : Action) : (hear a s).cmd = s.cmd := by
  unfold hear; repeat' split
  all_goals simp
@[simp] theorem hear_seq (a : Action) : (hear a s).seq = s.seq := by
  unfold hear; repeat' split
  all_goals simp
@[simp] theorem hear_inputs (a : Action) : (hear a s).inputs = s.inputs := by
  unfold hear; repeat' split
  all_goals simp
@[simp] theorem hear_dioIn (a : Action) : (hear a s).dioIn = s.dioIn := by
  unfold hear; repeat' split
  all_goals simp
@[simp] theorem hear_trace (a : Action) : (hear a s).trace = s.trace := by
  unfold hear; repeat' split
  all_goals simp
@[simp] theorem hear_reads (a : Action) : (hear a s).reads = s.reads := by
  unfold hear; repeat' split
  all_goals simp

/-! ### pinEffect: what an event's effect on the pins leaves alone -/

@[simp] theorem pinEffect_params (a : Action) : (pinEffect a s).params = s.params := by
  unfold pinEffect; repeat' split
  all_goals rfl
@[simp] theorem pinEffect_status (a : Action) : (pinEffect a s).status = s.status := by
  unfold pinEffect; repeat' split
  all_goals rfl
@[simp] theorem pinEffect_cmd (a : Action) : (pinEffect a s).cmd = s.cmd := by
  unfold pinEffect; repeat' split
  all_goals rfl
@[simp] theorem pinEffect_seq (a : Action) : (pinEffect a s).seq = s.seq := by
  unfold pinEffect; repeat' split
  all_goals rfl
@[simp] theorem pinEffect_rx (a : Action) : (pinEffect a s).rx = s.rx := by
  unfold pinEffect; repeat' split
  all_goals rfl
@[simp] theorem pinEffect_inputs (a : Action) : (pinEffect a s).inputs = s.inputs := by
  unfold pinEffect; repeat' split
  all_goals rfl
@[simp] theorem pinEffect_dioIn (a : Action) : (pinEffect a s).dioIn = s.dioIn := by
  unfold pinEffect; repeat' split
  all_goals rfl
@[simp] theorem pinEffect_trace (a : Action) : (pinEffect a s).trace = s.trace := by
  unfold pinEffect; repeat' split
  all_goals rfl
@[simp] theorem pinEffect_frames (a : Action) : (pinEffect a s).frames = s.frames := by
  unfold pinEffect; repeat' split
  all_goals rfl
@[simp] theorem pinEffect_reads (a : Action) : (pinEffect a s).reads = s.reads := by
  unfold pinEffect; repeat' split
  all_goals rfl

/-! ### emitAction: what an event leaves alone -/

@[simp] theorem emitAction_params (a : Action) : (emitAction a s).params = s.params := by
  simp [emitAction]
@[simp] theorem emitAction_status (a : Action) : (emitAction a s).status = s.status := by
  simp [emitAction]
@[simp] theorem emitAction_cmd (a : Action) : (emitAction a s).cmd = s.cmd := by
  simp [emitAction]
@[simp] theorem emitAction_seq (a : Action) : (emitAction a s).seq = s.seq := by
  simp [emitAction]
@[simp] theorem emitAction_inputs (a : Action) : (emitAction a s).inputs = s.inputs := by
  simp [emitAction]
@[simp] theorem emitAction_dioIn (a : Action) : (emitAction a s).dioIn = s.dioIn := by
  simp [emitAction]
@[simp] theorem emitAction_reads (a : Action) : (emitAction a s).reads = s.reads := by
  simp [emitAction]

/-- An event is appended to the trace. -/
@[simp] theorem emitAction_trace (a : Action) : (emitAction a s).trace = .act a :: s.trace := by
  simp [emitAction]

/-! ### sampleDio and sampleAck -/

/-- The level of the line is the latch while DIO is an output (10_state.md R22). -/
theorem sampleDio_output (h : s.dioOe = true) : sampleDio s = (s.dioOut, s) := by simp [sampleDio, h]

/-- While DIO is an input the level is the one the outside supplies (10_state.md R22). -/
theorem sampleDio_supplied (h : s.dioOe = false) (l : Bool) (rest : List Bool) (hl : s.dioIn = l :: rest) :
    sampleDio s = (l, { s with dioIn := rest }) := by simp [sampleDio, h, hl]

/-- While DIO is an input and the outside supplies nothing the level is a draw (10_state.md R22). -/
theorem sampleDio_draw (h : s.dioOe = false) (hl : s.dioIn = []) :
    sampleDio s = (Config.freeBit s.draws, { s with draws := s.draws + 1 }) := by simp [sampleDio, h, hl]

@[simp] theorem sampleDio_params : (sampleDio s).2.params = s.params := by
  unfold sampleDio; repeat' split
  all_goals rfl
@[simp] theorem sampleDio_clkOe : (sampleDio s).2.clkOe = s.clkOe := by
  unfold sampleDio; repeat' split
  all_goals rfl
@[simp] theorem sampleDio_clkOut : (sampleDio s).2.clkOut = s.clkOut := by
  unfold sampleDio; repeat' split
  all_goals rfl
@[simp] theorem sampleDio_dioOe : (sampleDio s).2.dioOe = s.dioOe := by
  unfold sampleDio; repeat' split
  all_goals rfl
@[simp] theorem sampleDio_dioOut : (sampleDio s).2.dioOut = s.dioOut := by
  unfold sampleDio; repeat' split
  all_goals rfl
@[simp] theorem sampleDio_status : (sampleDio s).2.status = s.status := by
  unfold sampleDio; repeat' split
  all_goals rfl
@[simp] theorem sampleDio_cmd : (sampleDio s).2.cmd = s.cmd := by
  unfold sampleDio; repeat' split
  all_goals rfl
@[simp] theorem sampleDio_seq : (sampleDio s).2.seq = s.seq := by
  unfold sampleDio; repeat' split
  all_goals rfl
@[simp] theorem sampleDio_rx : (sampleDio s).2.rx = s.rx := by
  unfold sampleDio; repeat' split
  all_goals rfl
@[simp] theorem sampleDio_inputs : (sampleDio s).2.inputs = s.inputs := by
  unfold sampleDio; repeat' split
  all_goals rfl
@[simp] theorem sampleDio_trace : (sampleDio s).2.trace = s.trace := by
  unfold sampleDio; repeat' split
  all_goals rfl
@[simp] theorem sampleDio_frames : (sampleDio s).2.frames = s.frames := by
  unfold sampleDio; repeat' split
  all_goals rfl
@[simp] theorem sampleDio_reads : (sampleDio s).2.reads = s.reads := by
  unfold sampleDio; repeat' split
  all_goals rfl

@[simp] theorem sampleAck_params : (sampleAck s).params = s.params := by
  simp [sampleAck]
@[simp] theorem sampleAck_clkOe : (sampleAck s).clkOe = s.clkOe := by
  simp [sampleAck]
@[simp] theorem sampleAck_clkOut : (sampleAck s).clkOut = s.clkOut := by
  simp [sampleAck]
@[simp] theorem sampleAck_dioOe : (sampleAck s).dioOe = s.dioOe := by
  simp [sampleAck]
@[simp] theorem sampleAck_dioOut : (sampleAck s).dioOut = s.dioOut := by
  simp [sampleAck]
@[simp] theorem sampleAck_cmd : (sampleAck s).cmd = s.cmd := by
  simp [sampleAck]
@[simp] theorem sampleAck_seq : (sampleAck s).seq = s.seq := by
  simp [sampleAck]
@[simp] theorem sampleAck_inputs : (sampleAck s).inputs = s.inputs := by
  simp [sampleAck]
@[simp] theorem sampleAck_frames : (sampleAck s).frames = s.frames := by
  simp [sampleAck]
@[simp] theorem sampleAck_reads : (sampleAck s).reads = s.reads := by
  simp [sampleAck]

@[simp] theorem sampleAck_status : (sampleAck s).status = s.status.recordAck (sampleDio s).1 := by
  simp [sampleAck]
@[simp] theorem sampleAck_trace : (sampleAck s).trace = .sample (sampleDio s).1 :: s.trace := by
  simp [sampleAck]
@[simp] theorem sampleAck_rx :
    (sampleAck s).rx = { s.rx with spoiled := s.rx.spoiled || (sampleDio s).1 } := by
  simp [sampleAck]

/-! ### perform: what an item leaves alone -/

@[simp] theorem perform_params (it : Item) : (perform it s).params = s.params := by
  cases it <;> simp [perform]
@[simp] theorem perform_seq (it : Item) : (perform it s).seq = s.seq := by
  cases it <;> simp [perform]
@[simp] theorem perform_inputs (it : Item) : (perform it s).inputs = s.inputs := by
  cases it <;> simp [perform]
@[simp] theorem perform_reads (it : Item) : (perform it s).reads = s.reads := by
  cases it <;> simp [perform]

end Sys2Proof.Machine
end

