-- ==== Sys2Proof/Laws/Step.lean ====
section
/-! SUPPORT. What a step does, said once: the receiver's byte, the next input, the engine's item. -/

namespace Sys2Proof.Machine

/-! ## A byte's class is the class of that byte -/

theorem encodeByte_of_decodeFirst : ∀ (b : Byte) (i : Instr), decodeFirst b = some i → encodeByte i = b := by decide

theorem encodeByte_of_decodeData :
    ∀ (o : BitVec 2) (b : Byte) (i : Instr), decodeData o b = some i → encodeByte i = b := by decide

/-- A decoded wire byte encodes to itself. -/
theorem encodeByte_of_decodeByte (pos : FramePos) (b : Byte) (i : Instr) (h : decodeByte pos b = some i) :
    encodeByte i = b := by
  cases pos with
  | first => exact encodeByte_of_decodeFirst b i h
  | data o => exact encodeByte_of_decodeData o b i h
  | ignored => simp [decodeByte] at h

/-- A decoded wire byte is no request. -/
theorem isRequest_of_decodeByte (pos : FramePos) (b : Byte) (i : Instr) (h : decodeByte pos b = some i) :
    i.isRequest = false := by
  cases pos with
  | first => unfold decodeByte decodeFirst at h; grind [Instr.isRequest]
  | data o => unfold decodeByte decodeData at h; grind [Instr.isRequest]
  | ignored => simp [decodeByte] at h

/-! ## The wire instructions -/

theorem dispOnBase_add : ∀ l : BitVec 3, dispOnBase + l.setWidth 8 = encodeByte (.dispOn l) := by decide
theorem addrBase_add : ∀ aa : BitVec 2, addrBase + aa.setWidth 8 = encodeByte (.addr aa) := by decide
theorem setWidth_segData : ∀ p : BitVec 7, p.setWidth 8 = encodeByte (.segData p) := by decide
theorem dpByte_eq : ∀ on : Bool, dpByte on = encodeByte (.dpData on) := by decide

/-- A wire instruction's meaning is the receiver's reading of its byte (30_encoding.md R78). -/
theorem exec_wire (i : Instr) (h : i.isRequest = false) (s : State) : exec i s = .next (receiveByte (encodeByte i) s) := by
  cases i with
  | dataAuto | dataFixed | dispOff => rfl
  | dispOn l => rw [← dispOnBase_add]; rfl
  | addr aa => rw [← addrBase_add]; rfl
  | segData p => rw [← setWidth_segData]; rfl
  | dpData on => rw [← dpByte_eq]; rfl
  | init | rsym | rhex | rint | setdp | clear | setbr | pwroff | clrsts => simp [Instr.isRequest] at h

/-- Whatever class a byte has, the receiver reads it (30_encoding.md R78). -/
theorem stepWire_eq (b : Byte) (s : State) : stepWire b s = .next (receiveByte b s) := by
  unfold stepWire
  split
  · rename_i i h
    rw [exec_wire i (isRequest_of_decodeByte _ _ _ h), encodeByte_of_decodeByte _ _ _ h]
  · rfl

/-! ## The three sources of a step -/

/-- A byte the receiver has to read comes first. -/
theorem step_byte (s : State) (b : Byte) (rest : List Byte) (h : s.rx.inbox = b :: rest) :
    step s = .next (receiveByte b { s with rx := { s.rx with inbox := rest } }) := by
  simp [step, h, stepWire_eq]

/-- With nothing for the receiver to read, the next input comes. -/
theorem step_input (s : State) (x : Input) (rest : List Input) (h : s.rx.inbox = []) (hx : s.inputs = x :: rest) :
    step s = stepInput x s { s with inputs := rest } := by
  simp [step, h, hx]

/-- With no input either, the engine makes a step of its own. -/
theorem step_engine (s : State) (h : s.rx.inbox = []) (hx : s.inputs = []) : step s = .next (engineStep s) := by
  simp [step, h, hx]

/-- While the engine runs and the host waits, the engine makes a step of its own (10_state.md R34). -/
theorem step_waiting (s : State) (h : s.rx.inbox = []) (hx : HostWaits s) (hq : s.seq ≠ .idle) :
    step s = .next (engineStep s) := by
  obtain hx | ⟨w, rest, hx⟩ := hx
  · exact step_engine s h hx
  · cases hs : s.seq <;> simp_all [step, stepInput]

/-- When the engine has the next step and its sequencer an item, the step is the engine's own (10_state.md R26, R34). -/
theorem step_engineTurn (s : State) (more : List Input) (h : EngineTurn s more) (hq : s.seq ≠ .idle) :
    step s = .next (engineStep { s with inputs := more }) := by
  obtain ⟨hb, ⟨hi, rfl⟩ | hi | ⟨w, rest, hi, rfl⟩⟩ := h
  · rw [step_engine s hb hi, ← hi]
  · rw [step_input s _ _ hb hi]; rfl
  · exact step_waiting s hb (.inr ⟨w, rest, hi⟩) hq

/-- The engine's step on its next item (10_state.md R26). -/
theorem engineStep_item (s : State) (it : Item) (rest : List Item) (h : s.seq.pending = it :: rest) :
    engineStep s = sequence (ackBranch it (perform it s) ++ rest) (perform it s) := by
  simp [engineStep, h]

/-- An idle engine stays as it is. -/
theorem engineStep_idle (s : State) (h : s.seq = .idle) : engineStep s = s := by
  simp [engineStep, h, Seq.pending]

/-- Everything the engine's step can do: it idles, or performs its next item. -/
theorem engineStep_cases (s : State) :
    (s.seq.pending = [] ∧ engineStep s = s) ∨ ∃ it rest, s.seq.pending = it :: rest ∧
      engineStep s = sequence (ackBranch it (perform it s) ++ rest) (perform it s) := by
  cases h : s.seq.pending with
  | nil => exact .inl ⟨rfl, by simp [engineStep, h]⟩
  | cons it rest => exact .inr ⟨it, rest, rfl, engineStep_item s it rest h⟩

/-- What remains after the sequencer has moved on. -/
@[simp] theorem pending_advance (q : Seq) (todo : List Item) (h : q ≠ .idle) : (q.advance todo).pending = todo := by
  cases todo <;> cases q <;> simp_all [Seq.advance, Seq.pending]

/-- The sequencer is Idle exactly when nothing remains. -/
theorem advance_idle (q : Seq) (todo : List Item) (h : q ≠ .idle) : q.advance todo = .idle ↔ todo = [] := by
  cases todo <;> cases q <;> simp_all [Seq.advance]

end Sys2Proof.Machine
end

