-- ==== Sys2Proof/Laws/Run.lean ====
section
/-! SUPPORT. Runs of items: the machine performs a list of items, the receiver reading its bytes in between, and the runs of
a byte, a frame and a list of frames. -/

namespace Sys2Proof.Machine

/-! ## The receiver reads all its bytes -/

@[simp] theorem take_inbox (r : Receiver) (b : Byte) : (r.take b).inbox = r.inbox := by
  unfold Receiver.take Receiver.takeFirst Receiver.takeData
  repeat' split
  all_goals rfl

@[simp] theorem storeAddr_with_inbox (r : Receiver) (l : List Byte) :
    ({ r with inbox := l } : Receiver).storeAddr = r.storeAddr := rfl

/-- Reading a byte does not depend on what else is to be read. -/
theorem take_with_inbox (r : Receiver) (b : Byte) (l : List Byte) :
    ({ r with inbox := l } : Receiver).take b = { r.take b with inbox := l } := by
  obtain ⟨_, _, _, _, _, _, pos, _, _, _, _⟩ := r
  cases pos with
  | first => simp only [Receiver.take, Receiver.takeFirst]; split_ifs <;> rfl
  | data o => rfl
  | ignored => rfl

/-- The receiver has read every byte it had to read. -/
def drain (s : State) : State := { s with rx := s.rx.inbox.foldl Receiver.take { s.rx with inbox := [] } }

theorem drain_empty (s : State) (h : s.rx.inbox = []) : drain s = s := by
  have : ({ s.rx with inbox := [] } : Receiver) = s.rx := by rw [← h]
  simp [drain, h, this]

theorem foldl_take_inbox (l : List Byte) (r : Receiver) : (l.foldl Receiver.take r).inbox = r.inbox := by
  induction l generalizing r with
  | nil => rfl
  | cons b l ih => simp [ih]

@[simp] theorem drain_inbox (s : State) : (drain s).rx.inbox = [] := by simp [drain, foldl_take_inbox]

/-- The machine steps through the receiver's reading. -/
theorem steps_drain (s : State) : StepsTo s (drain s) := by
  obtain ⟨l, hl⟩ : ∃ l, s.rx.inbox = l := ⟨_, rfl⟩
  induction l generalizing s with
  | nil => rw [drain_empty s hl]
  | cons b l ih =>
    refine .head (step_byte s b l hl) ?_
    have he : drain (receiveByte b { s with rx := { s.rx with inbox := l } }) = drain s := by
      simp [drain, receiveByte, hl, take_with_inbox]
    rw [← he]
    exact ih _ (by simp)

/-! ## The sequencer set apart -/

/-- The state with another sequencer, BUSY with it. -/
def withSeq (q : Seq) (b : Bool) (s : State) : State := { s with seq := q, status := s.status.setBusy b }

theorem hear_withSeq (a : Action) (q : Seq) (b : Bool) (s : State) :
    hear a (withSeq q b s) = withSeq q b (hear a s) := by
  cases a with
  | modeOut | modeIn | wait => rfl
  | drive p v =>
    cases p with
    | clk => by_cases h : v = s.clkOut <;> simp [hear, withSeq, h]
    | dio =>
      cases v <;> cases hd : s.dioOut <;> cases hc : s.clkOut <;> cases ha : s.rx.ackBit <;>
        cases hf : s.rx.inFrame <;> cases hs : s.rx.spoiled <;> simp [hear, hearStop, withSeq, hd, hc, ha, hf, hs]

theorem pinEffect_withSeq (a : Action) (q : Seq) (b : Bool) (s : State) :
    pinEffect a (withSeq q b s) = withSeq q b (pinEffect a s) := by
  cases a with
  | modeOut p => cases p <;> rfl
  | drive p v => cases p <;> rfl
  | wait => rfl
  | modeIn => cases h : s.params.latchKept <;> simp [pinEffect, withSeq, h]

theorem sampleAck_withSeq (q : Seq) (b : Bool) (s : State) : sampleAck (withSeq q b s) = withSeq q b (sampleAck s) := by
  cases h : s.dioOe
  · cases hd : s.dioIn <;> simp [sampleAck, sampleDio, withSeq, logEvent, h, hd, Status.recordAck, Status.setBusy]
  · simp [sampleAck, sampleDio, withSeq, logEvent, h, Status.recordAck, Status.setBusy]

theorem perform_withSeq (it : Item) (q : Seq) (b : Bool) (s : State) :
    perform it (withSeq q b s) = withSeq q b (perform it s) := by
  cases it with
  | emit a => simp only [perform, emitAction, hear_withSeq, pinEffect_withSeq]; rfl
  | sampleAck => exact sampleAck_withSeq q b s
  | setCmd | clearNack | clearErr => rfl

theorem drain_withSeq (q : Seq) (b : Bool) (s : State) : drain (withSeq q b s) = withSeq q b (drain s) := rfl

/-- One item performed and the receiver's reading done. -/
def cycle (s : State) (it : Item) : State := drain (perform it s)

/-- One item with the items it adds after itself. -/
def cycleItem (s : State) (it : Item) : State := (ackBranch it (cycle s it)).foldl cycle (cycle s it)

theorem cycle_withSeq (it : Item) (q : Seq) (b : Bool) (s : State) :
    cycle (withSeq q b s) it = withSeq q b (cycle s it) := by
  simp only [cycle, perform_withSeq, drain_withSeq]

theorem foldl_cycle_withSeq (its : List Item) (q : Seq) (b : Bool) (s : State) :
    its.foldl cycle (withSeq q b s) = withSeq q b (its.foldl cycle s) := by
  induction its generalizing s with
  | nil => rfl
  | cons it its ih => simp only [List.foldl_cons, cycle_withSeq, ih]

theorem ackBranch_withSeq (it : Item) (q : Seq) (b : Bool) (s : State) : ackBranch it (withSeq q b s) = ackBranch it s := by
  cases it <;> rfl

theorem cycleItem_withSeq (it : Item) (q : Seq) (b : Bool) (s : State) :
    cycleItem (withSeq q b s) it = withSeq q b (cycleItem s it) := by
  simp only [cycleItem, cycle_withSeq, ackBranch_withSeq, foldl_cycle_withSeq]

theorem foldl_cycleItem_withSeq (its : List Item) (q : Seq) (b : Bool) (s : State) :
    its.foldl cycleItem (withSeq q b s) = withSeq q b (its.foldl cycleItem s) := by
  induction its generalizing s with
  | nil => rfl
  | cons it its ih => simp only [List.foldl_cons, cycleItem_withSeq, ih]

theorem sequence_eq_withSeq (todo : List Item) (s : State) :
    sequence todo s = withSeq (s.seq.advance todo) (!todo.isEmpty) s := rfl

@[simp] theorem withSeq_inbox (q : Seq) (b : Bool) (s : State) : (withSeq q b s).rx = s.rx := rfl
@[simp] theorem withSeq_inputs (q : Seq) (b : Bool) (s : State) : (withSeq q b s).inputs = s.inputs := rfl
@[simp] theorem withSeq_seq (q : Seq) (b : Bool) (s : State) : (withSeq q b s).seq = q := rfl
@[simp] theorem withSeq_withSeq (q r : Seq) (b c : Bool) (s : State) : withSeq q b (withSeq r c s) = withSeq q b s := rfl
@[simp] theorem cycle_inputs (it : Item) (s : State) : (cycle s it).inputs = s.inputs := by simp [cycle, drain]
@[simp] theorem cycle_seq (it : Item) (s : State) : (cycle s it).seq = s.seq := by simp [cycle, drain]

theorem foldl_cycle_inputs (its : List Item) (s : State) : (its.foldl cycle s).inputs = s.inputs := by
  induction its generalizing s with
  | nil => rfl
  | cons it its ih => simp [ih]

@[simp] theorem cycleItem_inputs (it : Item) (s : State) : (cycleItem s it).inputs = s.inputs := by
  simp [cycleItem, foldl_cycle_inputs]

/-- One item, the engine's step and the receiver's reading. -/
theorem steps_cycle (s : State) (it : Item) (rest : List Item) (hb : s.rx.inbox = []) (hi : HostWaits s)
    (hq : s.seq ≠ .idle) (h : s.seq.pending = it :: rest) :
    StepsTo s (withSeq (s.seq.advance (ackBranch it (cycle s it) ++ rest))
      (!(ackBranch it (cycle s it) ++ rest).isEmpty) (cycle s it)) := by
  refine .head (step_waiting s hb hi hq) ?_
  rw [engineStep_item s it rest h, sequence_eq_withSeq, perform_seq]
  have hbr : ackBranch it (perform it s) = ackBranch it (cycle s it) := by cases it <;> rfl
  rw [hbr]
  exact (steps_drain _).trans (by rw [drain_withSeq]; exact .refl)

/-- A list of items that add none, performed one after another; `rest` remains. -/
theorem steps_plain (its rest : List Item) (hn : ∀ it ∈ its, it ≠ .sampleAck) (s : State) (hb : s.rx.inbox = [])
    (hi : HostWaits s) (hq : s.seq ≠ .idle) (h : s.seq.pending = its ++ rest) (hne : its ≠ []) :
    ∃ q, StepsTo s (withSeq q (!rest.isEmpty) (its.foldl cycle s)) ∧ q.pending = rest ∧ (q = .idle ↔ rest = []) := by
  induction its generalizing s with
  | nil => exact absurd rfl hne
  | cons it its ih =>
    have hit : ∀ t, ackBranch it t = [] := by
      have := hn it (by simp)
      cases it <;> simp_all [ackBranch]
    have h1 := steps_cycle s it (its ++ rest) hb hi hq (by simpa using h)
    rw [hit, List.nil_append] at h1
    obtain ⟨q, hqe⟩ : ∃ q, s.seq.advance (its ++ rest) = q := ⟨_, rfl⟩
    have hpend : q.pending = its ++ rest := by rw [← hqe]; exact pending_advance _ _ hq
    have hidle : q = .idle ↔ its ++ rest = [] := by
      rw [← hqe]
      exact advance_idle _ _ hq
    rw [hqe] at h1
    by_cases hi' : its = []
    · subst hi'
      exact ⟨q, h1, by simpa using hpend, by simpa using hidle⟩
    · obtain ⟨q', h2, hp, hid⟩ := ih (fun i hi => hn i (by simp [hi])) (withSeq q (!(its ++ rest).isEmpty) (cycle s it))
        (by simp [cycle]) (by simpa [HostWaits] using hi) (by simp [hidle, hi']) (by simpa using hpend) hi'
      refine ⟨q', h1.trans ?_, hp, hid⟩
      rw [foldl_cycle_withSeq, withSeq_withSeq] at h2
      exact h2

/-- A list of items performed one after another, each with the items it adds; `rest` remains, and the engine is idle when
none does. -/
theorem steps_items (its rest : List Item) (s : State) (hb : s.rx.inbox = [])
    (hi : HostWaits s) (hq : s.seq ≠ .idle) (h : s.seq.pending = its ++ rest) (hne : its ≠ []) :
    ∃ q, StepsTo s (withSeq q (!rest.isEmpty) (its.foldl cycleItem s)) ∧ q.pending = rest ∧ (q = .idle ↔ rest = []) := by
  induction its generalizing s with
  | nil => exact absurd rfl hne
  | cons it its ih =>
    have h1 := steps_cycle s it (its ++ rest) hb hi hq (by simpa using h)
    obtain ⟨br, hbr⟩ : ∃ br, ackBranch it (cycle s it) = br := ⟨_, rfl⟩
    have hplain : ∀ i ∈ br, i ≠ .sampleAck := by
      rw [← hbr]
      cases it with
      | sampleAck => cases h : (cycle s .sampleAck).status.lastAck <;> simp [ackBranch, h, ackLowItems, driveItem]
      | emit | setCmd | clearNack | clearErr => simp [ackBranch]
    rw [hbr] at h1
    obtain ⟨q, hqe⟩ : ∃ q, s.seq.advance (br ++ (its ++ rest)) = q := ⟨_, rfl⟩
    have hpend : q.pending = br ++ (its ++ rest) := by rw [← hqe]; exact pending_advance _ _ hq
    have hidle : q = .idle ↔ br ++ (its ++ rest) = [] := by
      rw [← hqe]
      exact advance_idle _ _ hq
    rw [hqe] at h1
    -- the added items
    obtain ⟨q1, h2, hp1, hid1⟩ : ∃ q1, StepsTo s (withSeq q1 (!(its ++ rest).isEmpty) (cycleItem s it)) ∧
        q1.pending = its ++ rest ∧ (q1 = .idle ↔ its ++ rest = []) := by
      by_cases hbe : br = []
      · subst hbe
        refine ⟨q, ?_, by simpa using hpend, by simpa using hidle⟩
        simpa [cycleItem, hbr] using h1
      · obtain ⟨q', h2, hp, hid⟩ := steps_plain br (its ++ rest) hplain
          (withSeq q (!(br ++ (its ++ rest)).isEmpty) (cycle s it))
          (by simp [cycle]) (by simpa [HostWaits] using hi) (by simp [hidle, hbe]) (by simpa using hpend) hbe
        refine ⟨q', h1.trans ?_, hp, hid⟩
        rw [foldl_cycle_withSeq, withSeq_withSeq] at h2
        simpa [cycleItem, hbr] using h2
    by_cases hi' : its = []
    · subst hi'
      exact ⟨q1, by simpa using h2, by simpa using hp1, by simpa using hid1⟩
    · have hb2 : (cycleItem s it).rx.inbox = [] := by
        rw [cycleItem, hbr]
        clear h1 h2 hbr hidle hpend hqe
        rcases List.eq_nil_or_concat br with rfl | ⟨l, x, rfl⟩
        · simp [cycle]
        · simp [cycle, List.foldl_append]
      obtain ⟨q', h3, hp, hid⟩ := ih (withSeq q1 (!(its ++ rest).isEmpty) (cycleItem s it))
        (by simpa using hb2) (by simpa [HostWaits] using hi) (by simp [hid1, hi']) (by simpa using hp1) hi'
      refine ⟨q', h2.trans ?_, hp, hid⟩
      rw [foldl_cycleItem_withSeq, withSeq_withSeq] at h3
      exact h3

end Sys2Proof.Machine
end

