-- ==== Sys2Proof/Laws/Frame.lean ====
section
/-! SUPPORT. The run of a frame: what the pins, STATUS, the trace and the receiver hold after its start, after each of its
bytes and after its stop. -/

namespace Sys2Proof.Machine

/-! ## The trace of bytes grows at its end -/

theorem bytesTrace_snoc (done : List Byte) (acks : List Bool) (b : Byte) (a : Bool) (h : acks.length = done.length) :
    bytesTrace (done ++ [b]) (acks ++ [a]) = bytesTrace done acks ++ byteTrace b a := by
  induction done generalizing acks with
  | nil =>
    obtain rfl := List.length_eq_zero_iff.mp h
    simp [bytesTrace]
  | cons d done ih =>
    cases acks with
    | nil => simp at h
    | cons x acks => simp [bytesTrace, ih acks (by simpa using h)]

/-! ## Within a frame -/

/-- The bits of a byte, sampled in order, make the byte (20_memory.md R54). -/
theorem byteOfBits_bits : ∀ b : Byte,
    byteOfBits [b.getLsbD 0, b.getLsbD 1, b.getLsbD 2, b.getLsbD 3, b.getLsbD 4, b.getLsbD 5, b.getLsbD 6, b.getLsbD 7] = b := by
  decide

/-- STATUS after bytes whose sampled bits are `acks` (40_bus_protocol.md R103). -/
def Status.afterAcks (st : Status) (acks : List Bool) : Status :=
  { st with lastAck := acks.getLastD st.lastAck, nackSeen := st.nackSeen || acks.any id }

@[simp] theorem afterAcks_nil (st : Status) : st.afterAcks [] = st := by simp [Status.afterAcks]

@[simp] theorem afterAcks_snoc (st : Status) (acks : List Bool) (a : Bool) :
    (st.afterAcks acks).recordAck a = st.afterAcks (acks ++ [a]) := by
  simp [Status.afterAcks, Status.recordAck, Bool.or_assoc]

/-- Between requests, the sequencer apart: the bus is idle and the receiver in no frame with nothing to read. -/
structure BusReady (s : State) : Prop where
  pins : s.pins = Pins.idle
  inFrame : s.rx.inFrame = false
  ackBit : s.rx.ackBit = false
  inbox : s.rx.inbox = []

/-- Ready for a start, whatever the levels: both pins are outputs, the receiver is in no frame and has nothing to read. -/
structure StartReady (s : State) : Prop where
  clkOe : s.clkOe = true
  dioOe : s.dioOe = true
  inFrame : s.rx.inFrame = false
  ackBit : s.rx.ackBit = false
  inbox : s.rx.inbox = []

theorem BusReady.startReady (s : State) (h : BusReady s) : StartReady s := by
  have hp := h.pins
  simp only [State.pins, Pins.mk.injEq] at hp
  exact ⟨hp.1, hp.2.2.1, h.inFrame, h.ackBit, h.inbox⟩

/-- `t` is within the frame that began in `s`, with the bytes `done` sent and the bits `acks` sampled. -/
structure InFrame (s t : State) (done : List Byte) (acks : List Bool) : Prop where
  clkOe : t.clkOe = true
  dioOe : t.dioOe = true
  inFrame : t.rx.inFrame = true
  inbox : t.rx.inbox = []
  spoiled : t.rx.spoiled = acks.any id
  phase : (t.clkOut = false ∧ t.rx.ackBit = false ∧ t.rx.bits = [] ∧ t.rx.bytes = done) ∨
    (t.clkOut = true ∧ t.rx.ackBit = true ∧ t.rx.bits.length = 8 ∧ t.rx.bytes ++ [byteOfBits t.rx.bits] = done)
  ptr : t.rx.ptr = s.rx.ptr
  mode : t.rx.mode = s.rx.mode
  dctrl : t.rx.dctrl = s.rx.dctrl
  ram : t.rx.ram = s.rx.ram
  status : t.status = s.status.afterAcks acks
  trace : t.trace = ([drives .clk true, drives .dio true, drives .dio false, drives .clk false] ++
    bytesTrace done acks).reverse ++ s.trace
  dioIn : s.dioIn = acks ++ t.dioIn
  params : t.params = s.params
  cmd : t.cmd = s.cmd
  seq : t.seq = s.seq
  inputs : t.inputs = s.inputs
  reads : t.reads = s.reads
  frames : t.frames = s.frames
  count : acks.length = done.length

/-! ## One item at a time -/

/-- What the receiver makes of CLK being driven. -/
def clkHeard (v : Bool) (t : State) : Receiver :=
  if v = t.clkOut then t.rx else if v then t.rx.clockRise t.dioOut else t.rx.clockFall

/-- CLK is driven (00_scope.md R8). -/
theorem emitAction_clk (v : Bool) (t : State) : emitAction (.drive .clk v) t =
    { t with clkOut := v, rx := clkHeard v t, trace := drives .clk v :: t.trace } := by
  by_cases h : v = t.clkOut <;> simp [emitAction, hear, pinEffect, logEvent, clkHeard, h]

/-- DIO is driven and no start or stop condition is heard. -/
theorem emitAction_dio (v : Bool) (t : State) (h : v = t.dioOut ∨ t.clkOut = false ∨ t.rx.ackBit = true) :
    emitAction (.drive .dio v) t = { t with dioOut := v, trace := drives .dio v :: t.trace } := by
  simp [emitAction, hear, pinEffect, logEvent, h]

/-- An item that adds none after itself, with nothing for the receiver to read when it is done. -/
theorem cycleItem_emit (t : State) (a : Action) (h : (emitAction a t).rx.inbox = []) :
    cycleItem t (.emit a) = emitAction a t := by
  simp [cycleItem, ackBranch, cycle, perform, drain_empty _ h]

@[simp] theorem clockRise_inbox (r : Receiver) (l : Bool) : (r.clockRise l).inbox = r.inbox := by
  unfold Receiver.clockRise; split_ifs <;> rfl

@[simp] theorem clockFall_inbox (r : Receiver) : r.clockFall.inbox = r.inbox := by
  unfold Receiver.clockFall; split_ifs <;> rfl

@[simp] theorem clkHeard_inbox (v : Bool) (t : State) : (clkHeard v t).inbox = t.rx.inbox := by
  unfold clkHeard; split_ifs <;> simp

/-- The item of driving CLK. -/
theorem cycleItem_clk (t : State) (v : Bool) (h : t.rx.inbox = []) : cycleItem t (driveItem .clk v) =
    { t with clkOut := v, rx := clkHeard v t, trace := drives .clk v :: t.trace } := by
  rw [driveItem, cycleItem_emit _ _ (by simp [emitAction_clk, h]), emitAction_clk]

/-- The item of driving DIO where no start or stop condition is heard. -/
theorem cycleItem_dio (t : State) (v : Bool) (h : t.rx.inbox = [])
    (hv : v = t.dioOut ∨ t.clkOut = false ∨ t.rx.ackBit = true) : cycleItem t (driveItem .dio v) =
    { t with dioOut := v, trace := drives .dio v :: t.trace } := by
  rw [driveItem, cycleItem_emit _ _ (by simp [emitAction_dio _ _ hv, h]), emitAction_dio _ _ hv]

/-- The item of a start condition (40_bus_protocol.md R100). -/
theorem cycleItem_start (t : State) (h : t.rx.inbox = []) (hd : t.dioOut = true) (hc : t.clkOut = true)
    (ha : t.rx.ackBit = false) : cycleItem t (driveItem .dio false) =
    { t with dioOut := false, rx := t.rx.start, trace := drives .dio false :: t.trace } := by
  have e : emitAction (.drive .dio false) t =
      { t with dioOut := false, rx := t.rx.start, trace := drives .dio false :: t.trace } := by
    simp [emitAction, hear, pinEffect, logEvent, hd, hc, ha]
  rw [driveItem, cycleItem_emit _ _ (by rw [e]; exact h), e]

/-- DIO is driven high while the receiver is in no frame: it hears nothing. -/
theorem cycleItem_dio_high (t : State) (h : t.rx.inbox = []) (hf : t.rx.inFrame = false) : cycleItem t (driveItem .dio true) =
    { t with dioOut := true, trace := drives .dio true :: t.trace } := by
  have e : emitAction (.drive .dio true) t = { t with dioOut := true, trace := drives .dio true :: t.trace } := by
    cases hd : t.dioOut <;> cases hc : t.clkOut <;> cases ha : t.rx.ackBit <;>
      simp [emitAction, hear, hearStop, pinEffect, logEvent, hd, hc, ha, hf]
  rw [driveItem, cycleItem_emit _ _ (by rw [e]; exact h), e]

/-- After the start a frame is open and no byte sent (40_bus_protocol.md R100). -/
theorem inFrame_start (s : State) (h : StartReady s) : InFrame s (startItems.foldl cycleItem s) [] [] := by
  obtain ⟨h1, h3, hf, ha, hb⟩ := h
  have e : startItems.foldl cycleItem s = { s with
      clkOut := false
      dioOut := false
      rx := s.rx.start
      trace := [drives .clk false, drives .dio false, drives .dio true, drives .clk true] ++ s.trace } := by
    have hr : s.rx.start.clockFall = s.rx.start := by simp [Receiver.clockFall, Receiver.start, ha]
    have h0 : clkHeard true s = s.rx := by simp [clkHeard, Receiver.clockRise, hf]
    simp only [startItems, List.foldl_cons, List.foldl_nil]
    rw [cycleItem_clk s true hb, h0]
    simp [cycleItem_clk, cycleItem_dio_high, cycleItem_start, clkHeard, hb, ha, hf, hr, show s.rx.start.inbox = [] from hb]
  rw [e]
  constructor <;> simp [Receiver.start, bytesTrace, *]

/-- A data bit of a byte but for the first: the receiver samples it at the rising edge (40_bus_protocol.md R102). -/
theorem foldl_bitItems (t : State) (v : Bool) (hf : t.rx.inFrame = true) (ha : t.rx.ackBit = false)
    (hl : t.rx.bits.length ≠ 8) (hb : t.rx.inbox = []) :
    (bitItems v).foldl cycleItem t = { t with
      clkOut := true
      dioOut := v
      rx := { t.rx with bits := t.rx.bits ++ [v] }
      trace := [drives .clk true, drives .dio v, drives .clk false] ++ t.trace } := by
  have hfall : clkHeard false t = t.rx := by simp [clkHeard, Receiver.clockFall, ha]
  simp only [bitItems, List.foldl_cons, List.foldl_nil]
  rw [cycleItem_clk t false hb, hfall]
  simp [cycleItem_clk, cycleItem_dio, hb, clkHeard, Receiver.clockRise, hf, hl]

/-- The first data bit of a byte: the byte before it, if any, is complete as CLK falls (40_bus_protocol.md R102, R103). -/
theorem foldl_bitItems_first (s t : State) (done : List Byte) (acks : List Bool) (v : Bool) (h : InFrame s t done acks) :
    (bitItems v).foldl cycleItem t = { t with
      clkOut := true
      dioOut := v
      rx := { t.rx with ackBit := false, bits := [v], bytes := done }
      trace := [drives .clk true, drives .dio v, drives .clk false] ++ t.trace } := by
  have hf := h.inFrame
  have hb := h.inbox
  rcases h.phase with ⟨hc, ha, hbits, hd⟩ | ⟨hc, ha, hbits, hd⟩
  · rw [foldl_bitItems t v hf ha (by simp [hbits]) hb]
    simp [hbits, ← hd, ha]
  · have hfall : clkHeard false t = { t.rx with ackBit := false, bits := [], bytes := done } := by
      simp [clkHeard, Receiver.clockFall, ha, hc, hd]
    simp only [bitItems, List.foldl_cons, List.foldl_nil]
    rw [cycleItem_clk t false hb, hfall]
    simp [cycleItem_clk, cycleItem_dio, hb, clkHeard, Receiver.clockRise, hf]

/-- The data phase: eight bits, bit 0 first (40_bus_protocol.md R102). -/
theorem foldl_dataPhase (s t : State) (done : List Byte) (acks : List Bool) (b : Byte) (h : InFrame s t done acks) :
    (dataPhase b).foldl cycleItem t = { t with
      clkOut := true
      dioOut := b.getLsbD 7
      rx := { t.rx with
        ackBit := false
        bits := [b.getLsbD 0, b.getLsbD 1, b.getLsbD 2, b.getLsbD 3, b.getLsbD 4, b.getLsbD 5, b.getLsbD 6, b.getLsbD 7]
        bytes := done }
      trace := (dataTrace b).reverse ++ t.trace } := by
  have e : dataPhase b = bitItems (b.getLsbD 0) ++ (bitItems (b.getLsbD 1) ++ (bitItems (b.getLsbD 2) ++
      (bitItems (b.getLsbD 3) ++ (bitItems (b.getLsbD 4) ++ (bitItems (b.getLsbD 5) ++ (bitItems (b.getLsbD 6) ++
        bitItems (b.getLsbD 7))))))) := rfl
  have hf := h.inFrame
  have hb := h.inbox
  have hr : List.range 8 = [0, 1, 2, 3, 4, 5, 6, 7] := rfl
  simp only [e, List.foldl_append, foldl_bitItems_first s t done acks _ h]
  simp [foldl_bitItems, hf, hb, hr, dataTrace]

/-- The acknowledgment phase of a byte: the bit the outside supplies is sampled, DIO is an output again at the end and CLK
is still high (40_bus_protocol.md R103). -/
theorem foldl_ackPhase (t : State) (a : Bool) (rest : List Bool) (hc : t.clkOut = true) (hd : t.dioOe = true)
    (hf : t.rx.inFrame = true) (ha : t.rx.ackBit = false) (hl : t.rx.bits.length = 8) (hb : t.rx.inbox = [])
    (hi : t.dioIn = a :: rest) :
    ∃ latch draws, ackPhase.foldl cycleItem t = { t with
      dioOut := latch
      draws := draws
      status := t.status.recordAck a
      rx := { t.rx with ackBit := true, spoiled := t.rx.spoiled || a }
      dioIn := rest
      trace := (ackTrace a).reverse ++ t.trace } := by
  have hfall : clkHeard false t = t.rx := by simp [clkHeard, Receiver.clockFall, ha]
  cases hk : t.params.latchKept <;> cases a <;>
  · simp only [ackPhase, List.foldl_cons, List.foldl_nil]
    rw [cycleItem_clk t false hb, hfall]
    simp [cycleItem_clk, cycleItem_dio, hb, clkHeard, Receiver.clockRise, hf, hl]
    simp [cycleItem, cycle, perform, ackBranch, ackLowItems, driveItem, emitAction, hear, pinEffect, logEvent, sampleAck,
      sampleDio, drain_empty, Status.recordAck, hk, hi, hc, hd, ackTrace]

/-- After a byte the frame holds it and its sampled bit (40_bus_protocol.md R102, R103). -/
theorem inFrame_byte (s t : State) (done : List Byte) (acks : List Bool) (b : Byte) (a : Bool) (rest : List Bool)
    (h : InFrame s t done acks) (hi : t.dioIn = a :: rest) :
    InFrame s ((writeByte b).foldl cycleItem t) (done ++ [b]) (acks ++ [a]) ∧
      ((writeByte b).foldl cycleItem t).dioIn = rest := by
  have hd := foldl_dataPhase s t done acks b h
  obtain ⟨latch, draws, e⟩ := foldl_ackPhase ((dataPhase b).foldl cycleItem t) a rest (by rw [hd])
    (by rw [hd]; exact h.dioOe) (by rw [hd]; exact h.inFrame) (by rw [hd]) (by rw [hd]; rfl) (by rw [hd]; exact h.inbox)
    (by rw [hd]; exact hi)
  rw [writeByte, List.foldl_append, e, hd]
  refine ⟨⟨h.clkOe, h.dioOe, h.inFrame, h.inbox, ?_, .inr ⟨rfl, rfl, rfl, ?_⟩, h.ptr, h.mode, h.dctrl, h.ram, ?_, ?_, ?_,
    h.params, h.cmd, h.seq, h.inputs, h.reads, h.frames, ?_⟩, rfl⟩
  · simp [h.spoiled]
  · exact congrArg (fun x => done ++ [x]) (byteOfBits_bits b)
  · simp [h.status]
  · simp [h.trace, bytesTrace_snoc _ _ _ _ h.count, byteTrace]
  · simp [h.dioIn, hi]
  · simp [h.count]

/-- After bytes the frame holds them and their sampled bits. -/
theorem inFrame_bytes (bytes : List Byte) (acks rest : List Bool) (s t : State) (done : List Byte) (old : List Bool)
    (h : InFrame s t done old) (hl : acks.length = bytes.length) (hi : t.dioIn = acks ++ rest) :
    InFrame s ((bytes.flatMap writeByte).foldl cycleItem t) (done ++ bytes) (old ++ acks) ∧
      ((bytes.flatMap writeByte).foldl cycleItem t).dioIn = rest := by
  induction bytes generalizing acks t done old with
  | nil =>
    obtain rfl := List.length_eq_zero_iff.mp hl
    simpa using ⟨h, hi⟩
  | cons b bytes ih =>
    cases acks with
    | nil => simp at hl
    | cons a acks =>
      obtain ⟨h1, hi1⟩ := inFrame_byte s t done old b a (acks ++ rest) h (by simpa using hi)
      have := ih acks _ _ _ h1 (by simpa using hl) hi1
      simpa [List.flatMap_cons, List.foldl_append] using this

/-! ## The end of a frame -/

/-- `u` is the state after the frame `bytes` that began in `s`, with the bits `acks` sampled. -/
structure AfterFrame (s u : State) (bytes : List Byte) (acks rest : List Bool) : Prop where
  ready : BusReady u
  status : u.status = s.status.afterAcks acks
  trace : u.trace = (frameTrace bytes acks).reverse ++ s.trace
  frames : u.frames = bytes :: s.frames
  dioIn : u.dioIn = rest
  params : u.params = s.params
  cmd : u.cmd = s.cmd
  seq : u.seq = s.seq
  inputs : u.inputs = s.inputs
  reads : u.reads = s.reads
  receiver : acks.any id = false → u.rx.agrees (s.rx.readFrame bytes) ∧ u.rx.ptr = (s.rx.readFrame bytes).ptr

@[simp] theorem take_inFrame (r : Receiver) (b : Byte) : (r.take b).inFrame = r.inFrame := by
  unfold Receiver.take Receiver.takeFirst Receiver.takeData
  repeat' split
  all_goals rfl

@[simp] theorem take_ackBit (r : Receiver) (b : Byte) : (r.take b).ackBit = r.ackBit := by
  unfold Receiver.take Receiver.takeFirst Receiver.takeData
  repeat' split
  all_goals rfl

/-- What no byte read changes, no bytes read change. -/
theorem foldl_take_front {α : Type} (bytes : List Byte) (r : Receiver) (f : Receiver → α)
    (h : ∀ r b, f (Receiver.take r b) = f r) : f (bytes.foldl Receiver.take r) = f r := by
  induction bytes generalizing r with
  | nil => rfl
  | cons b bytes ih => rw [List.foldl_cons, ih, h]

/-- Receivers alike in position, pointer and registers read a byte alike (30_encoding.md R78). -/
theorem foldl_take_congr (bytes : List Byte) (r q : Receiver) (hp : r.pos = q.pos) (hx : r.ptr = q.ptr)
    (ha : r.agrees q) :
    (bytes.foldl Receiver.take r).agrees (bytes.foldl Receiver.take q) ∧
      (bytes.foldl Receiver.take r).ptr = (bytes.foldl Receiver.take q).ptr := by
  induction bytes generalizing r q with
  | nil => exact ⟨ha, hx⟩
  | cons b bytes ih =>
    obtain ⟨_, _, _, _, _, _, pos, ptr, mode, dctrl, ram⟩ := r
    obtain ⟨_, _, _, _, _, _, pos', ptr', mode', dctrl', ram'⟩ := q
    obtain ⟨rfl, rfl, rfl⟩ := ha
    simp only at hp hx
    subst hp hx
    apply ih <;> cases pos
    all_goals
      simp only [Receiver.take, Receiver.takeFirst, Receiver.takeData, Receiver.agrees, Receiver.storeAddr]
    all_goals first | split_ifs <;> simp | simp

/-- The stop of a frame (40_bus_protocol.md R101): the bus is idle again and the receiver reads the frame. -/
theorem afterFrame_stop (s t : State) (bytes : List Byte) (acks : List Bool) (h : InFrame s t bytes acks) :
    AfterFrame s (stopItems.foldl cycleItem t) bytes acks t.dioIn := by
  have hb := h.inbox
  have hf := h.inFrame
  obtain ⟨r1, hfall, ha1, hbits1, hbytes1, hin1, hib1, hsp1, hptr1, hm1, hdc1, hram1⟩ : ∃ r1, clkHeard false t = r1 ∧
      r1.ackBit = false ∧ r1.bits = [] ∧ r1.bytes = bytes ∧ r1.inFrame = true ∧ r1.inbox = [] ∧ r1.spoiled = acks.any id ∧
      r1.ptr = s.rx.ptr ∧ r1.mode = s.rx.mode ∧ r1.dctrl = s.rx.dctrl ∧ r1.ram = s.rx.ram := by
    refine ⟨_, rfl, ?_⟩
    rcases h.phase with ⟨hc, ha, hbits, hd⟩ | ⟨hc, ha, hbits, hd⟩ <;>
      simp [clkHeard, Receiver.clockFall, hc, ha, hbits, hd, hf, hb, h.spoiled, h.ptr, h.mode, h.dctrl, h.ram]
  have hrise : r1.clockRise false = { r1 with bits := [false] } := by simp [Receiver.clockRise, hin1, hbits1]
  have e : stopItems.foldl cycleItem t = cycleItem { t with
      clkOut := true
      dioOut := false
      rx := { r1 with bits := [false] }
      trace := [drives .clk true, drives .dio false, drives .clk false] ++ t.trace } (driveItem .dio true) := by
    simp only [stopItems, List.foldl_cons, List.foldl_nil]
    rw [cycleItem_clk t false hb, hfall]
    simp [cycleItem_clk, cycleItem_dio, hib1, clkHeard, hrise]
  rw [e]
  have htrace : (frameTrace bytes acks).reverse ++ s.trace = [drives .dio true, drives .clk true, drives .dio false,
      drives .clk false] ++ t.trace := by
    simp [frameTrace, startTrace, stopTrace, h.trace]
  have hready : ∀ r : Receiver, ∀ n tr fr, r.inFrame = false → r.ackBit = false → r.inbox = [] →
      BusReady { t with clkOut := true, dioOut := true, rx := r, draws := n, trace := tr, frames := fr } :=
    fun r _ _ _ h1 h2 h3 => ⟨by simp [State.pins, h.clkOe, h.dioOe], h1, h2, h3⟩
  cases hs : acks.any id with
  | true =>
    have e2 : cycleItem { t with
        clkOut := true
        dioOut := false
        rx := { r1 with bits := [false] }
        trace := [drives .clk true, drives .dio false, drives .clk false] ++ t.trace } (driveItem .dio true) = { t with
        clkOut := true
        dioOut := true
        rx := (({ r1 with bits := [false] } : Receiver).unknown t.draws).endFrame
        draws := t.draws + 1
        trace := (frameTrace bytes acks).reverse ++ s.trace
        frames := bytes :: t.frames } := by
      rw [htrace, driveItem, cycleItem_emit]
      · simp [emitAction, hear, hearStop, pinEffect, logEvent, ha1, hin1, hsp1, hs, hbytes1]
      · simp [emitAction, hear, hearStop, pinEffect, logEvent, ha1, hin1, hsp1, hs, hib1, Receiver.endFrame,
          Receiver.unknown]
    rw [e2]
    exact ⟨hready _ _ _ _ rfl rfl hib1, h.status, rfl, by simp [h.frames], rfl, h.params, h.cmd, h.seq, h.inputs, h.reads,
      by simp [hs]⟩
  | false =>
    have e2 : cycleItem { t with
        clkOut := true
        dioOut := false
        rx := { r1 with bits := [false] }
        trace := [drives .clk true, drives .dio false, drives .clk false] ++ t.trace } (driveItem .dio true) = { t with
        clkOut := true
        dioOut := true
        rx := bytes.foldl Receiver.take { ({ r1 with pos := .first } : Receiver).endFrame with inbox := [] }
        trace := (frameTrace bytes acks).reverse ++ s.trace
        frames := bytes :: t.frames } := by
      rw [htrace]
      simp [driveItem, cycleItem, cycle, ackBranch, perform, emitAction, hear, hearStop, pinEffect, logEvent, drain, ha1,
        hin1, hsp1, hs, hbytes1, Receiver.endFrame]
    rw [e2]
    refine ⟨hready _ _ _ _ ?_ ?_ (foldl_take_inbox _ _), h.status, rfl, by simp [h.frames], rfl, h.params, h.cmd, h.seq,
      h.inputs, h.reads, fun _ => foldl_take_congr _ _ _ rfl hptr1 ⟨hm1, hdc1, hram1⟩⟩
    · exact foldl_take_front bytes _ Receiver.inFrame (fun _ _ => by simp)
    · exact foldl_take_front bytes _ Receiver.ackBit (fun _ _ => by simp)

/-- The run of a frame. -/
theorem afterFrame (s : State) (bytes : List Byte) (acks rest : List Bool) (h : StartReady s)
    (hl : acks.length = bytes.length) (hi : s.dioIn = acks ++ rest) :
    AfterFrame s ((frameItems bytes).foldl cycleItem s) bytes acks rest := by
  have h0 := inFrame_start s h
  have hi0 : (startItems.foldl cycleItem s).dioIn = acks ++ rest := by rw [← hi, h0.dioIn]; rfl
  obtain ⟨h1, hi1⟩ := inFrame_bytes bytes acks rest s _ [] [] h0 hl hi0
  have h2 := afterFrame_stop s _ bytes acks (by simpa using h1)
  rw [hi1] at h2
  simpa [frameItems, List.foldl_append] using h2

/-- `u` is the state after frames that began in `s`, with the bits `acks` sampled. -/
structure AfterFrames (s u : State) (fs : List (List Byte)) (acks rest : List Bool) : Prop where
  ready : BusReady u
  status : u.status = s.status.afterAcks acks
  trace : u.trace = (framesTrace fs acks).reverse ++ s.trace
  frames : u.frames = fs.reverse ++ s.frames
  dioIn : u.dioIn = rest
  params : u.params = s.params
  cmd : u.cmd = s.cmd
  seq : u.seq = s.seq
  inputs : u.inputs = s.inputs
  reads : u.reads = s.reads
  receiver : acks.any id = false → u.rx.agrees (s.rx.readFrames fs) ∧ u.rx.ptr = (s.rx.readFrames fs).ptr

theorem afterAcks_append (st : Status) (a b : List Bool) : (st.afterAcks a).afterAcks b = st.afterAcks (a ++ b) := by
  cases b using List.reverseRecOn with
  | nil => simp
  | append_singleton b x => simp [Status.afterAcks, ← List.append_assoc, Bool.or_assoc]

/-- Receivers alike in pointer and registers read frames alike (30_encoding.md R78). -/
theorem readFrames_congr (fs : List (List Byte)) (r q : Receiver) (hx : r.ptr = q.ptr) (ha : r.agrees q) :
    (r.readFrames fs).agrees (q.readFrames fs) ∧ (r.readFrames fs).ptr = (q.readFrames fs).ptr := by
  induction fs generalizing r q with
  | nil => exact ⟨ha, hx⟩
  | cons f fs ih =>
    obtain ⟨h1, h2⟩ := foldl_take_congr f { r with pos := .first } { q with pos := .first } rfl hx ha
    exact ih _ _ h2 h1

theorem agrees_trans {r q p : Receiver} (h : r.agrees q) (h' : q.agrees p) : r.agrees p :=
  ⟨h.1.trans h'.1, h.2.1.trans h'.2.1, h.2.2.trans h'.2.2⟩

/-- The run of frames one after another. -/
theorem afterFrames (fs : List (List Byte)) (s : State) (acks rest : List Bool) (h : BusReady s)
    (hl : acks.length = byteCount fs) (hi : s.dioIn = acks ++ rest) :
    AfterFrames s ((framesItems fs).foldl cycleItem s) fs acks rest := by
  induction fs generalizing s acks with
  | nil =>
    obtain rfl := List.length_eq_zero_iff.mp hl
    exact ⟨h, by simp [framesItems], by simp [framesItems, framesTrace], by simp [framesItems], by simpa [framesItems] using hi,
      rfl, rfl, rfl, rfl, rfl, fun _ => ⟨⟨rfl, rfl, rfl⟩, rfl⟩⟩
  | cons f fs ih =>
    have hl' : f.length + byteCount fs = acks.length := by simpa [byteCount] using hl.symm
    obtain ⟨a1, a2, rfl, h1⟩ : ∃ a1 a2, acks = a1 ++ a2 ∧ a1.length = f.length :=
      ⟨acks.take f.length, acks.drop f.length, (List.take_append_drop _ _).symm, by simp; omega⟩
    have h2 : a2.length = byteCount fs := by simp at hl'; omega
    have hf := afterFrame s f a1 (a2 ++ rest) h.startReady h1 (by simpa using hi)
    have hr := ih _ a2 hf.ready h2 hf.dioIn
    have e : (framesItems (f :: fs)).foldl cycleItem s =
        (framesItems fs).foldl cycleItem ((frameItems f).foldl cycleItem s) := by
      simp [framesItems, List.foldl_append]
    rw [e]
    refine ⟨hr.ready, ?_, ?_, ?_, hr.dioIn, hr.params.trans hf.params, hr.cmd.trans hf.cmd, hr.seq.trans hf.seq,
      hr.inputs.trans hf.inputs, hr.reads.trans hf.reads, fun ha => ?_⟩
    · rw [hr.status, hf.status, afterAcks_append]
    · rw [hr.trace, hf.trace]
      have e1 : frameTrace f (a1 ++ a2) = frameTrace f a1 := by
        have : ∀ (bs : List Byte) (x : List Bool), x.length = bs.length → bytesTrace bs (x ++ a2) = bytesTrace bs x := by
          intro bs
          induction bs with
          | nil => intro x hx; rfl
          | cons b bs ihb =>
            intro x hx
            cases x with
            | nil => simp at hx
            | cons y x => simp [bytesTrace, ihb x (by simpa using hx)]
        simp [frameTrace, this f a1 h1]
      simp [framesTrace, e1, ← h1]
    · simp [hr.frames, hf.frames]
    · simp only [List.any_append, Bool.or_eq_false_iff] at ha
      obtain ⟨hr1, hr2⟩ := hr.receiver ha.2
      obtain ⟨hf1, hf2⟩ := hf.receiver ha.1
      obtain ⟨hc1, hc2⟩ := readFrames_congr fs _ _ hf2 hf1
      exact ⟨agrees_trans hr1 hc1, hr2.trans hc2⟩

/-! ## Requests that put frames on the wire -/

theorem framesItems_ne_nil (fs : List (List Byte)) (h : fs ≠ []) : framesItems fs ≠ [] := by
  cases fs with
  | nil => exact absurd rfl h
  | cons f fs => simp [framesItems, frameItems, startItems]

theorem busReady_of_ready (s : State) (h : Ready s) : BusReady s := ⟨h.pins, h.inFrame, h.ackBit, h.inbox⟩

/-- An idle engine accepts a request offered to it (42_display_ops.md R160). -/
theorem offer_idle (i : Instr) (body : List Item) (s : State) (h : s.seq = .idle) : offer i body s = accept i body s := by
  simp [offer, h]

/-- An accepted request whose body is frames, perhaps after an update of CMD, runs to completion. -/
theorem completesWith_frames (i : Instr) (fs : List (List Byte)) (cmds : List Byte) (s : State) (h : Ready s)
    (hin : HostWaits s) (hne : fs ≠ [])
    (he : exec i s = .next (accept i (cmds.map .setCmd ++ framesItems fs) s)) :
    CompletesWith i s fs (cmds.getLastD s.cmd) := by
  intro acks rest hl hi
  obtain ⟨c, hc⟩ : ∃ c, cmds.getLastD s.cmd = c := ⟨_, rfl⟩
  have hfold : ∀ (cs : List Byte) (t : State), t.rx.inbox = [] →
      (cs.map Item.setCmd).foldl cycleItem t = { t with cmd := cs.getLastD t.cmd } := by
    intro cs
    induction cs with
    | nil => intro t _; rfl
    | cons d cs ih =>
      intro t hb
      have e : cycleItem t (.setCmd d) = { t with cmd := d } := by
        simp [cycleItem, ackBranch, cycle, perform]
        exact drain_empty _ hb
      simp only [List.map_cons, List.foldl_cons, e, ih { t with cmd := d } hb]
      cases cs <;> simp [List.getLastD]
  set t := accept i (cmds.map .setCmd ++ framesItems fs) s with ht
  obtain ⟨q, hsteps, -, hq⟩ := steps_items (cmds.map .setCmd ++ framesItems fs) [] t h.inbox hin (by simp [ht])
    (by simp [ht, Seq.pending]) (by simp [framesItems_ne_nil fs hne])
  obtain rfl := hq.mpr rfl
  rw [List.foldl_append, hfold cmds t h.inbox] at hsteps
  have hf := afterFrames fs { t with cmd := cmds.getLastD t.cmd } acks rest ⟨h.pins, h.inFrame, h.ackBit, h.inbox⟩ hl hi
  refine ⟨t, _, he, ⟨_, rfl⟩, hsteps, ?_⟩
  refine ⟨⟨rfl, rfl, hf.ready.pins, hf.ready.inFrame, hf.ready.ackBit, hf.ready.inbox⟩, hf.cmd, ?_, hf.frames, hf.trace,
    hf.dioIn, hf.params, hf.inputs, hf.reads⟩
  simp only [withSeq, hf.status]
  rfl

end Sys2Proof.Machine
end

