-- ==== Sys2Proof/Laws/Requests.lean ====
section
/-! SUPPORT. What a request's meaning can do, and what a step can do, each said once. -/

namespace Sys2Proof.Machine

/-- The body of a request (42_display_ops.md R162 to R180). -/
def requestBody (p : Params) : Instr → List Item
  | .init b => bodyInit b
  | .rsym d c raw => bodyRsym p d c raw
  | .rhex v => bodyRhex p v
  | .rint v dec => bodyRint p v dec
  | .setdp on => bodySetdp on
  | .clear => bodyClear
  | .setbr l => bodySetbr l
  | .pwroff => bodyPwroff
  | .clrsts => bodyClrsts
  | .dataAuto | .dataFixed | .dispOff | .dispOn _ | .addr _ | .segData _ | .dpData _ => []

/-- What a request writes to CMD, at the start of its body (10_state.md R24). -/
def requestCmds : Instr → List Byte
  | .init b => [dispOn b]
  | .setbr l => [dispOn l]
  | .pwroff => [dispOffByte]
  | .rsym _ _ _ | .rhex _ | .rint _ _ | .setdp _ | .clear | .clrsts | .dataAuto | .dataFixed | .dispOff | .dispOn _
  | .addr _ | .segData _ | .dpData _ => []

/-- A request's meaning: refused where the model gives none, else offered to the engine with its body. -/
theorem exec_request (i : Instr) (s : State) (h : i.isRequest = true) :
    exec i s = if refusedRequest s.params i then .refused .hexNotClamped
      else .next (offer i (requestBody s.params i) s) := by
  cases i <;> first | rfl | simp [Instr.isRequest] at h

/-- A request's body is its updates of CMD and its frames, but for CLRSTS's (42_display_ops.md R162 to R180). -/
theorem requestBody_eq (p : Params) (i : Instr) (h : i.isRequest = true) (hc : i ≠ .clrsts) :
    requestBody p i = (requestCmds i).map .setCmd ++ framesItems (requestFrames p i) := by
  cases i with
  | init b => simp [requestBody, bodyInit, bodySetbr, bodyClear, requestCmds, requestFrames, framesInit, framesItems]
  | rsym | rhex | rint | setdp | clear | setbr | pwroff => rfl
  | clrsts => exact absurd rfl hc
  | dataAuto | dataFixed | dispOff | dispOn | addr | segData | dpData => simp [Instr.isRequest] at h

/-- Every body has an item. -/
theorem requestBody_ne_nil (p : Params) (i : Instr) (h : i.isRequest = true) : requestBody p i ≠ [] := by
  cases i with
  | init | setbr | pwroff | clrsts | clear | rsym | rhex | rint | setdp =>
    simp [requestBody, bodyInit, bodyRsym, bodyRhex, bodyRint, bodySetdp, bodyClear, bodySetbr, bodyPwroff, bodyClrsts,
      framesRsym, framesRhex, framesRint, framesSetdp, framesClear, fixedWrite, autoWrite, framesItems, frameItems, startItems]
  | dataAuto | dataFixed | dispOff | dispOn | addr | segData | dpData => simp [Instr.isRequest] at h

/-- A decoded request word is a request. -/
theorem isRequest_of_decodeRequest (w : Word) (i : Instr) (h : decodeRequest w = some i) : i.isRequest = true := by
  simp only [decodeRequest, Option.map_eq_some_iff] at h
  obtain ⟨r, hr, rfl⟩ := h
  have hm := List.mem_of_find?_eq_some hr
  simp only [requestRows, List.mem_cons, List.not_mem_nil, or_false] at hm
  rcases hm with rfl | rfl | rfl | rfl | rfl | rfl | rfl | rfl | rfl <;> rfl

/-- Everything a step that answers a next state can do: the receiver reads a byte; an idle engine accepts a request, or an
illegal word; the host reads a register; reset begins; the engine performs its next item, or idles. -/
theorem step_cases (s t : State) (h : step s = .next t) :
    (∃ b rest, s.rx.inbox = b :: rest ∧ t = receiveByte b { s with rx := { s.rx with inbox := rest } }) ∨
    (∃ w rest i, s.rx.inbox = [] ∧ s.inputs = .write 0 w :: rest ∧ s.seq = .idle ∧ decodeRequest w = some i ∧
      i.isRequest = true ∧ refusedRequest s.params i = false ∧
      t = accept i (requestBody s.params i) { s with inputs := rest }) ∨
    (∃ w rest, s.rx.inbox = [] ∧ s.inputs = .write 0 w :: rest ∧ s.seq = .idle ∧ decodeRequest w = none ∧
      t = raiseIllegalRequest { s with inputs := rest }) ∨
    (∃ n v rest, s.rx.inbox = [] ∧ s.inputs = .read n :: rest ∧
      t = { s with inputs := rest, reads := (n, v) :: s.reads }) ∨
    (∃ rest, s.rx.inbox = [] ∧ s.inputs = .reset :: rest ∧ t = beginReset { s with inputs := rest }) ∨
    (∃ ins, s.rx.inbox = [] ∧ (∀ rest, s.inputs ≠ .reset :: rest) ∧ t = engineStep { s with inputs := ins }) := by
  cases hb : s.rx.inbox with
  | cons b rest =>
    rw [step_byte s b rest hb] at h
    exact .inl ⟨b, rest, rfl, by simpa using h.symm⟩
  | nil =>
    refine .inr ?_
    cases hi : s.inputs with
    | nil =>
      rw [step_engine s hb hi] at h
      have e : ({ s with inputs := [] } : State) = s := by rw [← hi]
      exact .inr (.inr (.inr (.inr ⟨[], rfl, by simp, by rw [e]; simpa using h.symm⟩)))
    | cons x rest =>
      rw [step_input s x rest hb hi] at h
      cases x with
      | write n w =>
        by_cases hn : n = 0
        · subst hn
          cases hq : s.seq with
          | idle =>
            cases hd : decodeRequest w with
            | none => exact .inr (.inl ⟨w, rest, rfl, rfl, rfl, hd, by simpa [stepInput, hq, stepRequest, hd] using h.symm⟩)
            | some i =>
              have hr := isRequest_of_decodeRequest w i hd
              simp only [stepInput, if_true, hq, stepRequest, hd, exec_request i _ hr] at h
              split at h
              · simp at h
              · rename_i hf
                refine .inl ⟨w, rest, i, rfl, rfl, rfl, hd, hr, by simpa using hf, ?_⟩
                simpa [offer, hq] using h.symm
          | run | reset =>
            simp only [stepInput, if_true, hq] at h
            obtain rfl : engineStep s = t := by simpa using h
            exact .inr (.inr (.inr (.inr ⟨s.inputs, rfl, by simp, by rw [← hq]⟩)))
        · simp [stepInput, hn] at h
      | read n =>
        refine .inr (.inr (.inl ?_))
        simp only [stepInput, hostRead] at h
        split at h
        · exact ⟨n, _, rest, rfl, rfl, by simpa using h.symm⟩
        · simp at h
      | reset => exact .inr (.inr (.inr (.inl ⟨rest, rfl, rfl, by simpa [stepInput] using h.symm⟩)))
      | quiet => exact .inr (.inr (.inr (.inr ⟨rest, rfl, by simp, by simpa [stepInput] using h.symm⟩)))

end Sys2Proof.Machine
end

