-- ==== Sys2Proof/Laws/Items.lean ====
section
/-! SUPPORT. The item lists: what kinds of items they hold, and that they keep the rules of the bus (40_bus_protocol.md
R110). -/

namespace Sys2Proof.Machine

/-- The item is a wire event: an action or the acknowledgment sample. -/
def Item.isWire : Item → Bool
  | .emit _ | .sampleAck => true
  | .setCmd _ | .clearNack | .clearErr => false

/-- Frames are wire events only. -/
theorem framesItems_isWire (fs : List (List Byte)) : ∀ it ∈ framesItems fs, it.isWire = true := by
  intro it h
  simp only [framesItems, List.mem_flatMap, frameItems, List.mem_append, writeByte, dataPhase, bitItems] at h
  obtain ⟨f, -, (h | ⟨b, -, ⟨i, -, h⟩ | h⟩) | h⟩ := h <;>
    simp only [startItems, stopItems, ackPhase, driveItem, List.mem_cons, List.not_mem_nil, or_false] at h <;>
    rcases h with rfl | rfl | rfl | rfl | rfl | rfl | rfl | rfl | rfl <;> rfl

/-- The updates of CMD in a request's body (10_state.md R24). -/
theorem setCmd_mem_requestBody (p : Params) (i : Instr) (h : i.isRequest = true) (v : Byte) :
    .setCmd v ∈ requestBody p i ↔ v ∈ requestCmds i := by
  by_cases hc : i = .clrsts
  · subst hc; simp [requestBody, bodyClrsts, requestCmds]
  · rw [requestBody_eq p i h hc]
    have := framesItems_isWire (requestFrames p i) (.setCmd v)
    simp only [List.mem_append, List.mem_map, Item.setCmd.injEq, exists_eq_right]
    exact or_iff_left fun hm => by simp [Item.isWire] at this; exact this hm

/-- Only CLRSTS clears a sticky bit (10_state.md R30). -/
theorem clear_mem_requestBody (p : Params) (i : Instr) (h : i.isRequest = true) (hc : i ≠ .clrsts) :
    .clearNack ∉ requestBody p i ∧ .clearErr ∉ requestBody p i := by
  rw [requestBody_eq p i h hc]
  have h1 := framesItems_isWire (requestFrames p i) .clearNack
  have h2 := framesItems_isWire (requestFrames p i) .clearErr
  simp only [Item.isWire, Bool.false_eq_true, imp_false] at h1 h2
  simp [h1, h2]

/-- What a reset sequence holds (70_reset_and_hazards.md R230). -/
theorem resetItems_eq : resetItems = .emit (.modeOut .clk) :: .emit (.modeOut .dio) :: .setCmd 0x8A ::
    framesItems (framesInit brightDefault) := by
  simp [resetItems, bodyInit, bodySetbr, bodyClear, framesInit, framesItems]
  decide

/-- What an acknowledgment sample adds is wire events only (40_bus_protocol.md R103). -/
theorem ackBranch_isWire (it : Item) (s : State) : ∀ x ∈ ackBranch it s, x.isWire = true := by
  cases it with
  | sampleAck => cases h : s.status.lastAck <;> simp [ackBranch, h, ackLowItems, driveItem, Item.isWire]
  | emit | setCmd | clearNack | clearErr => simp [ackBranch]

/-- A request that runs after the sequencer has moved on is the one that ran before, with the items that remain. -/
theorem advance_run (q : Seq) (todo left : List Item) (req : Latched) (k : Nat) (h : q.advance todo = .run req k left) :
    left = todo ∧ ∃ j old, q = .run req j old := by
  cases todo <;> cases q <;> simp_all [Seq.advance]

/-- A reset that runs after the sequencer has moved on ran before, and has the items that remain. -/
theorem advance_reset (q : Seq) (todo left : List Item) (k : Nat) (h : q.advance todo = .reset k left) :
    left = todo ∧ ∃ j old, q = .reset j old := by
  cases todo <;> cases q <;> simp_all [Seq.advance]

/-! ## The bus -/

/-- What the acknowledgment sample adds keeps the rules of the bus. -/
theorem busPlan_ackBranch (s : State) (rest : List Item) (p : Pins) (h : busPlan (.sampleAck :: rest) p) :
    busPlan (ackBranch .sampleAck s ++ rest) p := by
  obtain ⟨-, h1, h2⟩ := h
  cases hs : s.status.lastAck with
  | true => simpa [ackBranch, hs] using h1
  | false => simpa [ackBranch, hs, ackLowItems, driveItem, busPlan, Pins.after] using h2

/-- The pins within a frame: both outputs. -/
abbrev Pins.driven (p : Pins) : Prop := p.clkOe = true ∧ p.dioOe = true

theorem busPlan_startItems (rest : List Item) (p : Pins) (h : p.driven) :
    busPlan (startItems ++ rest) p ↔ busPlan rest ⟨true, false, true, false⟩ := by
  obtain ⟨a, b, c, d⟩ := p
  obtain ⟨rfl, rfl⟩ := h
  simp [startItems, driveItem, busPlan, Pins.after]

theorem busPlan_stopItems (rest : List Item) (p : Pins) (h : p.driven) :
    busPlan (stopItems ++ rest) p ↔ busPlan rest Pins.idle := by
  obtain ⟨a, b, c, d⟩ := p
  obtain ⟨rfl, rfl⟩ := h
  simp [stopItems, driveItem, busPlan, Pins.after]

theorem busPlan_dataPhase (b : Byte) (rest : List Item) (p : Pins) (h : p.driven) :
    busPlan (dataPhase b ++ rest) p ↔ busPlan rest ⟨true, true, true, b.getLsbD 7⟩ := by
  obtain ⟨x, y, z, w⟩ := p
  obtain ⟨rfl, rfl⟩ := h
  simp [dataPhase, bitItems, driveItem, busPlan, Pins.after, List.range_succ]

theorem busPlan_ackPhase (rest : List Item) (p : Pins) (h : p.driven)
    (hr : ∀ q : Pins, q.driven → busPlan rest q) : busPlan (ackPhase ++ rest) p := by
  obtain ⟨x, y, z, w⟩ := p
  obtain ⟨rfl, rfl⟩ := h
  simp only [ackPhase, driveItem, List.cons_append, List.nil_append, busPlan, Pins.after, true_and, forall_const]
  exact fun latch => ⟨hr _ ⟨rfl, rfl⟩, hr _ ⟨rfl, rfl⟩⟩

/-- A frame may be sent from any levels and ends in the idle bus (40_bus_protocol.md R110). -/
theorem busPlan_frameItems (bytes : List Byte) (rest : List Item) (p : Pins) (h : p.driven)
    (hr : busPlan rest Pins.idle) : busPlan (frameItems bytes ++ rest) p := by
  rw [frameItems, List.append_assoc, List.append_assoc, busPlan_startItems _ _ h]
  suffices ∀ q : Pins, q.driven → busPlan (bytes.flatMap writeByte ++ (stopItems ++ rest)) q from this _ ⟨rfl, rfl⟩
  induction bytes with
  | nil => exact fun q hq => (busPlan_stopItems rest q hq).mpr hr
  | cons b bytes ih =>
    intro q hq
    rw [List.flatMap_cons, writeByte, List.append_assoc, List.append_assoc, busPlan_dataPhase _ _ _ hq]
    exact busPlan_ackPhase _ _ ⟨rfl, rfl⟩ ih

/-- Frames may be sent from the idle bus, or, if there is one, from any levels, and end in the idle bus. -/
theorem busPlan_framesItems (fs : List (List Byte)) (p : Pins) (h : p.driven) (hp : fs = [] → p = Pins.idle) :
    busPlan (framesItems fs) p := by
  induction fs generalizing p with
  | nil => exact hp rfl
  | cons f fs ih => exact busPlan_frameItems f _ p h (ih Pins.idle ⟨rfl, rfl⟩ fun _ => rfl)

/-- A request's body may be performed from the idle bus. -/
theorem busPlan_requestBody (p : Params) (i : Instr) (h : i.isRequest = true) : busPlan (requestBody p i) Pins.idle := by
  by_cases hc : i = .clrsts
  · subst hc; rfl
  · rw [requestBody_eq p i h hc]
    generalize requestCmds i = cmds
    induction cmds with
    | nil => exact busPlan_framesItems _ _ ⟨rfl, rfl⟩ fun _ => rfl
    | cons c cmds ih => exact ih

/-- The reset sequence may be performed from any pins. -/
theorem busPlan_resetItems (p : Pins) : busPlan resetItems p := by
  rw [resetItems_eq]
  intro _ _
  exact busPlan_framesItems _ _ ⟨rfl, rfl⟩ fun h => by simp [framesInit, framesSetbr, cmdWrite] at h

/-- What an action does to the pins (10_state.md R20, R23). -/
theorem pins_pinEffect (a : Action) (s : State) : ∃ latch, (pinEffect a s).pins = s.pins.after a latch := by
  cases a with
  | modeOut p => cases p <;> exact ⟨false, rfl⟩
  | drive p v => cases p <;> exact ⟨false, rfl⟩
  | wait => exact ⟨false, rfl⟩
  | modeIn =>
    cases hl : s.params.latchKept with
    | true => exact ⟨s.dioOut, by simp [pinEffect, State.pins, Pins.after, hl]⟩
    | false => exact ⟨Config.freeBit s.draws, by simp [pinEffect, State.pins, Pins.after, hl]⟩

/-- The pins after an event, whatever the receiver hears. -/
theorem pins_emitAction (a : Action) (s : State) : ∃ latch, (emitAction a s).pins = s.pins.after a latch := by
  obtain ⟨latch, h⟩ := pins_pinEffect a (hear a s)
  refine ⟨latch, ?_⟩
  have e : (hear a s).pins = s.pins := by simp [State.pins]
  rw [← e, ← h]
  rfl

/-- The pins after an event, exactly, but for the latch that `ModeIn(DIO)` leaves without `LATCH_KEPT` (10_state.md R23). -/
theorem pins_emitAction_eq (a : Action) (s : State) : (emitAction a s).pins =
    s.pins.after a (if s.params.latchKept then s.dioOut else (emitAction a s).dioOut) := by
  obtain ⟨p⟩ | _ | ⟨p, v⟩ | _ := a
  · cases p <;> simp [emitAction, pinEffect, State.pins, Pins.after]
  · cases h : s.params.latchKept <;> simp [emitAction, pinEffect, State.pins, Pins.after, h]
  · cases p <;> simp [emitAction, pinEffect, State.pins, Pins.after]
  · simp [emitAction, pinEffect, State.pins, Pins.after]

/-- An item performed keeps the plan of the bus, whatever is sampled and whatever the latch holds. -/
theorem busPlan_perform (it : Item) (rest : List Item) (s : State) (h : busPlan (it :: rest) s.pins) :
    busPlan (ackBranch it (perform it s) ++ rest) (perform it s).pins := by
  cases it with
  | sampleAck =>
    have e : (perform .sampleAck s).pins = s.pins := by simp [State.pins, perform]
    rw [e]
    exact busPlan_ackBranch _ _ _ h
  | setCmd | clearNack | clearErr => exact h
  | emit a =>
    obtain ⟨latch, e⟩ := pins_emitAction a s
    simp only [perform, ackBranch, List.nil_append]
    rw [e]
    cases a with
    | drive p v => cases p <;> first | exact h latch | exact h.2
    | modeOut | modeIn | wait => exact h latch

end Sys2Proof.Machine
end

