-- ==== Sys2Proof/Laws/Memory.lean ====
section
/-! SUPPORT. The receiver's RAM: a read after a write, and the canonical form, which every operation keeps. -/

namespace Sys2Proof.Machine

/-- Reading where an address is below every listed one finds nothing listed. -/
theorem Memory.read_of_lt (m : Memory) (a : Nat) (h : ∀ c ∈ m, a < c.1) : Memory.read m a = unlistedByte := by
  induction m with
  | nil => rfl
  | cons c m ih =>
    obtain ⟨k, b⟩ := c
    have hk : a < k := h (k, b) (by simp)
    rw [Memory.read, if_neg (by omega)]
    exact ih fun c hc => h c (by simp [hc])

/-- An address a write lists is the one written or was listed before. -/
theorem Memory.mem_write (m : Memory) (a : Nat) (v : Byte) (c : Host.Cell) (h : c ∈ Memory.write m a v) :
    (c = (a, v) ∧ v ≠ unlistedByte) ∨ c ∈ m := by
  induction m with
  | nil =>
    unfold Memory.write at h
    split at h
    · simp at h
    · simp_all
  | cons d m ih =>
    obtain ⟨k, b⟩ := d
    unfold Memory.write at h
    split at h
    · split at h
      · exact .inr h
      · obtain rfl | h := List.mem_cons.mp h
        · exact .inl ⟨rfl, ‹_›⟩
        · exact .inr h
    · split at h
      · split at h
        · exact .inr (List.mem_cons_of_mem _ h)
        · obtain rfl | h := List.mem_cons.mp h
          · exact .inl ⟨rfl, ‹_›⟩
          · exact .inr (List.mem_cons_of_mem _ h)
      · obtain rfl | h := List.mem_cons.mp h
        · exact .inr (by simp)
        · exact (ih h).imp_right (List.mem_cons_of_mem _)

/-- A write keeps the canonical form. -/
theorem Memory.write_wf (m : Memory) (a : Nat) (v : Byte) (h : Memory.wf m) : Memory.wf (Memory.write m a v) := by
  refine ⟨?_, fun c hc => ?_⟩
  · induction m with
    | nil => unfold Memory.write; split <;> simp
    | cons d m ih =>
      obtain ⟨k, b⟩ := d
      have hp := List.pairwise_cons.mp h.1
      have hm : Memory.wf m := ⟨hp.2, fun c hc => h.2 c (by simp [hc])⟩
      unfold Memory.write
      split
      · split
        · exact h.1
        · refine List.pairwise_cons.mpr ⟨fun c hc => ?_, h.1⟩
          obtain rfl | hc := List.mem_cons.mp hc
          · assumption
          · exact Nat.lt_trans ‹a < k› (hp.1 c hc)
      · split
        · subst_vars
          split
          · exact hp.2
          · exact List.pairwise_cons.mpr ⟨hp.1, hp.2⟩
        · refine List.pairwise_cons.mpr ⟨fun c hc => ?_, ih hm⟩
          obtain ⟨rfl, -⟩ | hc := Memory.mem_write m a v c hc
          · dsimp only; omega
          · exact hp.1 c hc
  · obtain ⟨rfl, hv⟩ | hc := Memory.mem_write m a v c hc
    · exact hv
    · exact h.2 c hc

/-- A read after a write: the byte written at its address, the byte before at every other. -/
theorem Memory.read_write (m : Memory) (a : Nat) (v : Byte) (h : Memory.wf m) (b : Nat) :
    Memory.read (Memory.write m a v) b = if b = a then v else Memory.read m b := by
  induction m with
  | nil =>
    unfold Memory.write
    split <;> by_cases hb : b = a <;> simp_all [Memory.read, eq_comm]
  | cons d m ih =>
    obtain ⟨k, w⟩ := d
    have hp := List.pairwise_cons.mp h.1
    have hm : Memory.wf m := ⟨hp.2, fun c hc => h.2 c (by simp [hc])⟩
    unfold Memory.write
    split
    · split
      · by_cases hb : b = a
        · subst hb
          rw [Memory.read_of_lt, if_pos rfl]
          · simp_all
          · intro c hc
            obtain rfl | hc := List.mem_cons.mp hc
            · assumption
            · exact Nat.lt_trans ‹b < k› (hp.1 c hc)
        · rw [if_neg hb]
      · by_cases hb : b = a <;> simp_all [Memory.read, eq_comm]
    · split
      · rename_i heq
        subst heq
        split
        · by_cases hb : b = a
          · subst hb
            rw [Memory.read_of_lt _ _ hp.1]
            simp_all
          · simp_all [Memory.read, eq_comm]
        · by_cases hb : b = a <;> simp_all [Memory.read, eq_comm]
      · by_cases hk : k = b
        · subst hk
          have : k ≠ a := fun e => by omega
          simp [Memory.read, this]
        · rw [Memory.read, if_neg hk, ih hm, Memory.read, if_neg hk]

/-- A byte read back from where it was written. -/
theorem Memory.read_write_same (m : Memory) (a : Nat) (v : Byte) (h : Memory.wf m) :
    Memory.read (Memory.write m a v) a = v := by rw [Memory.read_write m a v h, if_pos rfl]

/-- A write leaves every other address alone. -/
theorem Memory.read_write_other (m : Memory) (a b : Nat) (v : Byte) (h : Memory.wf m) (hb : b ≠ a) :
    Memory.read (Memory.write m a v) b = Memory.read m b := by rw [Memory.read_write m a v h, if_neg hb]

/-- The reset memory has the canonical form. -/
theorem reset_ram_wf : Memory.wf State.reset.rx.ram := by decide

end Sys2Proof.Machine
end

