-- ==== Sys2Proof/Laws/PerInstr.lean ====
section
/-! SUPPORT. Statements made of each instruction of the table, one lemma per constructor. -/

namespace Sys2Proof.Laws.RowMatch

/-- The width, the mask and the match value of the instruction's row of spec/opcode_table.json. -/
def tableRow : Instr → Nat × Word × Word
  | .init _ => (32, 0xFFFF00FF, 0x1)
  | .rsym _ _ _ => (32, 0xFF0000EF, 0x2)
  | .rhex _ => (32, 0xFFFF00FF, 0x3)
  | .rint _ _ => (32, 0xFFEF, 0x4)
  | .setdp _ => (32, 0xFFFFFFEF, 0x5)
  | .clear => (32, 0xFFFFFFFF, 0x6)
  | .setbr _ => (32, 0xFFFF00FF, 0x7)
  | .pwroff => (32, 0xFFFFFFFF, 0x8)
  | .clrsts => (32, 0xFFFFFFFF, 0x9)
  | .dataAuto => (8, 0xFF, 0x40)
  | .dataFixed => (8, 0xFF, 0x44)
  | .dispOff => (8, 0xFF, 0x80)
  | .dispOn _ => (8, 0xF8, 0x88)
  | .addr _ => (8, 0xFC, 0xC0)
  | .segData _ => (8, 0x80, 0x0)
  | .dpData _ => (8, 0xF7, 0x0)

/-- The instruction's word fits its row's width and hits its row: masked, it is the match value. -/
def Statement (i : Instr) : Prop :=
  (encode i).toNat < 2 ^ (tableRow i).1 ∧ encode i &&& (tableRow i).2.1 = (tableRow i).2.2

/-- A request word hits a row when each of its fields does (30_encoding.md R73). -/
theorem request (op : BitVec 4) (f : Bool) (a : Byte) (v : BitVec 16) (mv vv : BitVec 16) (ma va : Byte) (mf vf : Bool)
    (hv : v &&& mv = vv) (ha : a &&& ma = va) (hf : (f && mf) = vf) :
    (requestWord op f a v).toNat < 2 ^ 32 ∧ requestWord op f a v &&& wordOf mv ma 7 mf 0xF = wordOf vv va 0 vf op := by
  refine ⟨(requestWord op f a v).isLt, ?_⟩
  rw [requestWord_eq_wordOf, wordOf_and, hv, ha, hf, and_full4]
  rfl

theorem init (b : Byte) : Statement (.init b) := request 1 false b 0 0xFFFF 0 0 0 true false rfl BitVec.and_zero rfl

theorem rsym (d c : Byte) (raw : Bool) : Statement (.rsym d c raw) :=
  request 2 raw d (0#8 ++ c) 0xFF00 0 0 0 false false
    ((and_high _).mpr BitVec.extractLsb'_append_eq_left) BitVec.and_zero (Bool.and_false raw)

theorem rhex (v : Byte) : Statement (.rhex v) := request 3 false v 0 0xFFFF 0 0 0 true false rfl BitVec.and_zero rfl

theorem rint (v : BitVec 16) (dec : Bool) : Statement (.rint v dec) :=
  request 4 dec 0 v 0 0 0xFF 0 false false BitVec.and_zero rfl (Bool.and_false dec)

theorem setdp (on : Bool) : Statement (.setdp on) := request 5 on 0 0 0xFFFF 0 0xFF 0 false false rfl rfl (Bool.and_false on)

theorem clear : Statement .clear := request 6 false 0 0 0xFFFF 0 0xFF 0 true false rfl rfl rfl

theorem setbr (l : Byte) : Statement (.setbr l) := request 7 false l 0 0xFFFF 0 0 0 true false rfl BitVec.and_zero rfl

theorem pwroff : Statement .pwroff := request 8 false 0 0 0xFFFF 0 0xFF 0 true false rfl rfl rfl

theorem clrsts : Statement .clrsts := request 9 false 0 0 0xFFFF 0 0xFF 0 true false rfl rfl rfl

theorem dataAuto : Statement .dataAuto := by unfold Statement; decide

theorem dataFixed : Statement .dataFixed := by unfold Statement; decide

theorem dispOff : Statement .dispOff := by unfold Statement; decide

theorem dispOn (l : BitVec 3) : Statement (.dispOn l) := by unfold Statement; revert l; decide

theorem addr (aa : BitVec 2) : Statement (.addr aa) := by unfold Statement; revert aa; decide

theorem segData (p : BitVec 7) : Statement (.segData p) := by unfold Statement; revert p; decide

theorem dpData (on : Bool) : Statement (.dpData on) := by unfold Statement; revert on; decide

end Sys2Proof.Laws.RowMatch
end

