-- ==== Sys2Proof/Laws/Receiver.lean ====
section
/-! SUPPORT. The receiver's RAM: every operation keeps its canonical form and its four locations (30_encoding.md R78). -/

namespace Sys2Proof.Machine

/-- A memory of the four locations of the receiver, in its canonical form (30_encoding.md R78). -/
abbrev Memory.isRam (m : Memory) : Prop := Memory.wf m ∧ ∀ c ∈ m, 0xC0 ≤ c.1 ∧ c.1 ≤ 0xC3

theorem ramInv_iff (s : State) : RamInv s ↔ Memory.isRam s.rx.ram := Iff.rfl

/-- A write to one of the four locations keeps the form. -/
theorem Memory.write_isRam (m : Memory) (a : Nat) (v : Byte) (h : Memory.isRam m) (ha : 0xC0 ≤ a ∧ a ≤ 0xC3) :
    Memory.isRam (Memory.write m a v) := by
  refine ⟨Memory.write_wf m a v h.1, fun c hc => ?_⟩
  obtain ⟨rfl, -⟩ | hc := Memory.mem_write m a v c hc
  · exact ha
  · exact h.2 c hc

/-- An address outside the four locations reads as an unlisted one. -/
theorem Memory.read_outside (m : Memory) (a : Nat) (h : Memory.isRam m) (ha : ¬(0xC0 ≤ a ∧ a ≤ 0xC3)) :
    Memory.read m a = unlistedByte := by
  induction m with
  | nil => rfl
  | cons c m ih =>
    obtain ⟨k, b⟩ := c
    have hk := h.2 (k, b) (by simp)
    have hp := List.pairwise_cons.mp h.1.1
    rw [Memory.read, if_neg (by rintro rfl; exact ha hk)]
    exact ih ⟨⟨hp.2, fun c hc => h.1.2 c (by simp [hc])⟩, fun c hc => h.2 c (by simp [hc])⟩

/-- The address stored to is one of the four locations (30_encoding.md R78). -/
theorem storeAddr_range (r : Receiver) (a : Nat) (h : r.storeAddr = some a) : 0xC0 ≤ a ∧ a ≤ 0xC3 := by
  unfold Receiver.storeAddr at h
  split at h
  · split at h
    · obtain rfl := Option.some.inj h
      unfold ramAddr
      omega
    · cases h
  · cases h
  · cases h

/-- A byte read changes RAM only at the address stored to (30_encoding.md R78). -/
theorem take_ram (r : Receiver) (b : Byte) :
    (r.take b).ram = match r.storeAddr with
      | some a => r.ram.write a b
      | none => r.ram := by
  unfold Receiver.take
  cases h : r.pos with
  | first =>
    have : r.storeAddr = none := by simp [Receiver.storeAddr, h]
    rw [this]
    simp only [Receiver.takeFirst]
    split_ifs <;> rfl
  | data o => rfl
  | ignored => simp [Receiver.storeAddr, h]

/-- A byte read keeps RAM a RAM. -/
theorem take_isRam (r : Receiver) (b : Byte) (h : Memory.isRam r.ram) : Memory.isRam (r.take b).ram := by
  rw [take_ram]
  split
  · exact Memory.write_isRam _ _ _ h (storeAddr_range r _ ‹_›)
  · exact h

/-- Contents not given are a RAM. -/
theorem unknown_isRam (r : Receiver) (n : Nat) : Memory.isRam (r.unknown n).ram := by
  have h0 : Memory.isRam [] := by decide
  exact Memory.write_isRam _ _ _ (Memory.write_isRam _ _ _ (Memory.write_isRam _ _ _
    (Memory.write_isRam _ _ _ h0 (by decide)) (by decide)) (by decide)) (by decide)

/-- An item performed keeps the RAM, or leaves contents not given. -/
theorem perform_isRam (it : Item) (s : State) (h : Memory.isRam s.rx.ram) : Memory.isRam (perform it s).rx.ram := by
  cases it with
  | setCmd | clearNack | clearErr => exact h
  | sampleAck =>
    have e : (perform .sampleAck s).rx.ram = s.rx.ram := by
      cases ho : s.dioOe <;> cases hd : s.dioIn <;> simp [perform, sampleAck, sampleDio, logEvent, ho, hd]
    rw [e]; exact h
  | emit a =>
    have e : (perform (.emit a) s).rx = (hear a s).rx := by
      cases a with
      | modeOut p => cases p <;> rfl
      | drive p v => cases p <;> rfl
      | wait => rfl
      | modeIn => simp [perform, emitAction, logEvent, pinEffect]; split <;> rfl
    rw [e]
    cases a with
    | modeOut | modeIn | wait => exact h
    | drive p v =>
      cases p with
      | clk =>
        simp only [hear]
        split_ifs
        · exact h
        · unfold Receiver.clockRise; split_ifs <;> exact h
        · unfold Receiver.clockFall; split_ifs <;> exact h
      | dio =>
        simp only [hear]
        split_ifs
        · exact h
        · unfold hearStop
          split_ifs
          · exact unknown_isRam s.rx s.draws
          · exact h
          · exact h
        · exact h

/-- Canonical memories that read the same are the same. -/
theorem Memory.ext_read (m n : Memory) (hm : Memory.wf m) (hn : Memory.wf n)
    (h : ∀ a, Memory.read m a = Memory.read n a) : m = n := by
  induction m generalizing n with
  | nil =>
    cases n with
    | nil => rfl
    | cons c n => exact absurd (by simpa [Memory.read] using (h c.1).symm) (hn.2 c (by simp))
  | cons c m ih =>
    obtain ⟨k, b⟩ := c
    have pm := List.pairwise_cons.mp hm.1
    have wm : Memory.wf m := ⟨pm.2, fun c hc => hm.2 c (by simp [hc])⟩
    have hb : b ≠ unlistedByte := hm.2 (k, b) (by simp)
    cases n with
    | nil => exact absurd (by simpa [Memory.read] using h k) hb
    | cons d n =>
      obtain ⟨l, e⟩ := d
      have pn := List.pairwise_cons.mp hn.1
      have wn : Memory.wf n := ⟨pn.2, fun c hc => hn.2 c (by simp [hc])⟩
      have he : e ≠ unlistedByte := hn.2 (l, e) (by simp)
      rcases Nat.lt_trichotomy k l with hkl | rfl | hkl
      · refine absurd ?_ hb
        have := h k
        rw [Memory.read, if_pos rfl, Memory.read_of_lt] at this
        · exact this
        · intro c hc
          rcases List.mem_cons.mp hc with rfl | hc
          · exact hkl
          · exact Nat.lt_trans hkl (pn.1 c hc)
      · have hbe : b = e := by simpa [Memory.read] using h k
        subst hbe
        rw [ih n wm wn fun a => ?_]
        have := h a
        rw [Memory.read, Memory.read] at this
        by_cases ha : k = a
        · subst ha
          rw [Memory.read_of_lt m k pm.1, Memory.read_of_lt n k pn.1]
        · simpa [ha] using this
      · refine absurd ?_ he
        have := (h l).symm
        rw [Memory.read, if_pos rfl, Memory.read_of_lt] at this
        · exact this
        · intro c hc
          rcases List.mem_cons.mp hc with rfl | hc
          · exact hkl
          · exact Nat.lt_trans hkl (pm.1 c hc)

/-! ## Whole frames (30_encoding.md R78) -/

@[simp] theorem readFrames_nil (r : Receiver) : r.readFrames [] = r := rfl

@[simp] theorem readFrames_cons (r : Receiver) (f : List Byte) (fs : List (List Byte)) :
    r.readFrames (f :: fs) = (r.readFrame f).readFrames fs := rfl

theorem readFrames_append (r : Receiver) (fs gs : List (List Byte)) :
    r.readFrames (fs ++ gs) = (r.readFrames fs).readFrames gs := List.foldl_append

/-- The frame of the auto-increment mode command. -/
theorem readFrame_auto (r : Receiver) : r.readFrame [cmdAuto] = { r with mode := .auto, pos := .ignored } := rfl

/-- The frame of the fixed-address mode command. -/
theorem readFrame_fixed (r : Receiver) : r.readFrame [cmdFixed] = { r with mode := .fixed, pos := .ignored } := rfl

/-- The frame of a display-control command. -/
theorem readFrame_control (r : Receiver) (b : Byte) (h : b &&& 0xF0 = 0x80) :
    r.readFrame [b] = { r with dctrl := b, pos := .ignored } := by
  have h1 : b ≠ cmdAuto := by rintro rfl; exact absurd h (by decide)
  have h2 : b ≠ cmdFixed := by rintro rfl; exact absurd h (by decide)
  simp only [Receiver.readFrame, List.foldl_cons, List.foldl_nil, Receiver.take, Receiver.takeFirst]
  rw [if_neg h1, if_neg h2, if_pos h]

/-- An address byte and data in fixed-address mode: the byte goes to its location. -/
theorem readFrames_fixedWrite (r : Receiver) (aa : BitVec 2) (b : Byte) :
    r.readFrames (fixedWrite (addrBase + aa.setWidth 8) b) = { r with
      mode := .fixed
      pos := .data aa
      ptr := aa.toNat
      ram := r.ram.write (0xC0 + aa.toNat) b } := by
  have h : ∀ aa : BitVec 2, addrBase + aa.setWidth 8 ≠ cmdAuto ∧ addrBase + aa.setWidth 8 ≠ cmdFixed ∧
      ¬((addrBase + aa.setWidth 8) &&& 0xF0 = 0x80) ∧ (addrBase + aa.setWidth 8) &&& 0xFC = addrBase ∧
      (addrBase + aa.setWidth 8).extractLsb' 0 2 = aa := by decide
  obtain ⟨h1, h2, h3, h4, h5⟩ := h aa
  have h6 : aa.toNat ≤ 3 := by omega
  rw [fixedWrite, readFrames_cons, readFrame_fixed, readFrames_cons, readFrames_nil]
  simp only [Receiver.readFrame, List.foldl_cons, List.foldl_nil, Receiver.take, Receiver.takeFirst]
  rw [if_neg h1, if_neg h2, if_neg h3, if_pos h4, h5]
  simp only [Receiver.takeData, Receiver.storeAddr]
  rw [if_pos h6]
  rfl

/-- Three bytes in auto-increment mode: they go to the three digits in order. -/
theorem readFrames_autoWrite (r : Receiver) (d0 d1 d2 : Byte) :
    r.readFrames (autoWrite [d0, d1, d2]) = { r with
      mode := .auto
      pos := .data 0
      ptr := 3
      ram := ((r.ram.write 0xC0 d0).write 0xC1 d1).write 0xC2 d2 } := rfl

/-- The digit's address byte (41_symbol_encoder.md R135) as a two-bit address. -/
theorem digitAddr_eq : ∀ d : Byte, digitAddr d = addrBase + (BitVec.ofNat 2 (min d.toNat 2)).setWidth 8 := by decide

theorem addrDp_eq : addrDp = addrBase + (3 : BitVec 2).setWidth 8 := by decide

/-- CLEAR's frames: every location holds 0 (42_display_ops.md R172, R184). -/
theorem readFrames_clear (r : Receiver) : r.readFrames framesClear = { r with
    mode := .fixed
    pos := .data 3
    ptr := 3
    ram := (((r.ram.write 0xC0 0).write 0xC1 0).write 0xC2 0).write 0xC3 0 } := by
  have e : framesClear = fixedWrite (addrBase + (0 : BitVec 2).setWidth 8) 0 ++
      (fixedWrite (addrBase + (1 : BitVec 2).setWidth 8) 0 ++ (fixedWrite (addrBase + (2 : BitVec 2).setWidth 8) 0 ++
        fixedWrite (addrBase + (3 : BitVec 2).setWidth 8) 0)) := by decide
  rw [e, readFrames_append, readFrames_append, readFrames_append]
  simp only [readFrames_fixedWrite]
  rfl

/-- A display-on byte is a display-control command (41_symbol_encoder.md R136). -/
theorem dispOn_and : ∀ l : Byte, dispOn l &&& 0xF0 = 0x80 := by decide

end Sys2Proof.Machine
end

