-- ==== Sys2Proof/Tests/Slice0.lean ====
section
/-! SUPPORT. Tests of the model. Expected values are those of spec/ (95_test_vectors.md unless another file is named). The last
part shows, for each statement that has hypotheses, a state and operands that meet them together. -/

namespace Sys2Proof.Machine

/-! ## Helpers -/

/-- The state a step answers. -/
def after (s : State) : Option State :=
  match step s with
  | .next t => some t
  | .fault _ | .refused _ => none

/-- The state the conventions start from, with the bits the outside will supply. -/
def start (acks : List Bool) : State := { State.reset with dioIn := acks }

/-- A word offered to REQ. -/
def offered (w : Word) (s : State) : State := { s with inputs := [.write 0 w] }

/-- A receiver reading data bytes of a frame opened by 0xC0 + aa. -/
def reading (aa : BitVec 2) (ptr : Nat) (mode : AddrMode) : State :=
  { State.reset with rx := { Receiver.reset with pos := .data aa, ptr := ptr, mode := mode } }

/-- An engine running a request whose remaining items are given. -/
def running (op : BitVec 4) (items : List Item) (s : State) : State :=
  { s with seq := .run ⟨op, false, 0, 0⟩ 0 items, status := { s.status with busy := true } }

/-- A configuration with `HEX_CLAMP` false. -/
def unclamped : Params := { defaultParams with hexClamp := false }

/-! ## WellFormed: each check refuses an ill-formed term -/

theorem test_wf_request_not_on_wire : (Instr.setbr 5).wellFormed (.wire .first) = false := by decide
theorem test_wf_wire_not_at_req : (Instr.addr 0).wellFormed .req = false := by decide
theorem test_wf_command_not_as_data : Instr.dataFixed.wellFormed (.wire (.data 0)) = false := by decide
theorem test_wf_data_not_first : (Instr.segData 1).wellFormed (.wire .first) = false := by decide
theorem test_wf_pattern_not_after_dp_address : (Instr.segData 1).wellFormed (.wire (.data 3)) = false := by decide
theorem test_wf_dp_not_after_digit_address : (Instr.dpData true).wellFormed (.wire (.data 2)) = false := by decide
theorem test_wf_nothing_after_a_command : Instr.dataAuto.wellFormed (.wire .ignored) = false := by decide
theorem test_wf_frame_empty : wellFormedFrame [] = false := by decide
theorem test_wf_frame_command_with_data : wellFormedFrame [.dataFixed, .segData 1] = false := by decide
theorem test_wf_frame_address_alone : wellFormedFrame [.addr 1] = false := by decide
theorem test_wf_frame_two_dp_bytes : wellFormedFrame [.addr 3, .dpData true, .dpData true] = false := by decide
theorem test_wf_frame_starts_with_data : wellFormedFrame [.segData 1] = false := by decide
theorem test_wf_frame_good : wellFormedFrame [.addr 0, .segData 1, .segData 2, .segData 3] = true := by decide
theorem test_wf_init_too_big : (AsmLine.init (some 256)).wellFormed = false := by decide
theorem test_wf_rsym_digit_too_big : (AsmLine.rsym 256 0 false).wellFormed = false := by decide
theorem test_wf_rsym_code_too_big : (AsmLine.rsym 0 256 true).wellFormed = false := by decide
theorem test_wf_rhex_too_big : (AsmLine.rhex 256).wellFormed = false := by decide
theorem test_wf_rint_too_big : (AsmLine.rint 65536 false).wellFormed = false := by decide
theorem test_wf_setbr_too_big : (AsmLine.setbr (some 256)).wellFormed = false := by decide
theorem test_wf_word_too_big : (AsmLine.word 4294967296).wellFormed = false := by decide
theorem test_wf_blank_too_big : (AsmLine.blank 256).wellFormed = false := by decide
theorem test_wf_seg_too_big : (AsmLine.seg 0 256).wellFormed = false := by decide
theorem test_wf_glyph_too_big : (AsmLine.glyph 256 0).wellFormed = false := by decide
theorem test_wf_rdec_too_big : (AsmLine.rdec 65536).wellFormed = false := by decide
theorem test_wf_rhexw_too_big : (AsmLine.rhexw 65536).wellFormed = false := by decide

/-! ## Decode: words written out bit by bit from 30_encoding.md R70 (V, A, RSV, F, OP) and R77 -/

theorem test_decode_init : decode .req 0b00000000000000001100100000000001 = some (.init 200) := by decide
theorem test_decode_rsym : decode .req 0b00000000000001110000000100000010 = some (.rsym 1 7 false) := by decide
theorem test_decode_rsym_raw : decode .req 0b00000000111111111111111100010010 = some (.rsym 255 255 true) := by decide
theorem test_decode_rhex : decode .req 0b00000000000000000011110000000011 = some (.rhex 0x3C) := by decide
theorem test_decode_rint_decimal : decode .req 0b00000100110100100000000000010100 = some (.rint 1234 true) := by decide
theorem test_decode_rint_hex : decode .req 0b11111111111111110000000000000100 = some (.rint 0xFFFF false) := by decide
theorem test_decode_setdp : decode .req 0b00000000000000000000000000010101 = some (.setdp true) := by decide
theorem test_decode_clear : decode .req 0b00000000000000000000000000000110 = some (.clear) := by decide
theorem test_decode_setbr : decode .req 0b00000000000000000000010100000111 = some (.setbr 5) := by decide
theorem test_decode_pwroff : decode .req 0b00000000000000000000000000001000 = some (.pwroff) := by decide
theorem test_decode_clrsts : decode .req 0b00000000000000000000000000001001 = some (.clrsts) := by decide
theorem test_decode_dataAuto : decode (.wire .first) 0b01000000 = some (.dataAuto) := by decide
theorem test_decode_dataFixed : decode (.wire .first) 0b01000100 = some (.dataFixed) := by decide
theorem test_decode_dispOff : decode (.wire .first) 0b10000000 = some (.dispOff) := by decide
theorem test_decode_dispOn : decode (.wire .first) 0b10001101 = some (.dispOn 5) := by decide
theorem test_decode_addr : decode (.wire .first) 0b11000010 = some (.addr 2) := by decide
theorem test_decode_segData : decode (.wire (.data 2)) 0b01000100 = some (.segData 0x44) := by decide
theorem test_decode_dpData_on : decode (.wire (.data 3)) 0b00001000 = some (.dpData true) := by decide
theorem test_decode_dpData_off : decode (.wire (.data 3)) 0b00000000 = some (.dpData false) := by decide

/-- Section 2.4: the illegal words with an operand or reserved bit that must be 0, and the reserved opcodes. -/
theorem test_decode_illegal : ∀ w ∈ [0x00000011, 0x00010001, 0x01000002, 0x00000013, 0x00000104, 0x000000E4, 0x00000115,
    0x00000026, 0x00000106, 0x00000017, 0x80000008, 0x00000019, 0x00000000, 0x00000010, 0x0000000A, 0x0000000B, 0x0000000C,
    0x0000000D, 0x0000000E, 0x0000000F], decode .req w = none := by
  simp only [List.forall_mem_cons, List.not_mem_nil, false_imp_iff, implies_true, and_true]
  repeat' apply And.intro
  all_goals decide

/-- 30_encoding.md R77: bytes of no class at their position. -/
theorem test_decode_wire_illegal : decode (.wire .first) 0x08 = none ∧ decode (.wire .first) 0x81 = none ∧
    decode (.wire .first) 0xC4 = none ∧ decode (.wire (.data 0)) 0x80 = none ∧ decode (.wire (.data 3)) 0x01 = none ∧
    decode (.wire .first) 0x140 = none := by decide

theorem test_table_word_request : decodeTableWord 32 0x00490012 = some (.rsym 0 0x49 true) := by decide
theorem test_table_word_wire : decodeTableWord 8 0x8D = some (.dispOn 5) ∧ decodeTableWord 8 0x5B = some (.segData 0x5B) ∧
    decodeTableWord 8 0x08 = some (.dpData true) ∧ decodeTableWord 8 0x1C0 = none := by decide

/-! ## Assembler text (30_encoding.md R79, R80) -/

theorem test_asm_rsym_raw : assembleText "rsym 0, 0x49, raw ; a comment".toList = some 0x00490012 := by decide
theorem test_asm_defaults : assembleText "init".toList = some 0x00000201 ∧ assembleText "setbr".toList = some 0x00000207 ∧
    assembleText "setdp".toList = some 0x00000005 := ⟨by decide, by decide, by decide⟩
theorem test_asm_pseudo_point : assembleText "dpon".toList = some 0x00000015 ∧
    assembleText "dpoff".toList = some 0x00000005 := by decide
theorem test_asm_pseudo_symbol : assembleText "blank 2".toList = some 0x00000212 ∧
    assembleText "glyph 1, 7".toList = some 0x00070102 := by decide
theorem test_asm_pseudo_numbers : assembleText "rdec 1234".toList = some 0x04D20014 ∧
    assembleText "rhexw 0xABC".toList = some 0x0ABC0004 ∧ assembleText "seg 0, 0x49".toList = some 0x00490012 :=
  ⟨by decide, by decide, by decide⟩
theorem test_asm_word : assembleText ".word 0x0000000F".toList = some 0x0000000F := by decide
theorem test_asm_too_big : assembleText "rhex 256".toList = none ∧ assembleText "rint 65536".toList = none := by decide
theorem test_asm_no_line : assembleText "render 1".toList = none ∧ assembleText "rsym 1".toList = none := by decide

/-! ## Symbol encoder (section 2.2) -/

theorem test_lookup : lookup defaultParams 9 = 0x6F ∧ lookup defaultParams 33 = 0x01 ∧ lookup defaultParams 39 = 0x40 ∧
    lookup defaultParams 40 = 0x00 ∧ lookup defaultParams 255 = 0x00 := by decide
theorem test_resolve : resolve defaultParams 0x85 true = 0x05 ∧ resolve defaultParams 0x85 false = 0x00 ∧
    resolve defaultParams 0x22 false = 0x02 ∧ resolve defaultParams 0xC9 true = 0x49 := by decide
theorem test_clamps : digitAddr 3 = 0xC2 ∧ digitAddr 255 = 0xC2 ∧ dispOn 8 = 0x8F ∧ dispOn 255 = 0x8F := by decide
theorem test_decDigits : decDigits defaultParams 42 = [0x3F, 0x66, 0x5B] ∧
    decDigits defaultParams 65535 = [0x6F, 0x6F, 0x6F] := by decide
theorem test_hexDigits : hexDigits defaultParams 0x0D0E = [0x5E, 0x3F, 0x79] ∧
    hexDigits defaultParams 0x1000 = [0x71, 0x71, 0x71] := by decide
theorem test_hexByte : hexByte defaultParams 0x9B = [0x74, 0x6F, 0x7C] := by decide

/-! ## Frames of the requests (section 2.3) -/

theorem test_frames_init : requestFrames defaultParams (.init 200) = [[0x8F], [0x44], [0xC0, 0x00], [0x44], [0xC1, 0x00],
    [0x44], [0xC2, 0x00], [0x44], [0xC3, 0x00]] := by decide
theorem test_frames_rsym : requestFrames defaultParams (.rsym 3 8 false) = [[0x44], [0xC2, 0x7F]] := by decide
theorem test_frames_rhex : requestFrames defaultParams (.rhex 0xA5) = [[0x40], [0xC0, 0x74, 0x77, 0x6D]] := by decide
theorem test_frames_rint : requestFrames defaultParams (.rint 5 true) = [[0x40], [0xC0, 0x3F, 0x3F, 0x6D]] := by decide
theorem test_frames_setdp : requestFrames defaultParams (.setdp true) = [[0x44], [0xC3, 0x08]] := by decide
theorem test_frames_setbr : requestFrames defaultParams (.setbr 9) = [[0x8F]] := by decide
theorem test_frames_pwroff : requestFrames defaultParams .pwroff = [[0x80]] := by decide

/-! ## Item lists (sections 2.1.1 and 2.1.2) -/

/-- Section 2.1.1: the data phase of 0xB2. -/
theorem test_data_phase : dataPhase 0xB2 = ([false, true, false, false, true, true, false, true].map fun b =>
    [Item.emit (.drive .clk false), .emit (.drive .dio b), .emit (.drive .clk true)]).flatten := by decide

/-- Section 2.1.2: the events of `setbr 5` with ack = 1, from the acknowledgment phase on. -/
theorem test_frame_trace_nack : (frameTrace [0x8D] [true]).length = 41 ∧ (frameTrace [0x8D] [true]).drop 28 =
    [.act (.drive .clk false), .act (.drive .dio true), .act (.drive .clk true), .act .modeIn, .act .wait, .sample true,
      .act .wait, .act (.modeOut .dio), .act .wait,
      .act (.drive .clk false), .act (.drive .dio false), .act (.drive .clk true), .act (.drive .dio true)] := by decide

/-- Section 2.1.2: the events of `setbr 5` with ack = 0, from the sample on. -/
theorem test_frame_trace_ack : (frameTrace [0x8D] [false]).length = 43 ∧ (frameTrace [0x8D] [false]).drop 33 =
    [.sample false, .act (.modeOut .dio), .act (.drive .dio false), .act .wait, .act (.modeOut .dio), .act .wait,
      .act (.drive .clk false), .act (.drive .dio false), .act (.drive .clk true), .act (.drive .dio true)] := by decide

/-! ## Requests, one step each -/

theorem test_accept_init : (after (offered 0x00000201 (start []))).map (fun t => (t.status.byte, t.cmd, t.seq.pending.take 2)) =
    some (0x01, 0x8A, [.setCmd 0x8A, .emit (.drive .clk true)]) := by decide
theorem test_accept_rsym : (after (offered 0x00070102 (start []))).map (fun t => (t.status.byte, t.cmd, t.seq.pending.take 2)) =
    some (0x01, 0x8A, [.emit (.drive .clk true), .emit (.drive .dio true)]) := by decide
theorem test_accept_rhex : (after (offered 0x00003C03 (start []))).map (fun t => (t.status.byte, t.cmd, t.seq.pending.take 2)) =
    some (0x01, 0x8A, [.emit (.drive .clk true), .emit (.drive .dio true)]) := by decide
theorem test_accept_rint : (after (offered 0x04D20014 (start []))).map (fun t => (t.status.byte, t.cmd, t.seq.pending.take 2)) =
    some (0x01, 0x8A, [.emit (.drive .clk true), .emit (.drive .dio true)]) := by decide
theorem test_accept_setdp : (after (offered 0x00000015 (start []))).map (fun t => (t.status.byte, t.cmd, t.seq.pending.take 2)) =
    some (0x01, 0x8A, [.emit (.drive .clk true), .emit (.drive .dio true)]) := by decide
theorem test_accept_clear : (after (offered 0x00000006 (start []))).map (fun t => (t.status.byte, t.cmd, t.seq.pending.take 2)) =
    some (0x01, 0x8A, [.emit (.drive .clk true), .emit (.drive .dio true)]) := by decide
theorem test_accept_setbr : (after (offered 0x00000507 (start []))).map (fun t => (t.status.byte, t.cmd, t.seq.pending.take 2)) =
    some (0x01, 0x8A, [.setCmd 0x8D, .emit (.drive .clk true)]) := by decide
theorem test_accept_pwroff : (after (offered 0x00000008 (start []))).map (fun t => (t.status.byte, t.cmd, t.seq.pending.take 2)) =
    some (0x01, 0x8A, [.setCmd 0x80, .emit (.drive .clk true)]) := by decide
theorem test_accept_clrsts : (after (offered 0x00000009 (start []))).map (fun t => (t.status.byte, t.cmd, t.seq.pending.take 2)) =
    some (0x01, 0x8A, [.clearNack, .clearErr]) := by decide

/-- The latched fields of `rint 1234` (10_state.md R27). -/
theorem test_latch : (after (offered 0x04D20014 (start []))).map (fun t => match t.seq with
    | .run req k _ => (req.op, req.f, req.a, req.v, k)
    | _ => (0, false, 0, 0, 0)) = some (4, true, 0, 1234, 0) := by decide

/-- Section 2.2.5: with `HEX_CLAMP` false the value 0x1000 is refused and 0x0FFF is not. -/
theorem test_rint_unclamped : (after (offered 0x10000004 { start [] with params := unclamped })).isSome = false ∧
    (after (offered 0x0FFF0004 { start [] with params := unclamped })).isSome = true := by decide

/-- Section 2.5: an illegal word with STATUS 0x06 gives 0x0E. -/
theorem test_illegal_word : (after (offered 0x00000011 { start [] with
    status := { busy := false, lastAck := true, nackSeen := true, err := false } })).map (fun t => t.status.byte) =
    some 0x0E := by decide

/-- Section 2.3.6: a write while a request runs is held. -/
theorem test_hold : (after (offered 0x00000015 (running 7 [.setCmd 0x8D, .emit .wait] (start [])))).map
    (fun t => (t.cmd, t.inputs, t.status.byte)) = some (0x8D, [.write 0 0x00000015], 0x01) := by decide

/-- Section 2.3.5: the last item of CLRSTS from STATUS 0x0E, after the first has cleared NACK_SEEN, leaves 0x02. -/
theorem test_clrsts_keeps_last_ack : (after (running 9 [.clearErr] { start [] with
    status := { busy := false, lastAck := true, nackSeen := false, err := true } })).map (fun t => (t.status.byte, t.seq)) =
    some (0x02, .idle) := by decide

/-- Section 2.1.2: a sample of 1 sets LAST_ACK and NACK_SEEN at once and adds nothing. -/
theorem test_sample_nack : (after (running 7 [.sampleAck, .emit .wait] { start [true] with dioOe := false })).map
    (fun t => (t.status.byte, t.seq.pending)) = some (0x07, [.emit .wait]) := by decide

/-- Section 2.1.2: a sample of 0 adds ModeOut(DIO) and Drive(DIO, 0). -/
theorem test_sample_ack : (after (running 7 [.sampleAck, .emit .wait] { start [false] with dioOe := false })).map
    (fun t => (t.status.byte, t.seq.pending)) =
    some (0x01, [.emit (.modeOut .dio), .emit (.drive .dio false), .emit .wait]) := by decide

/-! ## The host's reads, and reset -/

/-- Section 2.3.6: a read of STATUS during a request returns 0x07. -/
theorem test_read_status : (after { running 2 [.emit .wait] (start []) with
    inputs := [.read 1], status := { busy := true, lastAck := true, nackSeen := true, err := false } }).map (·.reads) =
    some [(1, 0x07)] := by decide
theorem test_read_cmd : (after { start [] with inputs := [.read 2] }).map (·.reads) = some [(2, 0x8A)] := by decide

/-- 10_state.md R25: reads of REQ and of register 3, a write to STATUS. -/
theorem test_host_refused : (after { start [] with inputs := [.read 0] }).isSome = false ∧
    (after { start [] with inputs := [.read 3] }).isSome = false ∧
    (after { start [] with inputs := [.write 1 0] }).isSome = false := by decide

/-- Section 2.6: reset starts with STATUS = 0x01 and ModeOut(CLK), ModeOut(DIO), then CMD <- 0x8A. -/
theorem test_reset_start : (after { running 7 [.emit .wait] (start []) with inputs := [.reset] }).map
    (fun t => (t.status.byte, t.seq.pending.take 3)) =
    some (0x01, [.emit (.modeOut .clk), .emit (.modeOut .dio), .setCmd 0x8A]) := by decide

/-! ## Wire bytes, one step each (30_encoding.md R78) -/

theorem test_wire_dataAuto : (after ((start []).withFetchWord 8 0x40)).map (fun t => (t.rx.mode, t.rx.pos)) = some (.auto, .ignored) := by decide
theorem test_wire_dataFixed : (after ((start []).withFetchWord 8 0x44)).map (fun t => (t.rx.mode, t.rx.pos)) = some (.fixed, .ignored) := by decide
theorem test_wire_dispOff : (after ((start []).withFetchWord 8 0x80)).map (fun t => (t.rx.dctrl, t.rx.pos)) = some (0x80, .ignored) := by decide
theorem test_wire_dispOn : (after ((start []).withFetchWord 8 0x8D)).map (fun t => (t.rx.dctrl, t.rx.pos)) = some (0x8D, .ignored) := by decide
theorem test_wire_addr : (after ((start []).withFetchWord 8 0xC2)).map (fun t => (t.rx.ptr, t.rx.pos)) = some (2, .data 2) := by decide
theorem test_wire_segData : (after ((start []).withFetchWord 8 0x5B)).map (fun t => t.rx.ram) = some [(0xC0, 0x5B)] := by decide
theorem test_wire_segData_auto : (after { reading 0 1 .auto with rx := { (reading 0 1 .auto).rx with inbox := [0x06] } }).map
    (fun t => (t.rx.ram, t.rx.ptr)) = some ([(0xC1, 0x06)], 2) := by decide
theorem test_wire_segData_beyond : (after { reading 0 4 .auto with rx := { (reading 0 4 .auto).rx with inbox := [0x06] } }).map
    (fun t => (t.rx.ram, t.rx.ptr)) = some ([], 5) := by decide
theorem test_wire_dpData : (after ((start []).withFetchWord 8 0x08)).map (fun t => t.rx.ram) = some [(0xC3, 0x08)] := by decide
theorem test_wire_other_byte : (after { start [] with rx := { Receiver.reset with inbox := [0x85], dctrl := 0x80 } }).map
    (fun t => t.rx.dctrl) = some 0x85 := by decide

/-! ## The first instruction after reset -/

theorem test_fetch_request : (after (State.reset.withFetchWord 32 0x00000507)).map (fun t => (t.seq.pending.head?, t.inputs)) =
    some (some (.setCmd 0x8D), []) := by decide

/-! ## Memory -/

theorem test_write_zero_removes : Memory.write [(0xC0, 0x3F), (0xC1, 0x06)] 0xC1 0x00 = [(0xC0, 0x3F)] := by decide
theorem test_write_sorts : Memory.write [(0xC1, 0x06)] 0xC0 0x3F = [(0xC0, 0x3F), (0xC1, 0x06)] := by decide
theorem test_reset_ram : Memory.wf State.reset.rx.ram := by decide

/-! ## The display -/

/-- P1: blank, "7", blank, the point lit, brightness 5. -/
theorem test_appearance : appearance { start [] with
    rx := { Receiver.reset with dctrl := 0x8D, ram := [(0xC1, 0x07), (0xC3, 0x08)] } } =
    { cells := [(0, 0x00), (1, 0x07), (2, 0x00)], point := true, lit := true, level := 5 } := by decide

/-- 70_reset_and_hazards.md R232 and R240: two distinct pins; 150 microseconds for the frame of SETBR. -/
theorem test_boot_and_time : bootable defaultParams ∧ waitingTime defaultParams (frameTrace [0x8D] [true]) = 150 := by
  unfold bootable
  decide

/-! ## Witnesses: hypotheses met together -/

/-- Thirteen acknowledged bytes to come. -/
def acked : State := start (List.replicate 13 false)

theorem acked_ready : Ready acked := ⟨rfl, rfl, rfl, rfl, rfl, rfl⟩
theorem acked_waits : HostWaits acked := .inl rfl

/-- The same with a write held at REQ. -/
theorem witness_HostWaits_write : HostWaits (offered 0x15 acked) ∧ Ready (offered 0x15 acked) :=
  ⟨.inr ⟨_, _, rfl⟩, rfl, rfl, rfl, rfl, rfl, rfl⟩

theorem witness_DecodeEncodeRoundTrip : (Instr.rsym 255 255 true).wellFormed .req = true ∧
    (Instr.dispOn 7).wellFormed (.wire .first) = true ∧ (Instr.segData 0x7F).wellFormed (.wire (.data 2)) = true ∧
    (Instr.dpData true).wellFormed (.wire (.data 3)) = true := by decide
theorem witness_EncodeDecodeRoundTrip : decode .req 0xFFFF0014 = some (.rint 0xFFFF true) ∧
    decode (.wire .first) 0xC3 = some (.addr 3) := by decide
theorem witness_AssemblerWordsDecode : (AsmLine.rint 65536 true).wellFormed = false ∧
    (AsmLine.rint 65535 true).wellFormed = true ∧ (AsmLine.word 4294967295).wellFormed = true := by decide
theorem witness_RequestFramesAreWellFormed : [0xC3, 0x08] ∈ requestFrames defaultParams (.setdp true) := by decide
theorem witness_StepRunsDecodedInstruction_byte :
    (State.reset.withFetchWord 8 0x44).rx.inbox = [0x44] ∧ decodeByte (State.reset.withFetchWord 8 0x44).rx.pos 0x44 = some .dataFixed := by
  decide
theorem witness_StepRunsDecodedInstruction_request : (offered 0x6 acked).rx.inbox = [] ∧ (offered 0x6 acked).seq = .idle ∧
    (offered 0x6 acked).inputs = [.write 0 0x6] ∧ decodeRequest 0x6 = some .clear := by decide
theorem witness_IllegalWordSetsErrOnly_illegal : (offered 0x0 acked).rx.inbox = [] ∧ (offered 0x0 acked).seq = .idle ∧
    (offered 0x0 acked).inputs = [.write 0 0x0] ∧ decodeRequest 0x0 = none := by decide
theorem witness_IllegalWordSetsErrOnly_legal : (offered 0x9 acked).seq = .idle ∧ (decodeRequest 0x9).isSome = true ∧
    (after (offered 0x9 acked)).isSome = true := by decide

/-- CLRSTS at its last item, ERR set. -/
def clearing : State := running 9 [.clearErr] { acked with status := { busy := false, lastAck := false, nackSeen := false, err := true } }

theorem clearing_owner : OwnerInv clearing := by
  refine ⟨fun req k todo h => ?_, fun k todo h => by cases h⟩
  obtain ⟨rfl, rfl, rfl⟩ : req = ⟨9, false, 0, 0⟩ ∧ k = 0 ∧ todo = [.clearErr] := by
    simp only [clearing, running, Seq.run.injEq] at h
    exact ⟨h.1.symm, h.2.1.symm, h.2.2.symm⟩
  exact ⟨by simp, fun _ => rfl⟩

theorem witness_StickyBitsClearedOnlyByClrstsOrReset : OwnerInv clearing ∧
    ∃ t, step clearing = .next t ∧ clearing.status.err = true ∧ t.status.err = false :=
  ⟨clearing_owner, _, rfl, rfl, rfl⟩

/-- The same for NACK_SEEN, cleared as reset begins. -/
theorem witness_StickyBits_reset : OwnerInv { State.reset with inputs := [.reset], status := ⟨false, true, true, false⟩ } ∧
    ∃ t, step { State.reset with inputs := [.reset], status := ⟨false, true, true, false⟩ } = .next t ∧
      t.status.nackSeen = false :=
  ⟨⟨(fun _ _ _ h => by cases h),
    fun _ _ h => by cases h⟩, _, rfl, rfl⟩

theorem witness_RequestHeldWhileBusy_idle : (offered 0x6 acked).rx.inbox = [] ∧ (offered 0x6 acked).seq = .idle ∧
    (offered 0x6 acked).inputs = [.write 0 0x6] ∧ decodeRequest 0x6 = some .clear ∧
    refusedRequest (offered 0x6 acked).params .clear = false := by decide
theorem witness_RequestHeldWhileBusy_busy : (offered 0x15 (running 7 [.setCmd 0x8D] acked)).rx.inbox = [] ∧
    (offered 0x15 (running 7 [.setCmd 0x8D] acked)).seq ≠ .idle ∧
    (offered 0x15 (running 7 [.setCmd 0x8D] acked)).inputs = [.write 0 0x15] := by decide
theorem witness_RequestExecutedWhileBusyIsHeld : (Instr.rint 0xFFFF false).isRequest = true ∧
    refusedRequest acked.params (.rint 0xFFFF false) = false ∧ (running 7 [.setCmd 0x8D] acked).seq ≠ .idle := by decide
theorem witness_HostReadsHaveNoSideEffect : ({ acked with inputs := [.read 1] } : State).rx.inbox = [] ∧
    ({ acked with inputs := [.read 2] } : State).inputs = [.read 2] := by decide
theorem witness_UndefinedHostAccessRefused : ∀ n ∈ [0, 3], n ≠ 1 ∧ n ≠ 2 ∧
    ({ acked with inputs := [.read n] } : State).inputs = [.read n] := by decide
theorem witness_UndefinedHostAccessRefused_write : ∀ n ∈ [1, 2, 3], n ≠ 0 ∧
    ({ acked with inputs := [.write n 0] } : State).inputs = [.write n 0] := by decide
theorem witness_EngineAdvancesByOneItem : ∀ it ∈ [Item.setCmd 0x8D, .clearNack, .clearErr, .emit .wait, .sampleAck],
    EngineTurn (running 7 [it] acked) [] ∧ (running 7 [it] acked).seq.pending = [it] :=
  fun _ _ => ⟨⟨rfl, .inl ⟨rfl, rfl⟩⟩, rfl⟩
theorem witness_EngineAdvancesByOneItem_reset (it : Item) :
    EngineTurn { acked with seq := .reset 0 [it, .emit .wait], inputs := [.quiet, .read 1] } [.read 1] ∧
    ({ acked with seq := .reset 0 [it, .emit .wait], inputs := [.quiet, .read 1] } : State).seq.pending = it :: [.emit .wait] :=
  ⟨⟨rfl, .inr (.inl rfl)⟩, rfl⟩
theorem witness_EngineAdvancesByOneItem_held : EngineTurn (offered 0x15 (running 7 [.setCmd 0x8D] acked)) [.write 0 0x15] ∧
    (offered 0x15 (running 7 [.setCmd 0x8D] acked)).seq.pending = [.setCmd 0x8D] :=
  ⟨⟨rfl, .inr (.inr ⟨_, _, rfl, rfl⟩)⟩, rfl⟩
theorem witness_EngineAdvancesByOneItem_byte : (State.reset.withFetchWord 8 0x44).rx.inbox = 0x44 :: [] := rfl

/-- At an acknowledgment sample, DIO an input. -/
def sampling (a : Bool) : State := running 7 [.sampleAck, .emit .wait] { start [a] with dioOe := false }

theorem witness_AckSampleUpdatesStatus : ∀ a, (sampling a).rx.inbox = [] ∧ (sampling a).inputs = [] ∧
    (sampling a).seq = .run ⟨7, false, 0, 0⟩ 0 [.sampleAck, .emit .wait] ∧ (sampling a).dioOe = false ∧
    (sampling a).dioIn = [a] := by decide
theorem witness_WireEventsOnPins : ∀ p ∈ [defaultParams, { defaultParams with latchKept := false }],
    ∀ a ∈ [Action.modeOut .clk, .modeOut .dio, .modeIn, .drive .clk false, .drive .dio true, .wait],
      EngineTurn (running 7 [.emit a, .emit .wait] { acked with params := p }) [] ∧
      (running 7 [.emit a, .emit .wait] { acked with params := p }).seq.pending = [.emit a, .emit .wait] :=
  fun _ _ _ _ => ⟨⟨rfl, .inl ⟨rfl, rfl⟩⟩, rfl⟩
theorem witness_AcceptanceChangesOnlySequencerAndBusy :
    ∀ i ∈ [Instr.init 2, .rsym 1 7 false, .rhex 0x3C, .rint 0xFFFF false, .setdp true, .clear, .setbr 5, .pwroff, .clrsts],
      i.isRequest = true ∧ refusedRequest acked.params i = false ∧ acked.seq = .idle := by decide

/-- For InitCompletes, RsymCompletes, RhexCompletes, SetdpCompletes, ClearCompletes, SetbrCompletes, PwroffCompletes,
ClrstsCompletes, CmdVisibleBeforeFrame and the first clause of RintCompletes; with the bits CompletesWith asks for. -/
theorem witness_completions : Ready acked ∧ HostWaits acked ∧
    ∀ i ∈ [Instr.init 2, .rsym 1 7 false, .rhex 0x3C, .rint 1234 true, .setdp true, .clear, .setbr 5, .pwroff],
      ∃ acks rest, acks.length = byteCount (requestFrames acked.params i) ∧ acked.dioIn = acks ++ rest := by
  refine ⟨acked_ready, acked_waits, fun i _ => ?_⟩
  have h : ∀ n, n ≤ 13 → ∃ acks rest, acks.length = n ∧ acked.dioIn = acks ++ rest := fun n hn =>
    ⟨acked.dioIn.take n, acked.dioIn.drop n, by simpa [acked, start] using hn, (List.take_append_drop _ _).symm⟩
  apply h
  cases i with
  | init | clear => decide +revert
  | rint v dec => cases dec <;> simp [requestFrames, framesRint, autoWrite, byteCount, intDigits, decDigits, hexDigits]
  | _ => simp [requestFrames, framesRsym, framesRhex, framesSetdp, framesSetbr, framesPwroff, fixedWrite,
      autoWrite, cmdWrite, byteCount, hexByte]
theorem witness_RintCompletes_hex : acked.params.hexClamp = true ∨ (0xFFFF : BitVec 16).toNat ≤ 0xFFF := .inl rfl
theorem witness_RintCompletes_unclamped : Ready { acked with params := unclamped } ∧
    HostWaits { acked with params := unclamped } ∧ (unclamped.hexClamp = true ∨ (0x0FFF : BitVec 16).toNat ≤ 0xFFF) :=
  ⟨⟨rfl, rfl, rfl, rfl, rfl, rfl⟩, .inl rfl, .inr (by decide)⟩
theorem witness_ClampedDigitAndFallbackCode : Ready (start [false, true, false]) ∧ HostWaits (start [false, true, false]) ∧
    ([false, true, false] : List Bool).length = 3 ∧ (start [false, true, false]).dioIn = [false, true, false] ++ [] ∧
    2 < (3 : Byte).toNat ∧ 40 ≤ (40 : Byte).toNat :=
  ⟨⟨rfl, rfl, rfl, rfl, rfl, rfl⟩, .inl rfl, rfl, rfl, by decide, by decide⟩
theorem witness_AcknowledgmentsDoNotSteer : Ready acked ∧ Ready (start (List.replicate 13 true)) ∧ HostWaits acked ∧
    HostWaits (start (List.replicate 13 true)) ∧ acked.params = (start (List.replicate 13 true)).params ∧
    acked.cmd = (start (List.replicate 13 true)).cmd ∧
    acked.status.err = (start (List.replicate 13 true)).status.err ∧ 13 ≤ acked.dioIn.length ∧
    13 ≤ (start (List.replicate 13 true)).dioIn.length ∧ refusedRequest acked.params (.rint 1234 true) = false :=
  ⟨acked_ready, ⟨rfl, rfl, rfl, rfl, rfl, rfl⟩, acked_waits, .inl rfl, rfl, rfl, rfl, by decide, by decide, by decide⟩
/-- For FrameEventCounts and the last clause of DataEdgesWhileClockHigh. -/
theorem witness_FrameEventCounts : ([false, true] : List Bool).length = ([0xC1, 0x07] : List Byte).length := by decide
theorem witness_ReceiverReadsByte : Receiver.reset.pos = .first ∧
    (∀ b ∈ ([0x80, 0x8F] : List Byte), 0x80 ≤ b.toNat ∧ b.toNat ≤ 0x8F) ∧
    (∀ aa : BitVec 2, ∃ b : Byte, b.toNat = 0xC0 + aa.toNat) ∧
    (∀ b ∈ ([0x00, 0x3F, 0x41, 0x7F, 0x90, 0xBF, 0xC4, 0xFF] : List Byte), b ≠ 0x40 ∧ b ≠ 0x44 ∧
      ¬(0x80 ≤ b.toNat ∧ b.toNat ≤ 0x8F) ∧ ¬(0xC0 ≤ b.toNat ∧ b.toNat ≤ 0xC3)) ∧
    ({ Receiver.reset with pos := .ignored } : Receiver).pos = .ignored :=
  ⟨rfl, by decide, fun aa => ⟨0xC0 + aa.setWidth 8, by revert aa; decide⟩, by decide, rfl⟩
theorem witness_WireInstructionsComplete : ∀ i ∈ [Instr.dataAuto, .dataFixed, .dispOff, .dispOn 7, .addr 3, .segData 0x7F,
    .dpData true], i.isRequest = false := by decide
theorem witness_FirstBytesSetModeControlOrPointer : State.reset.rx.pos = .first := rfl
theorem witness_DataBytesAreStored : (reading 3 3 .fixed).rx.pos = .data 3 ∧ Memory.wf (reading 3 3 .fixed).rx.ram ∧
    (reading 3 3 .fixed).rx.ptr ≤ 3 ∧ 3 < (reading 0 4 .auto).rx.ptr := by decide
theorem witness_WireInstructionsFrame : ∃ t, exec (.segData 0x5B) (reading 1 1 .fixed) = .next t ∧
    Memory.wf (reading 1 1 .fixed).rx.ram ∧ (reading 1 1 .fixed).rx.storeAddr ≠ some 0xC0 := ⟨_, rfl, by decide, by decide⟩
theorem witness_ReceiverEffectsOfRequests : Ready acked ∧ HostWaits acked ∧ AllAcked acked ∧ Memory.wf acked.rx.ram ∧
    hexRefused acked.params 0xFFFF false = false := ⟨acked_ready, acked_waits, ⟨[], rfl⟩, by decide, by decide⟩
theorem witness_RequestsIdempotentAtReceiver : Memory.wf ([(0xC0, 0x3F), (0xC3, 0x08)] : List Host.Cell) := by decide
theorem witness_DisplayPowerKeepsDigits : Ready acked ∧ HostWaits acked ∧ AllAcked acked :=
  ⟨acked_ready, acked_waits, ⟨[], rfl⟩⟩
theorem witness_ReceiverEffectsOfRequests_illegal : Ready (offered 0x0 acked) ∧ HostWaits (offered 0x0 acked) ∧
    AllAcked (offered 0x0 acked) ∧ decodeRequest 0x0 = none :=
  ⟨⟨rfl, rfl, rfl, rfl, rfl, rfl⟩, .inr ⟨_, _, rfl⟩, ⟨[], rfl⟩, by decide⟩
theorem witness_ResetAbandonsRequest : ({ running 7 [.emit .wait] acked with inputs := [.reset] } : State).rx.inbox = [] ∧
    ({ running 7 [.emit .wait] acked with inputs := [.reset] } : State).inputs = [.reset] := by decide
theorem witness_ResetSequenceCompletes : ({ acked with inputs := [.reset] } : State).rx.inbox = [] ∧
    (List.replicate 13 false).length = 13 ∧ acked.dioIn = List.replicate 13 false ++ [] := by decide
theorem witness_AcknowledgedResetClearsReceiver : ({ acked with inputs := [.reset] } : State).rx.inbox = [] ∧
    ({ acked with inputs := [.reset] } : State).inputs = [.reset] ∧
    ({ acked with inputs := [.reset] } : State).dioIn = List.replicate 13 false ++ [] := by decide

/-- For the invariants: a state that meets all of them and steps. -/
theorem witness_invariants : BusyInv (offered 0x6 acked) ∧ CmdInv (offered 0x6 acked) ∧ BusInv (offered 0x6 acked) ∧
    RamInv (offered 0x6 acked) ∧ OwnerInv (offered 0x6 acked) ∧
    ∃ t, step (offered 0x6 acked) = .next t :=
  ⟨⟨by decide, by decide⟩, ⟨.inl (by decide), fun v h => by simp [offered, acked, start, State.reset, Seq.pending] at h⟩, rfl,
    ⟨by decide, by decide⟩, ⟨(fun _ _ _ h => by cases h),
    fun _ _ h => by cases h⟩, _, rfl⟩

/-- For the last clauses of BusStaysDisciplined: an item that drives DIO, and a sample, at the head of a plan. -/
theorem witness_BusStaysDisciplined_drive : BusInv (running 7 (driveItem .dio true :: frameItems []) acked) := by
  simp [BusInv, running, Seq.pending, frameItems, startItems, stopItems, driveItem, busPlan, Pins.after, State.pins, acked,
    start, State.reset]
theorem witness_BusStaysDisciplined_sample : BusInv (running 7 (.sampleAck :: .emit (.modeOut .dio) :: frameItems [])
    { acked with dioOe := false }) := by
  simp [BusInv, running, Seq.pending, frameItems, startItems, stopItems, driveItem, busPlan, Pins.after, State.pins, acked,
    start, State.reset]

theorem witness_CmdWrittenOnlyByPowerRequests : ∃ t, step (running 7 [.setCmd 0x8D] acked) = .next t ∧
    t.cmd ≠ (running 7 [.setCmd 0x8D] acked).cmd := ⟨_, rfl, by decide⟩
theorem witness_CmdWrittenOnlyByPowerRequests_owner : OwnerInv (running 7 [.setCmd 0x8D] acked) := by
  refine ⟨fun req k todo h => ?_, fun k todo h => by cases h⟩
  simp only [running, Seq.run.injEq] at h
  obtain ⟨rfl, rfl, rfl⟩ := h
  exact ⟨fun _ => .inr (.inl rfl), fun h => by simp at h⟩

end Sys2Proof.Machine
end

/-! ## SUPPORT. A legal request word and its fields -/

section
namespace Sys2Proof

/-- A wide operand whose upper byte is 0 is its lower byte (30_encoding.md R71: RSYM's symbol code). -/
theorem zero_append_lowByte (v : BitVec 16) (h : v.extractLsb' 8 8 = 0) : 0#8 ++ v.extractLsb' 0 8 = v := by
  calc 0#8 ++ v.extractLsb' 0 8
      = v.extractLsb' 8 8 ++ v.extractLsb' 0 8 := by rw [h]; rfl
    _ = v := by rw [BitVec.extractLsb'_append_extractLsb'_eq_extractLsb' (by rfl)]; simp

/-- A legal word given by its fields is the word of the request it decodes to: the fields the request leaves out are 0. -/
theorem encode_of_decodeRequest_wordOf (v : BitVec 16) (a : Byte) (r : BitVec 3) (f : Bool) (op : BitVec 4) (i : Instr)
    (h : decodeRequest (wordOf v a r f op) = some i) : encode i = wordOf v a r f op := by
  rw [decodeRequest_wordOf] at h
  simp only [ne_eq, not_not, ite_eq_iff, Option.some.injEq, reduceCtorEq, and_false, or_false, false_or] at h
  -- RSV is 0; then one case for each request, with the fields its row marks 0
  obtain ⟨rfl, ⟨rfl, ⟨rfl, rfl⟩, rfl⟩ | ⟨-, ⟨rfl, hcode, rfl⟩ | ⟨-, ⟨rfl, ⟨rfl, rfl⟩, rfl⟩ |
    ⟨-, ⟨rfl, rfl, rfl⟩ | ⟨-, ⟨rfl, ⟨rfl, rfl⟩, rfl⟩ | ⟨-, ⟨rfl, ⟨rfl, rfl, rfl⟩, rfl⟩ |
    ⟨-, ⟨rfl, ⟨rfl, rfl⟩, rfl⟩ | ⟨-, ⟨rfl, ⟨rfl, rfl, rfl⟩, rfl⟩ |
    ⟨-, rfl, ⟨rfl, rfl, rfl⟩, rfl⟩⟩⟩⟩⟩⟩⟩⟩⟩ := h
  case inr.inl => rw [encode, zero_append_lowByte v hcode]; rfl
  all_goals rfl

/-- A legal request word is the word of the request it decodes to (30_encoding.md R73). -/
theorem encode_of_decodeRequest (w : Word) (i : Instr) (h : decodeRequest w = some i) : encode i = w := by
  rw [← wordOf_fields w] at h ⊢
  exact encode_of_decodeRequest_wordOf _ _ _ _ _ i h

end Sys2Proof
end

/-! ## SUPPORT. The engine's step does not look at the inputs -/

section
namespace Sys2Proof.Machine

variable (s : State) (ins : List Input)

theorem hearStop_withInputs : hearStop { s with inputs := ins } = { hearStop s with inputs := ins } := by
  unfold hearStop
  dsimp only
  split_ifs <;> rfl

theorem hear_withInputs (a : Action) : hear a { s with inputs := ins } = { hear a s with inputs := ins } := by
  unfold hear
  cases a with
  | modeOut | modeIn | wait => rfl
  | drive p v =>
    cases p with
    | clk => dsimp only; split_ifs <;> rfl
    | dio => dsimp only; rw [hearStop_withInputs]; split_ifs <;> rfl

theorem pinEffect_withInputs (a : Action) :
    pinEffect a { s with inputs := ins } = { pinEffect a s with inputs := ins } := by
  unfold pinEffect
  cases a with
  | modeOut p | drive p v => cases p <;> rfl
  | modeIn => dsimp only; split_ifs <;> rfl
  | wait => rfl

theorem sampleDio_withInputs :
    sampleDio { s with inputs := ins } = ((sampleDio s).1, { (sampleDio s).2 with inputs := ins }) := by
  unfold sampleDio
  dsimp only
  split_ifs
  · rfl
  · split <;> rfl

theorem perform_withInputs (it : Item) : perform it { s with inputs := ins } = { perform it s with inputs := ins } := by
  cases it with
  | emit a => simp only [perform, emitAction, hear_withInputs, pinEffect_withInputs]; rfl
  | sampleAck => simp only [perform, sampleAck, sampleDio_withInputs]; rfl
  | setCmd | clearNack | clearErr => rfl

theorem ackBranch_withInputs (it : Item) : ackBranch it { s with inputs := ins } = ackBranch it s := by
  cases it <;> rfl

/-- The engine's step goes the same way whatever the outside is about to do, and leaves that as it is (10_state.md R34). -/
theorem engineStep_withInputs : engineStep { s with inputs := ins } = { engineStep s with inputs := ins } := by
  cases h : s.seq.pending with
  | nil => simp only [engineStep, h]
  | cons it rest =>
    rw [engineStep_item s it rest h, engineStep_item { s with inputs := ins } it rest h, perform_withInputs,
      ackBranch_withInputs]
    rfl

/-- The engine's step leaves the configuration as it is (10_state.md R33). -/
@[simp] theorem engineStep_params : (engineStep s).params = s.params := by
  obtain ⟨-, h⟩ | ⟨it, rest, -, h⟩ := engineStep_cases s
  · rw [h]
  · rw [h, sequence_params, perform_params]

end Sys2Proof.Machine
end

/-! ## SUPPORT. Steps on a host access -/

section
namespace Sys2Proof.Machine

variable (s : State) (rest : List Input)

/-- What acceptance latches of a legal word is that word's own fields (10_state.md R27, R34). -/
theorem latch_encode_of_decodeRequest (w : Word) (i : Instr) (h : decodeRequest w = some i) :
    latch (encode i) = { op := w.extractLsb' 0 4, f := fieldF w, a := fieldA w, v := fieldV w } := by
  rw [encode_of_decodeRequest w i h]; rfl

/-- An idle engine takes a legal word off the port and accepts its request (10_state.md R34). -/
theorem step_accept (w : Word) (i : Instr) (hb : s.rx.inbox = []) (hq : s.seq = .idle)
    (hi : s.inputs = .write 0 w :: rest) (hd : decodeRequest w = some i) (hr : refusedRequest s.params i = false) :
    step s = .next (accept i (requestBody s.params i) { s with inputs := rest }) := by
  rw [step_input s _ rest hb hi]
  simp [stepInput, hq, stepRequest, hd, exec_request i _ (isRequest_of_decodeRequest w i hd), hr, offer]

/-- While the engine runs it makes the step it makes with no write pending, and the write stays (10_state.md R34). -/
theorem step_held (w : Word) (hb : s.rx.inbox = []) (hq : s.seq ≠ .idle) (hi : s.inputs = .write 0 w :: rest) :
    step s = .next { engineStep { s with inputs := [] } with inputs := .write 0 w :: rest } := by
  rw [step_waiting s hb (.inr ⟨w, rest, hi⟩) hq, ← hi]
  exact congrArg _ (engineStep_withInputs { s with inputs := [] } s.inputs)

/-- `MemRead(n)` names no register but STATUS and CMD (10_state.md R25). -/
theorem hostRegister_eq_none (n : Nat) (h1 : n ≠ 1) (h2 : n ≠ 2) : hostRegister n s = none := by
  simp [hostRegister, h1, h2]

/-- A read of no register is refused. -/
theorem step_read_refused (n : Nat) (hb : s.rx.inbox = []) (hi : s.inputs = .read n :: rest)
    (h1 : n ≠ 1) (h2 : n ≠ 2) : step s = .refused (.hostAccess n) := by
  rw [step_input s _ rest hb hi]
  simp [stepInput, hostRead, hostRegister_eq_none _ n h1 h2]

/-- A write anywhere but at REQ is refused, whatever the engine is doing. -/
theorem step_write_refused (n : Nat) (w : Word) (hb : s.rx.inbox = []) (hi : s.inputs = .write n w :: rest)
    (hn : n ≠ 0) : step s = .refused (.hostAccess n) := by
  rw [step_input s _ rest hb hi]
  simp [stepInput, hn]

end Sys2Proof.Machine
end

/-! ## SUPPORT. The configuration -/

section
namespace Sys2Proof.Machine

/-- Every case of a step leaves the configuration as it is (10_state.md R33). -/
theorem step_params (s t : State) (h : step s = .next t) : t.params = s.params := by
  obtain ⟨b, rest, -, rfl⟩ | ⟨w, rest, i, -, -, -, -, -, -, rfl⟩ | ⟨w, rest, -, -, -, -, rfl⟩ |
    ⟨n, v, rest, -, -, rfl⟩ | ⟨rest, -, -, rfl⟩ | ⟨ins, -, -, rfl⟩ := step_cases s t h
  · rw [receiveByte_params]
  · rw [accept_params]
  · rw [raiseIllegalRequest_params]
  · rfl
  · rw [beginReset_params]
  · rw [engineStep_params]

/-- A configured pattern is 7 bits wide. -/
theorem pattern_bit7 : ∀ x : BitVec 7, x.setWidth 8 &&& 0x80#8 = 0 := by decide

/-- A single-segment mask is one of the 7 segments. -/
theorem segmentMask_bit7 : ∀ k < 7, 1#8 <<< k &&& 0x80#8 = 0 := by decide

/-- Every entry of the symbol table has bit 7 = 0 (10_state.md R33). -/
theorem symtab_bit7 (p : Params) (i : Nat) (h : i < 40) : symtab p i &&& 0x80 = 0 := by
  unfold symtab
  split
  · exact pattern_bit7 _
  · exact segmentMask_bit7 (i - 33) (by omega)

end Sys2Proof.Machine
end

/-! ## The obligations of 10_state.md -/

section
open Sys2Proof Sys2Proof.Machine

/-- Settles O9: an idle engine accepts and latches the word's own fields; a busy one makes the step it would make with no
write pending, since the engine's step does not look at the inputs. -/
theorem requestHeldWhileBusy : Obligations.RequestHeldWhileBusy := by
  unfold Obligations.RequestHeldWhileBusy
  constructor
  · intro s w rest i hb hq hi hd hr
    refine ⟨requestBody s.params i, ?_⟩
    rw [step_accept s rest w i hb hq hi hd hr, accept, latch_encode_of_decodeRequest w i hd]
    rfl
  · intro s w rest hb hq hi
    exact ⟨engineStep { s with inputs := [] }, step_engine _ hb rfl, step_held s rest w hb hq hi⟩

/-- Settles O59: by the cases of a step, and by the two kinds of table entry. -/
theorem configurationNeverChanges : Obligations.ConfigurationNeverChanges :=
  ⟨step_params, symtab_bit7⟩

/-- Settles O12: reads and writes outside the interface apart. -/
theorem undefinedHostAccessRefused : Obligations.UndefinedHostAccessRefused :=
  fun s n v rest hb => ⟨fun h1 h2 hi => step_read_refused s rest n hb hi h1 h2,
    fun hn hi => step_write_refused s rest n v hb hi hn⟩

end

/-! ## SUPPORT. What a request leaves, all requests alike -/

section
namespace Sys2Proof.Machine

variable (s : State) (i : Instr)

/-- Every request but CLRSTS puts a frame on the wire (42_display_ops.md R162 to R178). -/
theorem requestFrames_ne_nil (p : Params) (h : i.isRequest = true) (hc : i ≠ .clrsts) : requestFrames p i ≠ [] := by
  cases i with
  | init | rsym | rhex | rint | setdp | clear | setbr | pwroff => exact List.cons_ne_nil _ _
  | clrsts => exact absurd rfl hc
  | dataAuto | dataFixed | dispOff | dispOn | addr | segData | dpData => simp [Instr.isRequest] at h

/-- No request sends more bytes than INIT's 13 (42_display_ops.md R162). -/
theorem byteCount_requestFrames_le (p : Params) : byteCount (requestFrames p i) ≤ 13 := by
  cases i with
  | init | clear => exact Nat.le_of_ble_eq_true rfl
  | rint v dec => cases dec <;> exact Nat.le_of_ble_eq_true rfl
  | rsym | rhex | setdp | setbr | pwroff | clrsts => exact Nat.le_of_ble_eq_true rfl
  | dataAuto | dataFixed | dispOff | dispOn | addr | segData | dpData => exact Nat.zero_le _

/-- An idle engine accepts a request that has a meaning (42_display_ops.md R160). -/
theorem exec_accept (hr : i.isRequest = true) (hm : refusedRequest s.params i = false) (hq : s.seq = .idle) :
    exec i s = .next (accept i (requestBody s.params i) s) := by
  rw [exec_request i s hr, hm, offer_idle i _ s hq]; rfl

/-- Every request but CLRSTS completes with its own frames and its own update of CMD (42_display_ops.md R162 to R178). -/
theorem completesWith_request (hr : i.isRequest = true) (hm : refusedRequest s.params i = false) (hc : i ≠ .clrsts)
    (h : Ready s) (hin : HostWaits s) :
    CompletesWith i s (requestFrames s.params i) ((requestCmds i).getLastD s.cmd) :=
  completesWith_frames i _ _ s h hin (requestFrames_ne_nil i s.params hr hc)
    (by rw [exec_accept s i hr hm h.seq, requestBody_eq s.params i hr hc])

/-- An accepted CLRSTS clears NACK_SEEN and ERR in two steps and leaves the rest as it was (42_display_ops.md R180). -/
theorem stepsTo_clrsts (h : Ready s) (hin : HostWaits s) :
    StepsTo (accept .clrsts bodyClrsts s)
      { s with status := { busy := false, lastAck := s.status.lastAck, nackSeen := false, err := false } } := by
  have hnack := step_waiting (accept .clrsts bodyClrsts s) h.inbox hin (by simp)
  have herr := step_waiting (engineStep (accept .clrsts bodyClrsts s)) h.inbox hin Seq.noConfusion
  have hlast : engineStep (engineStep (accept .clrsts bodyClrsts s)) =
      { s with
        seq := .idle
        status := { busy := false, lastAck := s.status.lastAck, nackSeen := false, err := false } } := rfl
  rw [hlast, ← h.seq] at herr
  exact .head hnack (.single herr)

/-- ERR after a request: CLRSTS clears it, the others keep it (60_exceptions.md R205, 42_display_ops.md R180). -/
def requestErr (err : Bool) : Instr → Bool
  | .clrsts => false
  | .init _ | .rsym _ _ _ | .rhex _ | .rint _ _ | .setdp _ | .clear | .setbr _ | .pwroff | .dataAuto | .dataFixed
  | .dispOff | .dispOn _ | .addr _ | .segData _ | .dpData _ => err

theorem requestErr_of_ne_clrsts (err : Bool) (hc : i ≠ .clrsts) : requestErr err i = err := by
  cases i with
  | clrsts => exact absurd rfl hc
  | _ => rfl

/-- What `u` shows of a request run from `s`: the frames `fs` on the wire, `c` in CMD and `err` in ERR, and for events
those of the frames, with the bits supplied in `s` sampled at their bytes (40_bus_protocol.md R111). -/
def Shows (fs : List (List Byte)) (c : Byte) (err : Bool) (u : State) : Prop :=
  u.frames = fs.reverse ++ s.frames ∧ u.cmd = c ∧ u.status.err = err ∧
    u.trace = (framesTrace fs (s.dioIn.take (byteCount fs))).reverse ++ s.trace

/-- A request with a meaning, given a bit for each of its bytes, shows frames, CMD and ERR that are functions of the
request, the configuration, CMD and ERR: no sampled bit is among their arguments. -/
theorem runsTo_shows (hr : i.isRequest = true) (hm : refusedRequest s.params i = false) (h : Ready s) (hin : HostWaits s)
    (hd : byteCount (requestFrames s.params i) ≤ s.dioIn.length) :
    RunsTo i s (Shows s (requestFrames s.params i) ((requestCmds i).getLastD s.cmd) (requestErr s.status.err i)) := by
  by_cases hc : i = .clrsts
  · subst hc
    exact ⟨_, _, exec_accept s .clrsts hr hm h.seq, stepsTo_clrsts s h hin,
      ⟨h.seq, rfl, h.pins, h.inFrame, h.ackBit, h.inbox⟩, rfl, rfl, rfl, rfl⟩
  · obtain ⟨t, u, he, -, hs, hu⟩ := completesWith_request s i hr hm hc h hin
      (s.dioIn.take (byteCount (requestFrames s.params i))) _ (List.length_take_of_le hd) (List.take_append_drop _ _).symm
    exact ⟨t, u, he, hs, hu.ready, hu.frames, hu.cmd, by rw [hu.status, requestErr_of_ne_clrsts i _ hc], hu.trace⟩

end Sys2Proof.Machine
end

/-! ## The obligations of 40_bus_protocol.md -/

section
open Sys2Proof Sys2Proof.Machine

/-- Settles O29: the frames, CMD and ERR that a run shows are functions of the request, the configuration, CMD and ERR,
in which the two states agree. -/
theorem acknowledgmentsDoNotSteer : Obligations.AcknowledgmentsDoNotSteer := by
  intro s r i hi hm hs hr hws hwr hp hc he hds hdr
  have hle := byteCount_requestFrames_le i s.params
  have runS := runsTo_shows s i hi hm hs hws (hle.trans hds)
  have runR := runsTo_shows r i hi (hp ▸ hm) hr hwr (hp ▸ hle.trans hdr)
  rw [← hp, ← hc, ← he] at runR
  exact ⟨_, _, _, hle, runS, runR⟩

end

/-! ## SUPPORT. Segment patterns -/

section
namespace Sys2Proof.Machine

variable (p : Params) (c : Byte)

/-- A code below the table's size shows its own entry (41_symbol_encoder.md R130). -/
theorem lookup_of_lt (h : c.toNat < 40) : lookup p c = symtab p c.toNat := if_pos h

/-- A code from the table's size on shows the space entry (41_symbol_encoder.md R130). -/
theorem lookup_of_le (h : 40 ≤ c.toNat) : lookup p c = symtab p 31 := if_neg (Nat.not_lt.mpr h)

/-- Masking a byte with 0x80 leaves 0 only where its bit 7 is 0. -/
theorem getLsbD_seven_of_and (b : Byte) (h : b &&& 0x80 = 0) : b.getLsbD 7 = false := by
  have hbit : (b &&& 0x80).getLsbD 7 = false := by rw [h]; rfl
  simpa using hbit

theorem symtab_getLsbD_seven (i : Nat) (h : i < 40) : (symtab p i).getLsbD 7 = false :=
  getLsbD_seven_of_and _ (symtab_bit7 p i h)

/-- What `lookup` shows is an entry of the table whatever the code, so its bit 7 is 0 (10_state.md R33). -/
theorem lookup_getLsbD_seven : (lookup p c).getLsbD 7 = false := by
  by_cases h : c.toNat < 40
  · rw [lookup_of_lt p c h]; exact symtab_getLsbD_seven p _ h
  · rw [lookup_of_le p c (Nat.not_lt.mp h)]; exact symtab_getLsbD_seven p 31 (by decide)

/-- The mask 0x7F of a raw pattern takes bit 7 away (41_symbol_encoder.md R131). -/
theorem rawPattern_getLsbD_seven : (rawPattern c).getLsbD 7 = false := by
  rw [rawPattern, BitVec.getLsbD_and]
  exact Bool.and_false _

/-- A digit or nibble shows the table entry at its own value (41_symbol_encoder.md R141). -/
theorem glyph_of_lt (n : Nat) (h : n < 40) : glyph p n = symtab p n := by
  have hn : (BitVec.ofNat 8 n).toNat = n := (BitVec.toNat_ofNat ..).trans (Nat.mod_eq_of_lt (h.trans (by decide)))
  rw [glyph, lookup_of_lt p _ (hn.symm ▸ h), hn]

/-- Each digit of the clamped value is below 10, so it shows the table entry at its own value (41_symbol_encoder.md R138). -/
theorem decDigits_eq (v : BitVec 16) : decDigits p v = [symtab p (min v.toNat 999 / 100),
    symtab p (min v.toNat 999 / 10 % 10), symtab p (min v.toNat 999 % 10)] := by
  have hundreds := glyph_of_lt p (min v.toNat 999 / 100) (by omega)
  have tens := glyph_of_lt p (min v.toNat 999 / 10 % 10) (by omega)
  have units := glyph_of_lt p (min v.toNat 999 % 10) (by omega)
  rw [decDigits, hundreds, tens, units]

end Sys2Proof.Machine
end

/-! ## The obligations of 41_symbol_encoder.md -/

section
open Sys2Proof Sys2Proof.Machine

/-- Settles O31: the two ranges of `lookup` apart, and bit 7 from the table's entries and from the raw mask. -/
theorem patternsResolved : Obligations.PatternsResolved :=
  fun p c => ⟨lookup_of_lt p c, lookup_of_le p c, rfl, rfl, rfl, lookup_getLsbD_seven p c, rawPattern_getLsbD_seven c⟩

/-- Settles O32: the digits are the hundreds, tens and units of the clamped value. -/
theorem decimalDigitsSpellTheValue : Obligations.DecimalDigitsSpellTheValue := by
  intro p v
  exact ⟨_, _, _, by omega, by omega, by omega, by omega, decDigits_eq p v⟩

end

/-! ## SUPPORT. The frames and the CMD of each request, written out -/

section
namespace Sys2Proof.Machine

variable (p : Params)

/-- The display-on command of a level, the clamp to 7 written out (41_symbol_encoder.md R134, R136). -/
theorem dispOn_eq (l : Byte) : dispOn l = 0x88 + BitVec.ofNat 8 (min l.toNat 7) := rfl

/-- SETBR's one frame is the display-on command (42_display_ops.md R176). -/
theorem framesSetbr_eq (l : Byte) : framesSetbr l = [[0x88 + BitVec.ofNat 8 (min l.toNat 7)]] := by
  rw [framesSetbr, cmdWrite, dispOn_eq]

/-- CLEAR writes a raw zero to each of the four addresses (42_display_ops.md R172). -/
theorem framesClear_eq : framesClear =
    [[0x44], [0xC0, 0x00], [0x44], [0xC1, 0x00], [0x44], [0xC2, 0x00], [0x44], [0xC3, 0x00]] := by decide

/-- INIT's nine frames: SETBR's, then CLEAR's (42_display_ops.md R162). -/
theorem framesInit_eq (b : Byte) : framesInit b =
    [[0x88 + BitVec.ofNat 8 (min b.toNat 7)], [0x44], [0xC0, 0x00], [0x44], [0xC1, 0x00], [0x44], [0xC2, 0x00],
      [0x44], [0xC3, 0x00]] := by
  rw [framesInit, framesSetbr_eq, framesClear_eq, List.singleton_append]

/-- RSYM writes one pattern at the clamped digit: seven raw bits, or the code's table entry, or the space entry
(42_display_ops.md R164, 41_symbol_encoder.md R130 to R133). -/
theorem framesRsym_eq (d c : Byte) (raw : Bool) : framesRsym p d c raw =
    [[0x44], [0xC0 + BitVec.ofNat 8 (min d.toNat 2),
      if raw then c &&& 0x7F else if c.toNat < 40 then symtab p c.toNat else symtab p 31]] := rfl

/-- The "h" glyph, then both nibbles, which are below 16 and show the table entries at their own values
(41_symbol_encoder.md R140). -/
theorem hexByte_eq (v : Byte) :
    hexByte p v = [symtab p 18, symtab p (v.toNat / 16), symtab p (v.toNat % 16)] := by
  have high := glyph_of_lt p (v.toNat / 16) (by have := v.isLt; omega)
  have low := glyph_of_lt p (v.toNat % 16) (by omega)
  rw [hexByte, high, low, hIdx]

/-- Each nibble of the clamped value is below 16, so it shows the table entry at its own value (41_symbol_encoder.md R139). -/
theorem hexDigits_eq (v : BitVec 16) : hexDigits p v = [symtab p (min v.toNat 0xFFF / 256),
    symtab p (min v.toNat 0xFFF / 16 % 16), symtab p (min v.toNat 0xFFF % 16)] := by
  have high := glyph_of_lt p (min v.toNat 0xFFF / 256) (by omega)
  have middle := glyph_of_lt p (min v.toNat 0xFFF / 16 % 16) (by omega)
  have low := glyph_of_lt p (min v.toNat 0xFFF % 16) (by omega)
  rw [hexDigits, high, middle, low]

/-- `autoWrite` sends the mode command, then the address 0xC0 and the patterns (40_bus_protocol.md R107). -/
theorem autoWrite_eq (patterns : List Byte) : autoWrite patterns = [[0x40], 0xC0 :: patterns] := rfl

/-- RHEX's two frames (42_display_ops.md R166). -/
theorem framesRhex_eq (v : Byte) : framesRhex p v =
    [[0x40], [0xC0, symtab p 18, symtab p (v.toNat / 16), symtab p (v.toNat % 16)]] := by
  rw [framesRhex, autoWrite_eq, hexByte_eq]

/-- RINT's two frames in decimal mode (42_display_ops.md R168). -/
theorem framesRint_decimal (v : BitVec 16) : framesRint p v true =
    [[0x40], [0xC0, symtab p (min v.toNat 999 / 100), symtab p (min v.toNat 999 / 10 % 10),
      symtab p (min v.toNat 999 % 10)]] := by
  rw [framesRint, autoWrite_eq, intDigits, if_pos rfl, decDigits_eq]

/-- RINT's two frames in hexadecimal mode (42_display_ops.md R168). -/
theorem framesRint_hexadecimal (v : BitVec 16) : framesRint p v false =
    [[0x40], [0xC0, symtab p (min v.toNat 0xFFF / 256), symtab p (min v.toNat 0xFFF / 16 % 16),
      symtab p (min v.toNat 0xFFF % 16)]] := by
  rw [framesRint, autoWrite_eq, intDigits, if_neg Bool.false_ne_true, hexDigits_eq]

/-- SETDP writes one byte at the decimal-point address (42_display_ops.md R170, 41_symbol_encoder.md R137). -/
theorem framesSetdp_eq (on : Bool) : framesSetdp on = [[0x44], [0xC3, if on then 0x08 else 0x00]] := rfl

end Sys2Proof.Machine
end

/-! ## SUPPORT. The encoding, the refusal and the completion of each request -/

section
namespace Sys2Proof.Machine

variable (s : State)

/-- The word of a request has the fields it is built from (30_encoding.md R70). -/
theorem requestWord_hasFields (op : BitVec 4) (f : Bool) (a : Byte) (v : BitVec 16) :
    HasFields (requestWord op f a v) op f a v := by
  rw [requestWord_eq_wordOf]
  exact ⟨wordOf_op .., wordOf_f .., wordOf_rsv .., wordOf_a .., wordOf_v ..⟩

/-- RSYM's word holds the code in V, the upper byte 0 (30_encoding.md R71). -/
theorem encode_rsym_hasFields (d c : Byte) (raw : Bool) :
    HasFields (encode (.rsym d c raw)) 2 raw d (c.setWidth 16) := by
  rw [BitVec.setWidth_eq_append (by decide)]
  exact requestWord_hasFields 2 raw d _

/-- renderInteger has no meaning in hexadecimal mode above 0xFFF with `HEX_CLAMP` false (41_symbol_encoder.md R139). -/
theorem hexRefused_iff (p : Params) (v : BitVec 16) (dec : Bool) :
    hexRefused p v dec = true ↔ dec = false ∧ p.hexClamp = false ∧ 0xFFF < v.toNat := by
  simp [hexRefused, and_assoc]

/-- Clamping, or a value that fits three nibbles, gives renderInteger a meaning (41_symbol_encoder.md R139). -/
theorem hexRefused_eq_false (p : Params) (v : BitVec 16) (dec : Bool) (h : p.hexClamp = true ∨ v.toNat ≤ 0xFFF) :
    hexRefused p v dec = false := by
  refine Bool.eq_false_iff.mpr fun hr => ?_
  obtain ⟨-, hclamp, hv⟩ := (hexRefused_iff p v dec).mp hr
  obtain hc | hle := h
  · simp [hc] at hclamp
  · omega

/-- RINT is refused exactly where it has no meaning, be the engine idle or not (42_display_ops.md R168). -/
theorem exec_rint_refused_iff (v : BitVec 16) (dec : Bool) :
    exec (.rint v dec) s = .refused .hexNotClamped ↔ hexRefused s.params v dec = true := by
  rw [exec_request _ s rfl, refusedRequest]
  split <;> simp [*]

/-- `completesWith_request` with the frames and CMD replaced by what they are for the request at hand. -/
theorem completesWith_of_eq {i : Instr} {fs : List (List Byte)} {c : Byte} (h : Ready s) (hin : HostWaits s)
    (hr : i.isRequest = true) (hc : i ≠ .clrsts) (hm : refusedRequest s.params i = false)
    (hfs : requestFrames s.params i = fs) (hcmd : (requestCmds i).getLastD s.cmd = c) : CompletesWith i s fs c := by
  subst hfs hcmd
  exact completesWith_request s i hr hm hc h hin

end Sys2Proof.Machine
end

/-! ## The obligations of 42_display_ops.md -/

section
open Sys2Proof Sys2Proof.Machine

/-- Settles O18: CMD and the first frame are SETBR's, the other eight frames CLEAR's. -/
theorem initCompletes : Obligations.InitCompletes :=
  ⟨fun b => requestWord_hasFields 1 false b 0,
    fun s b h hin => completesWith_of_eq s h hin rfl nofun rfl (framesInit_eq b) (dispOn_eq b)⟩

/-- Settles O19: one fixed-address write of the resolved pattern, and no write of CMD. -/
theorem rsymCompletes : Obligations.RsymCompletes :=
  ⟨encode_rsym_hasFields,
    fun s d c raw h hin => completesWith_of_eq s h hin rfl nofun rfl (framesRsym_eq s.params d c raw) rfl⟩

/-- Settles O20: the "h" glyph and two nibbles, each of which is its own index in the symbol table. -/
theorem rhexCompletes : Obligations.RhexCompletes :=
  ⟨fun v => requestWord_hasFields 3 false v 0,
    fun s v h hin => completesWith_of_eq s h hin rfl nofun rfl (framesRhex_eq s.params v) rfl⟩

/-- Settles O21: decimal mode always has a meaning, hexadecimal mode unless the value overflows unclamped; the digits of
either are their own indices in the symbol table. -/
theorem rintCompletes : Obligations.RintCompletes := by
  refine ⟨fun v dec => requestWord_hasFields 4 dec 0 v, fun s v h hin => ?decimal, fun s v h hin hv => ?hexadecimal,
    fun s v dec => (exec_rint_refused_iff s v dec).trans (hexRefused_iff s.params v dec)⟩
  case decimal =>
    exact completesWith_of_eq s h hin rfl nofun rfl (framesRint_decimal s.params v) rfl
  case hexadecimal =>
    exact completesWith_of_eq s h hin rfl nofun (hexRefused_eq_false s.params v false hv)
      (framesRint_hexadecimal s.params v) rfl

/-- Settles O22: one fixed-address write at the decimal-point address, and no write of CMD. -/
theorem setdpCompletes : Obligations.SetdpCompletes :=
  ⟨fun on => requestWord_hasFields 5 on 0 0,
    fun s on h hin => completesWith_of_eq s h hin rfl nofun rfl (framesSetdp_eq on) rfl⟩

/-- Settles O23: four fixed-address writes of zero, and no write of CMD. -/
theorem clearCompletes : Obligations.ClearCompletes :=
  ⟨requestWord_hasFields 6 false 0 0,
    fun s h hin => completesWith_of_eq s h hin rfl nofun rfl framesClear_eq rfl⟩

/-- Settles O24: the display-on command of the clamped level goes to CMD and on the wire. -/
theorem setbrCompletes : Obligations.SetbrCompletes :=
  ⟨fun l => requestWord_hasFields 7 false l 0,
    fun s l h hin => completesWith_of_eq s h hin rfl nofun rfl (framesSetbr_eq l) (dispOn_eq l)⟩

/-- Settles O25: the display-off command goes to CMD and on the wire. -/
theorem pwroffCompletes : Obligations.PwroffCompletes :=
  ⟨requestWord_hasFields 8 false 0 0, fun s h hin => completesWith_of_eq s h hin rfl nofun rfl rfl rfl⟩

/-- Settles O26: CLRSTS is accepted like the others, and its two items take the two steps of `stepsTo_clrsts`. -/
theorem clrstsCompletes : Obligations.ClrstsCompletes :=
  ⟨requestWord_hasFields 9 false 0 0,
    fun s h hin => ⟨_, exec_accept s .clrsts rfl rfl h.seq, stepsTo_clrsts s h hin⟩⟩

end

/-! ## SUPPORT. What can clear ERR and NACK_SEEN -/

section
namespace Sys2Proof.Machine

@[simp] theorem Status.setBusy_err (st : Status) (b : Bool) : (st.setBusy b).err = st.err := rfl
@[simp] theorem Status.setBusy_nackSeen (st : Status) (b : Bool) : (st.setBusy b).nackSeen = st.nackSeen := rfl
@[simp] theorem Status.recordAck_err (st : Status) (a : Bool) : (st.recordAck a).err = st.err := rfl
@[simp] theorem Status.recordAck_nackSeen (st : Status) (a : Bool) :
    (st.recordAck a).nackSeen = (st.nackSeen || a) := rfl

/-- ERR or NACK_SEEN goes from 1 to 0 (60_exceptions.md R205, 10_state.md R30). -/
def StickyFalls (st st' : Status) : Prop :=
  st.err = true ∧ st'.err = false ∨ st.nackSeen = true ∧ st'.nackSeen = false

/-- Where both flags are kept, or ERR is set, neither falls. -/
theorem not_stickyFalls {st st' : Status} (he : st'.err = st.err ∨ st'.err = true) (hn : st'.nackSeen = st.nackSeen) :
    ¬ StickyFalls st st' := by
  rintro (⟨h1, h0⟩ | ⟨h1, h0⟩)
  · obtain he | he := he <;> simp [he, h1] at h0
  · simp [hn, h1] at h0

variable {s t : State}

/-- The one kind of item that clears a flag: an acknowledgment sample only adds to NACK_SEEN (40_bus_protocol.md R103). -/
theorem clear_of_stickyFalls_perform (it : Item) (h : StickyFalls s.status (perform it s).status) :
    it = .clearNack ∨ it = .clearErr := by
  cases it with
  | clearNack => exact .inl rfl
  | clearErr => exact .inr rfl
  | emit a => exact absurd h (not_stickyFalls (.inl (by simp [perform])) (by simp [perform]))
  | setCmd v => exact absurd h (not_stickyFalls (.inl rfl) rfl)
  | sampleAck =>
    obtain ⟨h1, h0⟩ | ⟨h1, h0⟩ := h
    · simp [perform, h1] at h0
    · simp [perform, h1] at h0

/-- The engine's step clears a flag only with an item of CLRSTS before it (42_display_ops.md R180). -/
theorem clear_mem_of_stickyFalls_engineStep (h : StickyFalls s.status (engineStep s).status) :
    .clearNack ∈ s.seq.pending ∨ .clearErr ∈ s.seq.pending := by
  obtain ⟨-, hs⟩ | ⟨it, rest, hp, hs⟩ := engineStep_cases s
  · rw [hs] at h
    exact absurd h (not_stickyFalls (.inl rfl) rfl)
  · rw [hs] at h
    rw [hp]
    obtain rfl | rfl := clear_of_stickyFalls_perform it h
    · exact .inl List.mem_cons_self
    · exact .inr List.mem_cons_self

/-- Where a clearing item remains, the request that runs is CLRSTS. -/
theorem OwnerInv.clrsts_of_clear_mem (h : OwnerInv s) (hm : .clearNack ∈ s.seq.pending ∨ .clearErr ∈ s.seq.pending) :
    ∃ req k todo, s.seq = .run req k todo ∧ req.op = 9 := by
  obtain ⟨hrun, hreset⟩ := h
  cases hq : s.seq with
  | idle => simp [hq, Seq.pending] at hm
  | run req k todo => exact ⟨req, k, todo, rfl, (hrun req k todo hq).2 (by rwa [hq] at hm)⟩
  | reset k todo =>
    obtain ⟨hnack, herr⟩ := hreset k todo hq
    rw [hq] at hm
    exact absurd hm (not_or.mpr ⟨hnack, herr⟩)

/-- Of the cases of a step, only the start of reset and the engine's own step clear a flag. -/
theorem reset_or_clrsts_of_stickyFalls (ho : OwnerInv s) (hs : step s = .next t) (hf : StickyFalls s.status t.status) :
    (∃ rest, s.inputs = .reset :: rest) ∨ ∃ req k todo, s.seq = .run req k todo ∧ req.op = 9 := by
  obtain ⟨b, rest, -, rfl⟩ | ⟨w, rest, i, -, -, -, -, -, -, rfl⟩ | ⟨w, rest, -, -, -, -, rfl⟩ |
    ⟨n, v, rest, -, -, rfl⟩ | ⟨rest, -, hi, -⟩ | ⟨ins, -, -, rfl⟩ := step_cases s t hs
  · exact absurd hf (not_stickyFalls (.inl rfl) rfl)
  · exact absurd hf (not_stickyFalls (.inl rfl) rfl)
  · exact absurd hf (not_stickyFalls (.inr rfl) rfl)
  · exact absurd hf (not_stickyFalls (.inl rfl) rfl)
  · exact .inl ⟨rest, hi⟩
  · exact .inr (ho.clrsts_of_clear_mem (clear_mem_of_stickyFalls_engineStep (s := { s with inputs := ins }) hf))

end Sys2Proof.Machine
end

/-! ## SUPPORT. Steps on a request word at an idle engine -/

section
namespace Sys2Proof.Machine

variable {s t : State} {w : Word} {rest : List Input}

/-- An idle engine takes an illegal word off the port and raises IllegalRequest (60_exceptions.md R200). -/
theorem step_illegal (hb : s.rx.inbox = []) (hq : s.seq = .idle) (hi : s.inputs = .write 0 w :: rest)
    (hd : decodeRequest w = none) : step s = .next (raiseIllegalRequest { s with inputs := rest }) := by
  rw [step_input s _ rest hb hi]
  simp [stepInput, hq, stepRequest, hd]

/-- A legal word that an idle engine takes changes no flag but BUSY: a request that is refused answers no next state. -/
theorem status_of_step_legal (hb : s.rx.inbox = []) (hq : s.seq = .idle) (hi : s.inputs = .write 0 w :: rest)
    (hd : (decodeRequest w).isSome = true) (hs : step s = .next t) : t.status = s.status.setBusy true := by
  obtain ⟨i, hd⟩ := Option.isSome_iff_exists.mp hd
  cases hr : refusedRequest s.params i with
  | false =>
    rw [step_accept s rest w i hb hq hi hd hr] at hs
    cases hs; rfl
  | true =>
    rw [step_input s _ rest hb hi] at hs
    simp [stepInput, hq, stepRequest, hd, exec_request i _ (isRequest_of_decodeRequest w i hd), hr] at hs

end Sys2Proof.Machine
end

/-! ## The obligations of 60_exceptions.md -/

section
open Sys2Proof Sys2Proof.Machine

/-- Settles O58: of all steps only the start of reset and an item of CLRSTS clear ERR or NACK_SEEN. -/
theorem stickyBitsClearedOnlyByClrstsOrReset : Obligations.StickyBitsClearedOnlyByClrstsOrReset :=
  fun _ _ => reset_or_clrsts_of_stickyFalls

/-- Settles O8: the step on an illegal word, the step on a legal one, and the ERR half of O58. -/
theorem illegalWordSetsErrOnly : Obligations.IllegalWordSetsErrOnly := by
  refine ⟨fun s w rest hb hq hi hd => ?illegal, fun s t w rest hb hq hi hd hs => ?legal,
    fun s t ho hs h1 h0 => ?sticky⟩
  case illegal => exact step_illegal hb hq hi hd
  case legal => rw [status_of_step_legal hb hq hi hd hs, Status.setBusy_err]
  case sticky => exact reset_or_clrsts_of_stickyFalls ho hs (.inl ⟨h1, h0⟩)

end

/-! ## SUPPORT. Frames begun from any levels of the lines -/

section
namespace Sys2Proof.Machine

variable {s : State}

/-- A receiver in no frame hears nothing of the lines driven high, CLK first (40_bus_protocol.md R100). -/
theorem cycleItem_linesHigh (hb : s.rx.inbox = []) (hf : s.rx.inFrame = false) :
    cycleItem (cycleItem s (driveItem .clk true)) (driveItem .dio true) =
      { s with clkOut := true, dioOut := true, trace := [drives .dio true, drives .clk true] ++ s.trace } := by
  have hrise : clkHeard true s = s.rx := by simp [clkHeard, Receiver.clockRise, hf]
  rw [cycleItem_clk s true hb, hrise]
  exact cycleItem_dio_high _ hb hf

/-- A start drives both lines high first, so its run forgets the levels it began from (40_bus_protocol.md R100). -/
theorem foldl_startItems_withLevels (clk dio : Bool) (hb : s.rx.inbox = []) (hf : s.rx.inFrame = false) :
    startItems.foldl cycleItem { s with clkOut := clk, dioOut := dio } = startItems.foldl cycleItem s := by
  have hlevels := cycleItem_linesHigh (s := { s with clkOut := clk, dioOut := dio }) hb hf
  simp only [startItems, List.foldl_cons, hlevels, cycleItem_linesHigh hb hf]

/-- The run of at least one frame from both pins as outputs, whatever their levels: the run from the idle bus. -/
theorem afterFrames_of_startReady {fs : List (List Byte)} {acks rest : List Bool} (h : StartReady s) (hne : fs ≠ [])
    (hl : acks.length = byteCount fs) (hi : s.dioIn = acks ++ rest) :
    AfterFrames s ((framesItems fs).foldl cycleItem s) fs acks rest := by
  obtain ⟨f, fs, rfl⟩ := List.exists_cons_of_ne_nil hne
  have hbus : BusReady { s with clkOut := true, dioOut := true } :=
    ⟨by simp [State.pins, h.clkOe, h.dioOe], h.inFrame, h.ackBit, h.inbox⟩
  have hrun := afterFrames (f :: fs) _ acks rest hbus hl hi
  simp only [framesItems, List.flatMap_cons, frameItems, List.foldl_append,
    foldl_startItems_withLevels true true h.inbox h.inFrame] at hrun ⊢
  exact { hrun with }

end Sys2Proof.Machine
end

/-! ## SUPPORT. The run of the reset sequence -/

section
namespace Sys2Proof.Machine

variable {s : State}

/-- A reset that comes next begins at once, whatever the engine is doing (70_reset_and_hazards.md R231). -/
theorem step_reset {rest : List Input} (hb : s.rx.inbox = []) (hi : s.inputs = .reset :: rest) :
    step s = .next (beginReset { s with inputs := rest }) :=
  step_input s .reset rest hb hi

/-- STATUS reads 0x01 at the start of reset: BUSY and nothing else (70_reset_and_hazards.md R230). -/
@[simp] theorem Status.byte_atReset : Status.atReset.byte = 0x01 := by decide

/-- The item of writing CMD changes CMD only. -/
theorem cycleItem_setCmd (s : State) (v : Byte) (hb : s.rx.inbox = []) : cycleItem s (.setCmd v) = { s with cmd := v } :=
  drain_empty { s with cmd := v } hb

/-- The state in which the reset sequence comes to its frames: both pins outputs, CLK first, and CMD written
(70_reset_and_hazards.md R230). -/
def pinsConfigured (s : State) : State :=
  { s with
    clkOe := true
    dioOe := true
    cmd := 0x8A
    trace := [.act (.modeOut .dio), .act (.modeOut .clk)] ++ s.trace }

/-- The reset sequence configures the pins, writes CMD and sends INIT's frames (70_reset_and_hazards.md R230). -/
theorem foldl_resetItems (hb : s.rx.inbox = []) :
    resetItems.foldl cycleItem s = (framesItems (framesInit brightDefault)).foldl cycleItem (pinsConfigured s) := by
  have hclk : cycleItem s (.emit (.modeOut .clk)) = emitAction (.modeOut .clk) s := cycleItem_emit s _ hb
  have hdio : cycleItem (emitAction (.modeOut .clk) s) (.emit (.modeOut .dio)) =
      emitAction (.modeOut .dio) (emitAction (.modeOut .clk) s) := cycleItem_emit _ _ hb
  have hcmd := cycleItem_setCmd (emitAction (.modeOut .dio) (emitAction (.modeOut .clk) s)) 0x8A hb
  rw [resetItems_eq, List.foldl_cons, List.foldl_cons, List.foldl_cons, hclk, hdio, hcmd]
  rfl

/-- The frames of the reset sequence: INIT's at the default brightness (70_reset_and_hazards.md R230). -/
theorem framesInit_brightDefault : framesInit brightDefault =
    [[0x8A], [0x44], [0xC0, 0x00], [0x44], [0xC1, 0x00], [0x44], [0xC2, 0x00], [0x44], [0xC3, 0x00]] :=
  framesInit_eq brightDefault

/-- A reset that has begun, with no input behind it and a bit supplied for each of its bytes, runs to its end: it leaves
INIT's frames, sent from the configured pins, and an idle engine (70_reset_and_hazards.md R230). -/
theorem stepsTo_beginReset {acks rest : List Bool} (hi : s.inputs = []) (hl : acks.length = 13)
    (hd : s.dioIn = acks ++ rest) :
    ∃ u, StepsTo (beginReset s) (withSeq .idle false u) ∧
      AfterFrames (pinsConfigured (beginReset s)) u (framesInit brightDefault) acks rest := by
  have hb : (beginReset s).rx.inbox = [] := rfl
  obtain ⟨q, hsteps, -, hq⟩ := steps_items resetItems [] (beginReset s) hb (.inl hi) Seq.noConfusion
    (List.append_nil _).symm (List.cons_ne_nil _ _)
  obtain rfl := hq.mpr rfl
  rw [foldl_resetItems hb] at hsteps
  have hstart : StartReady (pinsConfigured (beginReset s)) := ⟨rfl, rfl, rfl, rfl, rfl⟩
  exact ⟨_, hsteps, afterFrames_of_startReady hstart (List.cons_ne_nil _ _) hl hd⟩

end Sys2Proof.Machine
end

/-! ## The obligations of 70_reset_and_hazards.md -/

section
open Sys2Proof Sys2Proof.Machine

/-- Settles O48: the reset begins, then its items run, and what their frames leave is what the statement lists. -/
theorem resetSequenceCompletes : Obligations.ResetSequenceCompletes := by
  intro s acks rest hb hi hl hd
  obtain ⟨u, hsteps, hu⟩ := stepsTo_beginReset (s := { s with inputs := [] }) rfl hl hd
  rw [framesInit_brightDefault] at hu
  have hready : Ready (withSeq .idle false u) :=
    ⟨rfl, rfl, hu.ready.pins, hu.ready.inFrame, hu.ready.ackBit, hu.ready.inbox⟩
  have hstatus : (withSeq .idle false u).status = (Status.atReset.afterAcks acks).setBusy false :=
    congrArg (Status.setBusy · false) hu.status
  refine ⟨_, _, step_reset hb hi, Status.byte_atReset, rfl, hsteps, hready, hu.cmd, hstatus.trans ?flags, hu.frames,
    hu.trace.trans ?trace, hu.params, hu.reads, hu.dioIn⟩
  case flags => simp [Status.afterAcks, Status.setBusy, Status.atReset]
  case trace => simp [pinsConfigured]

/-- Settles O47: the step is `beginReset`, which writes neither the pins nor the trace nor the configuration. -/
theorem resetAbandonsRequest : Obligations.ResetAbandonsRequest :=
  fun _ _ hb hi => ⟨_, _, step_reset hb hi, rfl, Status.byte_atReset, rfl, rfl, rfl, rfl, rfl, rfl⟩

end
/-! ## SUPPORT. The decoder and the encoder at each port -/

section
namespace Sys2Proof

/-- The word of each request decodes to the request: the fields its row asks to be 0 are 0 (30_encoding.md R71, R73). -/
theorem decodeRequest_encode (i : Instr) (h : i.isRequest = true) : decodeRequest (encode i) = some i := by
  cases i with
  | rsym d c raw =>
    have high : (0#8 ++ c).extractLsb' 8 8 = 0 := BitVec.extractLsb'_append_eq_left
    have low : (0#8 ++ c).extractLsb' 0 8 = c := BitVec.extractLsb'_append_eq_right
    rw [encode, requestWord_eq_wordOf, decodeRequest_wordOf, high, low]
    simp
  | init | rhex | rint | setdp | clear | setbr | pwroff | clrsts =>
    rw [encode, requestWord_eq_wordOf, decodeRequest_wordOf]
    simp
  | dataAuto | dataFixed | dispOff | dispOn | addr | segData | dpData => simp [Instr.isRequest] at h

/-- No request may stand in a frame (30_encoding.md R77). -/
theorem isRequest_of_fitsAt (pos : FramePos) (i : Instr) (h : i.fitsAt pos = true) : i.isRequest = false := by
  cases i with
  | dataAuto | dataFixed | dispOff | dispOn | addr | segData | dpData => rfl
  | init | rsym | rhex | rint | setdp | clear | setbr | pwroff | clrsts => cases pos <;> simp [Instr.fitsAt] at h

/-- The word of a wire instruction is one byte (30_encoding.md R77). -/
theorem encode_lt_of_wire (i : Instr) (h : i.isRequest = false) : (encode i).toNat < 256 := by
  cases i with
  | dataAuto => exact Laws.RowMatch.dataAuto.1
  | dataFixed => exact Laws.RowMatch.dataFixed.1
  | dispOff => exact Laws.RowMatch.dispOff.1
  | dispOn l => exact (Laws.RowMatch.dispOn l).1
  | addr aa => exact (Laws.RowMatch.addr aa).1
  | segData p => exact (Laws.RowMatch.segData p).1
  | dpData on => exact (Laws.RowMatch.dpData on).1
  | init | rsym | rhex | rint | setdp | clear | setbr | pwroff | clrsts => simp [Instr.isRequest] at h

theorem decodeFirst_dispOn : ∀ l : BitVec 3, decodeFirst (encodeByte (.dispOn l)) = some (.dispOn l) := by decide

theorem decodeFirst_addr : ∀ aa : BitVec 2, decodeFirst (encodeByte (.addr aa)) = some (.addr aa) := by decide

theorem decodeData_segData : ∀ (opened : BitVec 2) (p : BitVec 7), opened ≠ 3 →
    decodeData opened (encodeByte (.segData p)) = some (.segData p) := by decide

theorem decodeData_dpData : ∀ on : Bool, decodeData 3 (encodeByte (.dpData on)) = some (.dpData on) := by decide

/-- The byte of a class decodes to the class wherever the class may stand (30_encoding.md R77). -/
theorem decodeByte_encodeByte (pos : FramePos) (i : Instr) (h : i.fitsAt pos = true) :
    decodeByte pos (encodeByte i) = some i := by
  cases pos with
  | first =>
    cases i with
    | dataAuto | dataFixed | dispOff => rfl
    | dispOn l => exact decodeFirst_dispOn l
    | addr aa => exact decodeFirst_addr aa
    | _ => simp [Instr.fitsAt] at h
  | data opened =>
    cases i with
    | segData p => exact decodeData_segData opened p (by simpa [Instr.fitsAt] using h)
    | dpData on =>
      obtain rfl : opened = 3 := by simpa [Instr.fitsAt] using h
      exact decodeData_dpData on
    | _ => simp [Instr.fitsAt] at h
  | ignored => simp [Instr.fitsAt] at h

/-- A wire port reads the byte of a word below 256. -/
theorem decode_wire (pos : FramePos) (w : Word) (h : w.toNat < 256) :
    decode (.wire pos) w = decodeByte pos (w.setWidth 8) := if_pos h

/-- A wire port gives no meaning to a word that is no byte. -/
theorem decode_wire_eq_none (pos : FramePos) (w : Word) (h : ¬ w.toNat < 256) : decode (.wire pos) w = none := if_neg h

theorem fitsAt_of_decodeFirst : ∀ (b : Byte) (i : Instr), decodeFirst b = some i → i.fitsAt .first = true := by decide

theorem fitsAt_of_decodeData : ∀ (opened : BitVec 2) (b : Byte) (i : Instr),
    decodeData opened b = some i → i.fitsAt (.data opened) = true := by decide

/-- A byte's class may stand where the byte stands (30_encoding.md R77). -/
theorem fitsAt_of_decodeByte (pos : FramePos) (b : Byte) (i : Instr) (h : decodeByte pos b = some i) :
    i.fitsAt pos = true := by
  cases pos with
  | first => exact fitsAt_of_decodeFirst b i h
  | data opened => exact fitsAt_of_decodeData opened b i h
  | ignored => simp [decodeByte] at h

/-- Words below 256 with the same byte are the same. -/
theorem eq_of_setWidth_eq {w w' : Word} (h : w.toNat < 256) (h' : w'.toNat < 256) (e : w.setWidth 8 = w'.setWidth 8) :
    w = w' := by
  have hn := congrArg BitVec.toNat e
  simp only [BitVec.toNat_setWidth] at hn
  exact BitVec.eq_of_toNat_eq (by omega)

/-! ## The rows of the request table -/

/-- A word is legal exactly when it hits a row (30_encoding.md R73). -/
theorem decodeRequest_isSome_iff (w : Word) :
    (decodeRequest w).isSome = true ↔ ∃ r ∈ requestRows, r.hits w = true := by
  rw [decodeRequest, Option.isSome_map, List.find?_isSome]

/-- OP is one of the nine opcodes or reserved (30_encoding.md R71). -/
theorem opcode_cases : ∀ op : BitVec 4, op = 1 ∨ op = 2 ∨ op = 3 ∨ op = 4 ∨ op = 5 ∨ op = 6 ∨ op = 7 ∨ op = 8 ∨ op = 9 ∨
    op = 0 ∨ op = 10 ∨ op = 11 ∨ op = 12 ∨ op = 13 ∨ op = 14 ∨ op = 15 := by decide

/-- A legal word by its fields (30_encoding.md R71, R73). -/
theorem decodeRequest_wordOf_isSome (v : BitVec 16) (a : Byte) (r : BitVec 3) (f : Bool) (op : BitVec 4) :
    (decodeRequest (wordOf v a r f op)).isSome = true ↔ r = 0 ∧
      ((op = 1 ∧ f = false ∧ v = 0) ∨ (op = 2 ∧ v.extractLsb' 8 8 = 0) ∨ (op = 3 ∧ f = false ∧ v = 0) ∨
       (op = 4 ∧ a = 0) ∨ (op = 5 ∧ a = 0 ∧ v = 0) ∨ (op = 6 ∧ f = false ∧ a = 0 ∧ v = 0) ∨
       (op = 7 ∧ f = false ∧ v = 0) ∨ (op = 8 ∧ f = false ∧ a = 0 ∧ v = 0) ∨
       (op = 9 ∧ f = false ∧ a = 0 ∧ v = 0)) := by
  rw [decodeRequest_wordOf]
  by_cases hr : r = 0
  · subst hr
    rcases opcode_cases op with rfl | rfl | rfl | rfl | rfl | rfl | rfl | rfl | rfl | rfl | rfl | rfl | rfl | rfl | rfl | rfl
      <;> simp
  · rw [if_pos hr]
    exact ⟨nofun, fun h => absurd h.1 hr⟩

/-- The upper byte of the wide operand is the upper byte of the word (30_encoding.md R70). -/
theorem extractLsb'_24_eq (w : Word) : w.extractLsb' 24 8 = (fieldV w).extractLsb' 8 8 := by
  ext i hi
  have hlt : 8 + i < 16 := by omega
  simp [fieldV, hlt, ← Nat.add_assoc]

/-- Every row's mask covers OP (30_encoding.md R73). -/
theorem requestRows_mask_op : ∀ r ∈ requestRows, r.mask &&& 0xF = 0xF := by decide

/-- Each row has an OP of its own (30_encoding.md R73). -/
theorem requestRows_pairwise_op : requestRows.Pairwise fun r q => r.value &&& 0xF ≠ q.value &&& 0xF := by decide

/-- A word that hits a row has the row's OP. -/
theorem op_of_hits {r : RequestRow} {w : Word} (hr : r ∈ requestRows) (h : r.hits w = true) :
    w &&& 0xF = r.value &&& 0xF := by
  rw [RequestRow.hits, beq_iff_eq] at h
  rw [← h, BitVec.and_assoc, requestRows_mask_op r hr]

/-! ## The words of the assembler -/

/-- A code that fits a byte, in the wide operand of a word, is the code of an RSYM (30_encoding.md R79, R80). -/
theorem requestWord_code (raw : Bool) (d : Byte) (c : Nat) (h : c < 256) :
    requestWord 2 raw d (BitVec.ofNat 16 c) = encode (.rsym d (BitVec.ofNat 8 c) raw) := by
  have hc : BitVec.ofNat 16 c = 0#8 ++ BitVec.ofNat 8 c := by
    refine BitVec.eq_of_toNat_eq ?_
    rw [BitVec.toNat_append]
    simp
    omega
  rw [hc, encode]

end Sys2Proof
end

/-! ## The obligations of 30_encoding.md: words -/

section
open Sys2Proof Sys2Proof.Machine

/-- Settles O2: a request by the fields of its word, a wire instruction by its byte at each position. -/
theorem decodeEncodeRoundTrip : Obligations.DecodeEncodeRoundTrip := by
  intro port i h
  cases port with
  | req => exact decodeRequest_encode i h
  | wire pos =>
    rw [decode_wire pos _ (encode_lt_of_wire i (isRequest_of_fitsAt pos i h))]
    exact decodeByte_encodeByte pos i h

/-- Settles O3: a request word is its fields, and a word below 256 is its byte. -/
theorem encodeDecodeRoundTrip : Obligations.EncodeDecodeRoundTrip := by
  intro port w i h
  cases port with
  | req => exact ⟨isRequest_of_decodeRequest w i h, encode_of_decodeRequest w i h⟩
  | wire pos =>
    by_cases hw : w.toNat < 256
    · rw [decode_wire pos w hw] at h
      have hlt := encode_lt_of_wire i (isRequest_of_decodeByte pos _ i h)
      exact ⟨fitsAt_of_decodeByte pos _ i h, eq_of_setWidth_eq hlt hw (encodeByte_of_decodeByte pos _ i h)⟩
    · simp [decode_wire_eq_none pos w hw] at h

/-- Settles O1: by the decoder's equation on fields; by the rows; and two rows hit by one word would have the same OP. -/
theorem legalWordsExactly : Obligations.LegalWordsExactly := by
  refine ⟨fun w => ?fields, fun w => ?masks, ?disjoint⟩
  case fields =>
    rw [extractLsb'_24_eq, ← decodeRequest_wordOf_isSome, wordOf_fields]
  case masks =>
    rw [decodeRequest_isSome_iff]
    simp [requestRows, RequestRow.hits]
  case disjoint =>
    refine requestRows_pairwise_op.imp_of_mem fun hr hq hne w hw => hne ?_
    rw [← op_of_hits hr hw.1, op_of_hits hq hw.2]

/-- Settles O4: each line of text, each word and each byte is evaluated. -/
theorem writtenOutWordsDecode : Obligations.WrittenOutWordsDecode := by
  simp only [Obligations.WrittenOutWordsDecode, List.forall_mem_cons, List.not_mem_nil, false_imp_iff, implies_true,
    and_true]
  repeat' apply And.intro
  all_goals decide

/-- Settles O5: each line's word is the word of the request the line stands for. -/
theorem assemblerWordsDecode : Obligations.AssemblerWordsDecode := by
  refine ⟨fun l h => if_neg (Bool.eq_false_iff.mp h), fun l h => ⟨l.toWord, if_pos h, ?_⟩⟩
  cases l with
  | init b => exact decodeRequest_encode (.init _) rfl
  | rhex v => exact decodeRequest_encode (.rhex _) rfl
  | rint v hex => exact decodeRequest_encode (.rint _ _) rfl
  | setdp on => exact decodeRequest_encode (.setdp _) rfl
  | clear => exact decodeRequest_encode .clear rfl
  | setbr l => exact decodeRequest_encode (.setbr _) rfl
  | pwroff => exact decodeRequest_encode .pwroff rfl
  | clrsts => exact decodeRequest_encode .clrsts rfl
  | dpon | dpoff => exact decodeRequest_encode (.setdp _) rfl
  | blank d => exact decodeRequest_encode (.rsym _ 0 true) rfl
  | rdec v | rhexw v => exact decodeRequest_encode (.rint _ _) rfl
  | word n => exact (BitVec.toNat_ofNat ..).trans (Nat.mod_eq_of_lt (by simpa [AsmLine.wellFormed] using h))
  | rsym d c | seg d c | glyph d c =>
    have hc : c < 256 := by simp [AsmLine.wellFormed] at h; exact h.2
    rw [AsmLine.toWord, requestWord_code _ _ _ hc]
    exact decodeRequest_encode (.rsym _ _ _) rfl

end

/-! ## SUPPORT. The frames of the requests as byte classes -/

section
namespace Sys2Proof.Machine

/-- The frame's bytes have classes at their positions, and those make a frame the engine may send (30_encoding.md R77). -/
def IsSentFrame (f : List Byte) : Prop := ∃ is, decodeFrame f = some is ∧ wellFormedFrame is = true

theorem isSentFrame_iff (f : List Byte) : IsSentFrame f ↔ (decodeFrame f).any wellFormedFrame = true := by
  simp [IsSentFrame, Option.any_eq_true]

/-- A display-on command alone is a frame, at every level. -/
theorem isSentFrame_dispOn (l : Byte) : IsSentFrame [dispOn l] := by
  rw [isSentFrame_iff]
  revert l
  decide

/-- The mode commands and display-off alone are frames. -/
theorem isSentFrame_command : ∀ b ∈ [cmdAuto, cmdFixed, dispOffByte], IsSentFrame [b] := by
  simp only [isSentFrame_iff]
  decide

/-- The decimal-point address and its byte are a frame. -/
theorem isSentFrame_dp (on : Bool) : IsSentFrame [addrDp, dpByte on] := by
  rw [isSentFrame_iff]
  revert on
  decide

theorem decodeFirst_digit (aa : BitVec 2) : decodeFirst (addrBase + aa.setWidth 8) = some (.addr aa) :=
  addrBase_add aa ▸ decodeFirst_addr aa

/-- A byte with bit 7 = 0 is a segment pattern after every digit address (30_encoding.md R77). -/
theorem decodeData_pattern : ∀ (aa : BitVec 2) (b : Byte), aa ≠ 3 → b.getLsbD 7 = false →
    decodeData aa b = some (.segData (b.extractLsb' 0 7)) := by decide

/-- Patterns after a digit address each have the class SEG_DATA. -/
theorem mapM_decodeByte_patterns (aa : BitVec 2) (haa : aa ≠ 3) (ps : List Byte) (h : ∀ b ∈ ps, b.getLsbD 7 = false) :
    ps.mapM (decodeByte (.data aa)) = some (ps.map fun b => .segData (b.extractLsb' 0 7)) := by
  induction ps with
  | nil => rfl
  | cons b ps ih =>
    have hb : decodeByte (.data aa) b = some (.segData (b.extractLsb' 0 7)) :=
      decodeData_pattern aa b haa (h b List.mem_cons_self)
    simp [hb, ih fun c hc => h c (List.mem_cons_of_mem b hc)]

/-- A digit address followed by patterns is a frame (30_encoding.md R77). -/
theorem isSentFrame_patterns (aa : BitVec 2) (haa : aa ≠ 3) (ps : List Byte) (hne : ps ≠ [])
    (h : ∀ b ∈ ps, b.getLsbD 7 = false) : IsSentFrame ((addrBase + aa.setWidth 8) :: ps) := by
  refine ⟨.addr aa :: ps.map fun b => .segData (b.extractLsb' 0 7), ?_, ?_⟩
  · simp [decodeFrame, decodeFirst_digit, Instr.opens, mapM_decodeByte_patterns aa haa ps h]
  · have hlen : 1 ≤ ps.length := List.length_pos_iff.mpr hne
    have haa' : aa ≠ 3#2 := haa
    simp [wellFormedFrame, Instr.fitsAt, Instr.opens, haa', hlen]

/-- The address byte of a digit is one of 0xC0 to 0xC2. -/
theorem isSentFrame_digit (d b : Byte) (h : b.getLsbD 7 = false) : IsSentFrame [digitAddr d, b] := by
  have haa : ∀ d : Byte, BitVec.ofNat 2 (min d.toNat 2) ≠ 3 := by decide
  rw [digitAddr_eq]
  exact isSentFrame_patterns _ (haa d) [b] (List.cons_ne_nil _ _) (by simpa using h)

/-- The three patterns of an auto-increment write begin at the first digit. -/
theorem isSentFrame_auto (ps : List Byte) (hne : ps ≠ []) (h : ∀ b ∈ ps, b.getLsbD 7 = false) :
    IsSentFrame (addrBase :: ps) :=
  isSentFrame_patterns 0 (by decide) ps hne h

theorem resolve_getLsbD_seven (p : Params) (c : Byte) (raw : Bool) : (resolve p c raw).getLsbD 7 = false := by
  cases raw with
  | true => exact rawPattern_getLsbD_seven c
  | false => exact lookup_getLsbD_seven p c

theorem intDigits_getLsbD_seven (p : Params) (v : BitVec 16) (dec : Bool) :
    ∀ b ∈ intDigits p v dec, b.getLsbD 7 = false := by
  cases dec <;> exact List.forall_mem_cons.mpr ⟨lookup_getLsbD_seven p _, List.forall_mem_cons.mpr
    ⟨lookup_getLsbD_seven p _, List.forall_mem_singleton.mpr (lookup_getLsbD_seven p _)⟩⟩

theorem hexByte_getLsbD_seven (p : Params) (v : Byte) : ∀ b ∈ hexByte p v, b.getLsbD 7 = false := by
  exact List.forall_mem_cons.mpr ⟨symtab_getLsbD_seven p hIdx (by decide), List.forall_mem_cons.mpr
    ⟨lookup_getLsbD_seven p _, List.forall_mem_singleton.mpr (lookup_getLsbD_seven p _)⟩⟩

/-- CLEAR's frames (42_display_ops.md R172). -/
theorem isSentFrame_clear : ∀ f ∈ framesClear, IsSentFrame f := by
  simp only [isSentFrame_iff]
  decide

/-- Every frame of every request may be sent (30_encoding.md R77). -/
theorem isSentFrame_of_mem_requestFrames (p : Params) (i : Instr) (f : List Byte) (hf : f ∈ requestFrames p i) :
    IsSentFrame f := by
  cases i with
  | init b =>
    obtain rfl | hf := List.mem_cons.mp hf
    · exact isSentFrame_dispOn b
    · exact isSentFrame_clear f hf
  | rsym d c raw =>
    simp only [requestFrames, framesRsym, fixedWrite, List.mem_cons, List.not_mem_nil, or_false] at hf
    obtain rfl | rfl := hf
    · exact isSentFrame_command _ (by simp)
    · exact isSentFrame_digit d _ (resolve_getLsbD_seven p c raw)
  | rhex v =>
    simp only [requestFrames, framesRhex, autoWrite, List.mem_cons, List.not_mem_nil, or_false] at hf
    obtain rfl | rfl := hf
    · exact isSentFrame_command _ (by simp)
    · exact isSentFrame_auto _ (List.cons_ne_nil _ _) (hexByte_getLsbD_seven p v)
  | rint v dec =>
    simp only [requestFrames, framesRint, autoWrite, List.mem_cons, List.not_mem_nil, or_false] at hf
    obtain rfl | rfl := hf
    · exact isSentFrame_command _ (by simp)
    · exact isSentFrame_auto _ (by cases dec <;> exact List.cons_ne_nil _ _) (intDigits_getLsbD_seven p v dec)
  | setdp on =>
    simp only [requestFrames, framesSetdp, fixedWrite, List.mem_cons, List.not_mem_nil, or_false] at hf
    obtain rfl | rfl := hf
    · exact isSentFrame_command _ (by simp)
    · exact isSentFrame_dp on
  | clear => exact isSentFrame_clear f hf
  | setbr l =>
    obtain rfl := List.mem_singleton.mp hf
    exact isSentFrame_dispOn l
  | pwroff =>
    obtain rfl := List.mem_singleton.mp hf
    exact isSentFrame_command _ (by simp)
  | clrsts | dataAuto | dataFixed | dispOff | dispOn | addr | segData | dpData => cases hf

end Sys2Proof.Machine
end

/-! ## The obligations of 30_encoding.md: frames -/

section
open Sys2Proof Sys2Proof.Machine

/-- Settles O6: each frame is a command alone, a digit address with patterns whose bit 7 is 0, or the decimal-point
address with its byte. -/
theorem requestFramesAreWellFormed : Obligations.RequestFramesAreWellFormed :=
  isSentFrame_of_mem_requestFrames

end

/-! ## SUPPORT. What an item of the engine leaves for the next step -/

section
namespace Sys2Proof.Machine

/-- A sequencer with an item to perform is not Idle (10_state.md R26). -/
theorem seq_ne_idle_of_pending {q : Seq} {it : Item} {rest : List Item} (h : q.pending = it :: rest) : q ≠ .idle := by
  rintro rfl
  cases h

/-- A request that still has items to perform, or a reset sequence, moves on to the next (10_state.md R26). -/
theorem advance_of_ne_nil_run (req : Latched) (k : Nat) (old todo : List Item) (h : todo ≠ []) :
    (Seq.run req k old).advance todo = .run req (k + 1) todo := by
  cases todo with
  | nil => exact absurd rfl h
  | cons it rest => rfl

theorem advance_of_ne_nil_reset (k : Nat) (old todo : List Item) (h : todo ≠ []) :
    (Seq.reset k old).advance todo = .reset (k + 1) todo := by
  cases todo with
  | nil => exact absurd rfl h
  | cons it rest => rfl

/-- An item that is no wire event remains after a step only if it remained before: a sample adds wire events only. -/
theorem mem_rest_of_not_isWire {x it : Item} {s : State} {rest : List Item} (hx : x.isWire = false)
    (h : x ∈ ackBranch it s ++ rest) : x ∈ rest :=
  (List.mem_append.mp h).resolve_left fun hm => by simp [ackBranch_isWire it s x hm] at hx

/-- The one kind of item that writes CMD is its update (10_state.md R24). -/
theorem perform_cmd_of_ne {it : Item} (s : State) (h : ∀ v, it ≠ .setCmd v) : (perform it s).cmd = s.cmd := by
  cases it with
  | setCmd v => exact absurd rfl (h v)
  | emit a => exact emitAction_cmd s a
  | sampleAck => exact sampleAck_cmd s
  | clearNack | clearErr => rfl

/-! ## The values written to CMD -/

/-- The values a request writes to CMD are legal ones (10_state.md R28, 42_display_ops.md R176, R178). -/
theorem legal_of_mem_requestCmds (i : Instr) (v : Byte) (h : v ∈ requestCmds i) : v ∈ legalCmds := by
  have hon : ∀ l : Byte, dispOn l ∈ legalCmds := by decide
  cases i with
  | init l | setbr l =>
    obtain rfl := List.mem_singleton.mp h
    exact hon l
  | pwroff =>
    obtain rfl := List.mem_singleton.mp h
    decide
  | _ => cases h

/-- A reset sequence writes 0x8A to CMD and no other value (70_reset_and_hazards.md R230). -/
theorem setCmd_mem_resetItems (v : Byte) : .setCmd v ∈ resetItems ↔ v = 0x8A := by
  have hwire : Item.setCmd v ∉ framesItems (framesInit brightDefault) := fun h => by
    cases framesItems_isWire _ _ h
  rw [resetItems_eq]
  simp [hwire]

/-- A reset sequence clears no flag by an item (70_reset_and_hazards.md R230). -/
theorem clear_not_mem_resetItems : .clearNack ∉ resetItems ∧ .clearErr ∉ resetItems := by
  have hnack : Item.clearNack ∉ framesItems (framesInit brightDefault) := fun h => by cases framesItems_isWire _ _ h
  have herr : Item.clearErr ∉ framesItems (framesInit brightDefault) := fun h => by cases framesItems_isWire _ _ h
  rw [resetItems_eq]
  simp [hnack, herr]

/-! ## The latched OP of a request -/

/-- A request that writes CMD latches OP 1, 7 or 8 (30_encoding.md R71, 10_state.md R24). -/
theorem latch_op_of_mem_requestCmds (i : Instr) (v : Byte) (h : v ∈ requestCmds i) :
    (latch (encode i)).op = 1 ∨ (latch (encode i)).op = 7 ∨ (latch (encode i)).op = 8 := by
  cases i with
  | init b => exact .inl (wordOf_op ..)
  | setbr l => exact .inr (.inl (wordOf_op ..))
  | pwroff => exact .inr (.inr (wordOf_op ..))
  | _ => cases h

theorem latch_op_clrsts : (latch (encode .clrsts)).op = 9 := wordOf_op ..

end Sys2Proof.Machine
end

/-! ## SUPPORT. Each invariant at each kind of step -/

section
namespace Sys2Proof.Machine

variable {s : State}

/-! ### The plan of the bus -/

/-- An idle engine's bus is idle (40_bus_protocol.md R110). -/
theorem BusInv.pins_idle (h : BusInv s) (hq : s.seq = .idle) : s.pins = Pins.idle := by
  rwa [BusInv, hq] at h

theorem busInv_accept (p : Params) (i : Instr) (hr : i.isRequest = true) (h : BusInv s) (hq : s.seq = .idle) :
    BusInv (accept i (requestBody p i) s) := by
  have hplan := busPlan_requestBody p i hr
  rwa [← h.pins_idle hq] at hplan

theorem busInv_engineStep (h : BusInv s) : BusInv (engineStep s) := by
  obtain ⟨-, he⟩ | ⟨it, rest, hp, he⟩ := engineStep_cases s
  · rwa [he]
  · have hplan := busPlan_perform it rest s (hp ▸ h)
    rw [he, BusInv, sequence_seq, perform_seq, pending_advance _ _ (seq_ne_idle_of_pending hp)]
    exact hplan

theorem step_keeps_busInv (s t : State) (h : BusInv s) (hs : step s = .next t) : BusInv t := by
  obtain ⟨b, rest, -, rfl⟩ | ⟨w, rest, i, -, -, hq, -, hr, -, rfl⟩ | ⟨w, rest, -, -, -, -, rfl⟩ |
    ⟨n, v, rest, -, -, rfl⟩ | ⟨rest, -, -, rfl⟩ | ⟨ins, -, -, rfl⟩ := step_cases s t hs
  · exact h
  · exact busInv_accept (s := { s with inputs := rest }) s.params i hr h hq
  · exact h
  · exact h
  · exact busPlan_resetItems _
  · exact busInv_engineStep (s := { s with inputs := ins }) h

/-! ### BUSY -/

theorem busyInv_engineStep (h : BusyInv s) : BusyInv (engineStep s) := by
  obtain ⟨-, he⟩ | ⟨it, rest, hp, he⟩ := engineStep_cases s
  · rwa [he]
  · have hq := seq_ne_idle_of_pending hp
    rw [he, BusyInv, sequence_seq, sequence_status, perform_seq, Ne, advance_idle _ _ hq, pending_advance _ _ hq]
    exact ⟨by simp [Status.setBusy], id⟩

theorem step_keeps_busyInv (s t : State) (h : BusyInv s) (hs : step s = .next t) : BusyInv t := by
  obtain ⟨b, rest, -, rfl⟩ | ⟨w, rest, i, -, -, -, -, hr, -, rfl⟩ | ⟨w, rest, -, -, -, -, rfl⟩ |
    ⟨n, v, rest, -, -, rfl⟩ | ⟨rest, -, -, rfl⟩ | ⟨ins, -, -, rfl⟩ := step_cases s t hs
  · exact h
  · exact ⟨iff_of_true rfl Seq.noConfusion, fun _ => requestBody_ne_nil s.params i hr⟩
  · exact h
  · exact h
  · exact ⟨iff_of_true rfl Seq.noConfusion, fun _ => List.cons_ne_nil _ _⟩
  · exact busyInv_engineStep (s := { s with inputs := ins }) h

/-! ### CMD -/

theorem cmdInv_accept (p : Params) (i : Instr) (hr : i.isRequest = true) (h : CmdInv s) (hq : s.seq = .idle) :
    CmdInv (accept i (requestBody p i) s) := by
  obtain ⟨hcmd, -⟩ := h
  refine ⟨.inl (hcmd.resolve_right ?_), fun v hv => ?_⟩
  · rintro ⟨k, todo, he, -⟩
    cases hq.symm.trans he
  · exact legal_of_mem_requestCmds i v ((setCmd_mem_requestBody p i hr v).mp hv)

theorem cmdInv_beginReset : CmdInv (beginReset s) := by
  refine ⟨.inr ⟨0, resetItems, rfl, (setCmd_mem_resetItems _).mpr rfl⟩, fun v hv => ?_⟩
  obtain rfl := (setCmd_mem_resetItems v).mp hv
  decide

/-- A reset sequence whose SETBR item is not the one performed has it before it still. -/
theorem setCmd_mem_advance_reset {it x : Item} {rest todo : List Item} {k : Nat} (u : State)
    (hq : s.seq = .reset k todo) (hp : s.seq.pending = it :: rest) (hm : x ∈ todo) (hne : it ≠ x) :
    ∃ j left, s.seq.advance (ackBranch it u ++ rest) = .reset j left ∧ x ∈ left := by
  rw [hq] at hp
  obtain rfl : todo = it :: rest := hp
  have hrest : x ∈ ackBranch it u ++ rest := List.mem_append_right _ ((List.mem_cons.mp hm).resolve_left hne.symm)
  rw [hq, advance_of_ne_nil_reset _ _ _ (List.ne_nil_of_mem hrest)]
  exact ⟨_, _, rfl, hrest⟩

theorem cmdInv_engineStep (h : CmdInv s) : CmdInv (engineStep s) := by
  obtain ⟨-, he⟩ | ⟨it, rest, hp, he⟩ := engineStep_cases s
  · rwa [he]
  · obtain ⟨hcmd, htodo⟩ := h
    rw [hp] at htodo
    rw [he, CmdInv, sequence_seq, sequence_cmd, perform_seq, pending_advance _ _ (seq_ne_idle_of_pending hp)]
    refine ⟨?_, fun v hv => htodo v (List.mem_cons_of_mem _ (mem_rest_of_not_isWire rfl hv))⟩
    by_cases hset : ∃ v, it = .setCmd v
    · obtain ⟨v, rfl⟩ := hset
      exact .inl (htodo v List.mem_cons_self)
    · rw [perform_cmd_of_ne s fun v hv => hset ⟨v, hv⟩]
      refine hcmd.imp_right fun ⟨k, todo, hq, hm⟩ => ?_
      exact setCmd_mem_advance_reset _ hq hp hm fun hv => hset ⟨_, hv⟩

theorem step_keeps_cmdInv (s t : State) (h : CmdInv s) (hs : step s = .next t) : CmdInv t := by
  obtain ⟨b, rest, -, rfl⟩ | ⟨w, rest, i, -, -, hq, -, hr, -, rfl⟩ | ⟨w, rest, -, -, -, -, rfl⟩ |
    ⟨n, v, rest, -, -, rfl⟩ | ⟨rest, -, -, rfl⟩ | ⟨ins, -, -, rfl⟩ := step_cases s t hs
  · exact h
  · exact cmdInv_accept (s := { s with inputs := rest }) s.params i hr h hq
  · exact h
  · exact h
  · exact cmdInv_beginReset
  · exact cmdInv_engineStep (s := { s with inputs := ins }) h

/-! ### The receiver's RAM -/

theorem ramInv_engineStep (h : RamInv s) : RamInv (engineStep s) := by
  obtain ⟨-, he⟩ | ⟨it, rest, -, he⟩ := engineStep_cases s
  · rwa [he]
  · rw [he]
    exact perform_isRam it s h

theorem step_keeps_ramInv (s t : State) (h : RamInv s) (hs : step s = .next t) : RamInv t := by
  obtain ⟨b, rest, -, rfl⟩ | ⟨w, rest, i, -, -, -, -, -, -, rfl⟩ | ⟨w, rest, -, -, -, -, rfl⟩ |
    ⟨n, v, rest, -, -, rfl⟩ | ⟨rest, -, -, rfl⟩ | ⟨ins, -, -, rfl⟩ := step_cases s t hs
  · exact take_isRam _ b h
  · exact h
  · exact h
  · exact h
  · exact unknown_isRam s.rx s.draws
  · exact ramInv_engineStep (s := { s with inputs := ins }) h

/-! ### Which request is running -/

theorem ownerInv_accept (p : Params) (i : Instr) (hr : i.isRequest = true) : OwnerInv (accept i (requestBody p i) s) := by
  refine ⟨fun req k todo hq => ?_, nofun⟩
  cases hq
  refine ⟨fun ⟨v, hv⟩ => latch_op_of_mem_requestCmds i v ((setCmd_mem_requestBody p i hr v).mp hv), fun hclear => ?_⟩
  by_cases hc : i = .clrsts
  · subst hc
    exact latch_op_clrsts
  · obtain ⟨hnack, herr⟩ := clear_mem_requestBody p i hr hc
    exact absurd hclear (not_or.mpr ⟨hnack, herr⟩)

theorem ownerInv_beginReset : OwnerInv (beginReset s) := by
  refine ⟨nofun, fun k todo hq => ?_⟩
  cases hq
  exact clear_not_mem_resetItems

theorem ownerInv_engineStep (h : OwnerInv s) : OwnerInv (engineStep s) := by
  obtain ⟨-, he⟩ | ⟨it, rest, hp, he⟩ := engineStep_cases s
  · rwa [he]
  · obtain ⟨hrun, hreset⟩ := h
    -- an item that is no wire event and remains after the step remained before it
    have hmem : ∀ {x : Item}, x.isWire = false → x ∈ ackBranch it (perform it s) ++ rest → x ∈ it :: rest :=
      fun hx hm => List.mem_cons_of_mem _ (mem_rest_of_not_isWire hx hm)
    rw [he, OwnerInv, sequence_seq, perform_seq]
    refine ⟨fun req k todo hq => ?_, fun k todo hq => ?_⟩
    · obtain ⟨rfl, j, old, hs⟩ := advance_run _ _ _ _ _ hq
      obtain rfl : old = it :: rest := by rwa [hs] at hp
      obtain ⟨hset, hclear⟩ := hrun req j _ hs
      exact ⟨fun ⟨v, hv⟩ => hset ⟨v, hmem rfl hv⟩, fun hm => hclear (hm.imp (hmem rfl) (hmem rfl))⟩
    · obtain ⟨rfl, j, old, hs⟩ := advance_reset _ _ _ _ hq
      obtain rfl : old = it :: rest := by rwa [hs] at hp
      obtain ⟨hnack, herr⟩ := hreset j _ hs
      exact ⟨fun hm => hnack (hmem rfl hm), fun hm => herr (hmem rfl hm)⟩

theorem step_keeps_ownerInv (s t : State) (h : OwnerInv s) (hs : step s = .next t) : OwnerInv t := by
  obtain ⟨b, rest, -, rfl⟩ | ⟨w, rest, i, -, -, -, -, hr, -, rfl⟩ | ⟨w, rest, -, -, -, -, rfl⟩ |
    ⟨n, v, rest, -, -, rfl⟩ | ⟨rest, -, -, rfl⟩ | ⟨ins, -, -, rfl⟩ := step_cases s t hs
  · exact h
  · exact ownerInv_accept s.params i hr
  · exact h
  · exact h
  · exact ownerInv_beginReset
  · exact ownerInv_engineStep (s := { s with inputs := ins }) h

/-! ### Who writes CMD -/

/-- The engine's step changes CMD only with an update of CMD before it. -/
theorem setCmd_mem_of_engineStep_cmd (h : (engineStep s).cmd ≠ s.cmd) : ∃ v, .setCmd v ∈ s.seq.pending := by
  obtain ⟨-, he⟩ | ⟨it, rest, hp, he⟩ := engineStep_cases s
  · exact absurd (congrArg State.cmd he) h
  · by_contra hno
    refine h ?_
    rw [he, sequence_cmd]
    exact perform_cmd_of_ne s fun v hv => hno ⟨v, by rw [hp, hv]; exact List.mem_cons_self⟩

/-- Where an update of CMD remains, a reset sequence runs, or INIT, SETBR or PWROFF (10_state.md R24). -/
theorem OwnerInv.power_of_setCmd_mem (h : OwnerInv s) {v : Byte} (hm : .setCmd v ∈ s.seq.pending) :
    (∃ k todo, s.seq = .reset k todo) ∨
      ∃ req k todo, s.seq = .run req k todo ∧ (req.op = 1 ∨ req.op = 7 ∨ req.op = 8) := by
  obtain ⟨hrun, -⟩ := h
  cases hq : s.seq with
  | idle => simp [hq, Seq.pending] at hm
  | run req k todo =>
    rw [hq] at hm
    exact .inr ⟨req, k, todo, rfl, (hrun req k todo hq).1 ⟨v, hm⟩⟩
  | reset k todo => exact .inl ⟨k, todo, rfl⟩

/-- Of the cases of a step, only the start of reset and the engine's own step change CMD. -/
theorem power_of_cmd_changes {t : State} (ho : OwnerInv s) (hs : step s = .next t) (hne : t.cmd ≠ s.cmd) :
    (∃ rest, s.inputs = .reset :: rest) ∨ (∃ k todo, s.seq = .reset k todo) ∨
      ∃ req k todo, s.seq = .run req k todo ∧ (req.op = 1 ∨ req.op = 7 ∨ req.op = 8) := by
  obtain ⟨b, rest, -, rfl⟩ | ⟨w, rest, i, -, -, -, -, -, -, rfl⟩ | ⟨w, rest, -, -, -, -, rfl⟩ |
    ⟨n, v, rest, -, -, rfl⟩ | ⟨rest, -, hi, -⟩ | ⟨ins, -, -, rfl⟩ := step_cases s t hs
  · exact absurd rfl hne
  · exact absurd rfl hne
  · exact absurd rfl hne
  · exact absurd rfl hne
  · exact .inl ⟨rest, hi⟩
  · obtain ⟨v, hm⟩ := setCmd_mem_of_engineStep_cmd (s := { s with inputs := ins }) hne
    exact .inr (ho.power_of_setCmd_mem hm)

end Sys2Proof.Machine
end

/-! ## The obligations on invariants -/

section
open Sys2Proof Sys2Proof.Machine

/-- Settles O54: a step keeps the plan of the bus, and the plan's first item says the rest. -/
theorem busStaysDisciplined : Obligations.BusStaysDisciplined := by
  refine ⟨step_keeps_busInv, fun s h hq => h.pins_idle hq, fun s v rest h hp => ?drive, fun s rest h hp => ?sample⟩
  all_goals
    rw [BusInv, hp] at h
    exact h.1

/-- Settles O52: acceptance and reset begin with an item, and the engine's step leaves BUSY with the items. -/
theorem busyExactlyWhileNotIdle : Obligations.BusyExactlyWhileNotIdle := step_keeps_busyInv

/-- Settles O53: requests and resets write legal values only, and a reset keeps its SETBR item until it performs it. -/
theorem cmdStaysLegal : Obligations.CmdStaysLegal := step_keeps_cmdInv

/-- Settles O55: a byte read is stored at one of the four locations, and contents not given are a RAM. -/
theorem receiverRamStaysCanonical : Obligations.ReceiverRamStaysCanonical := step_keeps_ramInv

/-- Settles O56: each body holds its own kinds of items, and a step adds wire events only. -/
theorem itemsStayWithTheirRequests : Obligations.ItemsStayWithTheirRequests := step_keeps_ownerInv

/-- Settles O57: the item that changes CMD has its owner. -/
theorem cmdWrittenOnlyByPowerRequests : Obligations.CmdWrittenOnlyByPowerRequests :=
  fun _ _ => power_of_cmd_changes

/-- Settles O50: each value is that of `State.reset`. -/
theorem resetStateValues : Obligations.ResetStateValues := ⟨rfl, rfl, rfl, rfl, rfl, rfl, rfl⟩

/-- Settles O51: the state after reset is idle with nothing to perform. -/
theorem resetMeetsInvariants : Obligations.ResetMeetsInvariants := by
  refine ⟨⟨rfl, rfl, rfl, rfl, rfl, rfl⟩, ?busy, ?cmd, ?bus, ?ram, ?owner⟩
  case busy => exact ⟨iff_of_false nofun (absurd rfl), absurd rfl⟩
  case cmd => exact ⟨.inl (by decide), nofun⟩
  case bus => rfl
  case ram => exact ⟨reset_ram_wf, nofun⟩
  case owner => exact ⟨nofun, nofun⟩

end

/-! ## SUPPORT. A step of the engine, item by item -/

section
namespace Sys2Proof.Machine

variable {s : State} {more : List Input} {it : Item} {rest : List Item}

/-- When the engine has the next step it performs its next item (10_state.md R26). -/
theorem step_item (h : EngineTurn s more) (hp : s.seq.pending = it :: rest) :
    step s = .next (sequence (ackBranch it (perform it { s with inputs := more }) ++ rest)
      (perform it { s with inputs := more })) := by
  rw [step_engineTurn s more h (seq_ne_idle_of_pending hp), engineStep_item { s with inputs := more } it rest hp]

/-- What a sample adds is decided by the bit it reads (40_bus_protocol.md R103). -/
theorem ackBranch_sampleAck (s : State) :
    ackBranch .sampleAck (sampleAck s) = if (sampleDio s).1 then [] else ackLowItems := rfl

theorem ackBranch_of_ne (s : State) (h : it ≠ .sampleAck) : ackBranch it s = [] := by
  cases it with
  | sampleAck => exact absurd rfl h
  | emit | setCmd | clearNack | clearErr => rfl

/-- While items remain the engine is busy with the same request, or the reset, one item on (10_state.md R26). -/
theorem sequence_of_ne_nil (s : State) (todo : List Item) (h : todo ≠ []) : (sequence todo s).status.busy = true ∧
    (∀ req k old, s.seq = .run req k old → (sequence todo s).seq = .run req (k + 1) todo) ∧
    (∀ k old, s.seq = .reset k old → (sequence todo s).seq = .reset (k + 1) todo) := by
  refine ⟨?_, fun req k old hq => ?_, fun k old hq => ?_⟩
  · simpa [Status.setBusy] using h
  · rw [sequence_seq, hq, advance_of_ne_nil_run req k old todo h]
  · rw [sequence_seq, hq, advance_of_ne_nil_reset k old todo h]

/-- Past the last item the sequencer is Idle and BUSY 0 (10_state.md R26). -/
theorem sequence_nil (s : State) : (sequence [] s).seq = .idle ∧ (sequence [] s).status.busy = false := ⟨rfl, rfl⟩

/-- A sample while DIO is an output reads the latch and takes no supplied bit (10_state.md R22). -/
theorem sampleAck_output (h : s.dioOe = true) : (sampleDio s).1 = s.dioOut ∧ (sampleAck s).dioIn = s.dioIn := by
  simp [sampleAck, sampleDio_output s h]

/-- A sample while DIO is an input takes the next supplied bit (10_state.md R22). -/
theorem sampleAck_supplied (h : s.dioOe = false) {l : Bool} {later : List Bool} (hl : s.dioIn = l :: later) :
    (sampleDio s).1 = l ∧ (sampleAck s).dioIn = later := by
  simp [sampleAck, sampleDio_supplied s h l later hl]

theorem sampleAck_pins (s : State) : (sampleAck s).pins = s.pins := by simp [State.pins]

end Sys2Proof.Machine
end

/-! ## SUPPORT. Steps on requests and reads -/

section
namespace Sys2Proof.Machine

variable {s : State}

/-- A busy engine holds a request that has a meaning (10_state.md R34). -/
theorem exec_hold (i : Instr) (hr : i.isRequest = true) (hm : refusedRequest s.params i = false) (hq : s.seq ≠ .idle) :
    exec i s = .next (hold i s) := by
  rw [exec_request i s hr, hm, offer]
  cases h : s.seq with
  | idle => exact absurd h hq
  | run | reset => rfl

/-- A request's update of CMD is performed before its frame begins (42_display_ops.md R176, R178). -/
theorem engineStep_accept_setCmd (i : Instr) (v : Byte) (fs : List (List Byte)) (hne : fs ≠ []) :
    ∃ u, engineStep (accept i (.setCmd v :: framesItems fs) s) = u ∧
      u.cmd = v ∧ u.trace = s.trace ∧ u.frames = s.frames ∧ u.status.busy = true := by
  refine ⟨_, rfl, rfl, rfl, rfl, ?_⟩
  have hbusy := sequence_of_ne_nil (perform (.setCmd v) (accept i (.setCmd v :: framesItems fs) s)) (framesItems fs)
    (framesItems_ne_nil fs hne)
  exact hbusy.1

/-- SETBR and PWROFF are accepted, and the next step writes CMD and emits no event (70_reset_and_hazards.md R238). -/
theorem exec_then_setCmd (i : Instr) (v : Byte) (fs : List (List Byte)) (hne : fs ≠ []) (hr : i.isRequest = true)
    (hm : refusedRequest s.params i = false) (hbody : requestBody s.params i = .setCmd v :: framesItems fs)
    (h : Ready s) (hin : HostWaits s) : ∃ t u, exec i s = .next t ∧ step t = .next u ∧
      u.cmd = v ∧ u.trace = s.trace ∧ u.frames = s.frames ∧ u.status.busy = true := by
  obtain ⟨u, hu, hshow⟩ := engineStep_accept_setCmd (s := s) i v fs hne
  have hstep := step_waiting (accept i (requestBody s.params i) s) h.inbox hin Seq.noConfusion
  rw [hbody, hu] at hstep
  exact ⟨_, u, exec_accept s i hr hm h.seq, by rw [hbody]; exact hstep, hshow⟩

end Sys2Proof.Machine
end

/-! ## The obligations on steps, acceptance and STATUS -/

section
open Sys2Proof Sys2Proof.Machine

/-- Settles O14: the step is `sequence` after `perform`; the count and BUSY are `sequence`'s, the rest is the item's. -/
theorem engineAdvancesByOneItem : Obligations.EngineAdvancesByOneItem := by
  refine ⟨fun s it rest more h hp => ?_, step_byte⟩
  set u := perform it { s with inputs := more } with hu
  have hq : u.seq = s.seq := perform_seq _ it
  refine ⟨_, ackBranch it u, step_item h hp, perform_inputs _ it, ackBranch_of_ne u, fun hne => ?busy,
    fun he => ?idle, ?item⟩
  case busy =>
    obtain ⟨hbusy, hrun, hreset⟩ := sequence_of_ne_nil u _ hne
    exact ⟨hbusy, fun req k hs => hrun req k _ (hq.trans hs), fun k hs => hreset k _ (hq.trans hs)⟩
  case idle =>
    rw [← hu, he]
    exact sequence_nil u
  case item =>
    cases it with
    | setCmd v | clearNack | clearErr => rfl
    | emit a =>
      exact ⟨emitAction_trace _ a, congrArg (Status.setBusy · _) (emitAction_status _ a), emitAction_cmd _ a,
        emitAction_dioIn _ a, emitAction_params _ a, emitAction_reads _ a⟩
    | sampleAck =>
      refine ⟨_, ackBranch_sampleAck _, fun ho => ?_, fun l later ho hl => ?_, sampleAck_trace _, sampleAck_cmd _,
        sampleAck_pins _, sampleAck_params _, sampleAck_reads _, congrArg (Status.setBusy · _) (sampleAck_status _)⟩
      · exact sampleAck_output (s := { s with inputs := more }) ho
      · exact sampleAck_supplied (s := { s with inputs := more }) ho hl

/-- Settles O15: the sample reads the supplied bit, and an item follows it whatever the bit is. -/
theorem ackSampleUpdatesStatus : Obligations.AckSampleUpdatesStatus := by
  intro s req k it rest a more hb hi hq ho hd
  have hp : s.seq.pending = .sampleAck :: it :: rest := by rw [hq]; rfl
  obtain ⟨ha, hin⟩ := sampleAck_supplied ho hd
  have hstep := step_engine s hb hi
  rw [engineStep_item s _ _ hp, perform, ackBranch_sampleAck, ha] at hstep
  obtain ⟨hbusy, hrun, -⟩ := sequence_of_ne_nil (sampleAck s) ((if a then [] else ackLowItems) ++ it :: rest) (by simp)
  refine ⟨_, hstep, ?status, hrun req k _ ((sampleAck_seq s).trans hq), ?trace, hin, sampleAck_pins s, sampleAck_cmd s,
    sampleAck_params s, sampleAck_frames s, ?ram, ?mode, ?dctrl⟩
  case status =>
    rw [sequence_status, sampleAck_status, ha]
    exact congrArg (Status.mk · a (s.status.nackSeen || a) s.status.err) hbusy
  case trace => rw [sequence_trace, sampleAck_trace, ha]
  all_goals rw [sequence_rx, sampleAck_rx]

/-- Settles O16: the pins by `pins_emitAction_eq`, BUSY by what remains. -/
theorem wireEventsOnPins : Obligations.WireEventsOnPins := by
  intro s a rest more h hp
  have hpins := pins_emitAction_eq a { s with inputs := more }
  refine ⟨_, step_item h hp, emitAction_trace _ a, emitAction_cmd _ a,
    congrArg (Status.setBusy · (!rest.isEmpty)) (emitAction_status _ a), ?_⟩
  cases a with
  | modeOut p | drive p => cases p <;> exact hpins
  | modeIn | wait => exact hpins

/-- Settles O17: acceptance latches the word's fields and sets BUSY. -/
theorem acceptanceChangesOnlySequencerAndBusy : Obligations.AcceptanceChangesOnlySequencerAndBusy :=
  fun s i hr hm hq => ⟨requestBody s.params i, requestBody_ne_nil s.params i hr, exec_accept s i hr hm hq⟩

/-- Settles O27: the update of CMD is the first item of either body. -/
theorem cmdVisibleBeforeFrame : Obligations.CmdVisibleBeforeFrame :=
  ⟨fun _ l h hin => exec_then_setCmd (.setbr l) _ _ (List.cons_ne_nil _ _) rfl rfl rfl h hin,
    fun _ h hin => exec_then_setCmd .pwroff _ _ (List.cons_ne_nil _ _) rfl rfl rfl h hin⟩

/-- Settles O10: a busy engine holds the request. -/
theorem requestExecutedWhileBusyIsHeld : Obligations.RequestExecutedWhileBusyIsHeld :=
  fun _ i hr hm hq => exec_hold i hr hm hq

/-- Settles O7: the two ports a step takes an instruction from. -/
theorem stepRunsDecodedInstruction : Obligations.StepRunsDecodedInstruction := by
  refine ⟨fun s b rest i hb hd => ?byte, fun s w rest i hb hq hi hd => ?word⟩
  case byte => simp [step, hb, stepWire, hd]
  case word =>
    rw [step_input s _ rest hb hi]
    simp [stepInput, hq, stepRequest, hd]

/-- Settles O11: `MemRead` of each of the two registers. -/
theorem hostReadsHaveNoSideEffect : Obligations.HostReadsHaveNoSideEffect :=
  fun s rest hb => ⟨fun hi => step_input s (.read 1) rest hb hi, fun hi => step_input s (.read 2) rest hb hi⟩

/-- Settles O13: the sixteen values of STATUS. -/
theorem statusByteLayout : Obligations.StatusByteLayout := by
  rintro ⟨busy, lastAck, nackSeen, err⟩
  revert busy lastAck nackSeen err
  decide

end

/-! ## SUPPORT. The edges and the events of a trace -/

section
namespace Sys2Proof.Machine

/-! ### A piece at the head of a trace, whatever follows it -/

/-- In a byte's data phase CLK rises eight times and is high at the end (40_bus_protocol.md R102). -/
theorem clockRises_dataTrace (clk : Bool) (b : Byte) (es : List WireEvent) :
    clockRises clk (dataTrace b ++ es) = 8 + clockRises true es := by
  simp [dataTrace, List.range_succ, clockRises, ← Nat.add_assoc]

/-- In a byte's acknowledgment phase CLK rises once and is high at the end (40_bus_protocol.md R103). -/
theorem clockRises_ackTrace (clk ack : Bool) (es : List WireEvent) :
    clockRises clk (ackTrace ack ++ es) = 1 + clockRises true es := by
  cases ack <;> simp [ackTrace, clockRises]

theorem clockRises_byteTrace (clk ack : Bool) (b : Byte) (es : List WireEvent) :
    clockRises clk (byteTrace b ack ++ es) = 9 + clockRises true es := by
  rw [byteTrace, List.append_assoc, clockRises_dataTrace, clockRises_ackTrace]
  omega

/-- A stop raises CLK once, from either level (40_bus_protocol.md R101). -/
theorem clockRises_stopTrace (clk : Bool) : clockRises clk stopTrace = 1 := by cases clk <;> rfl

@[simp] theorem dataEdgesHigh_nil (clk dio : Bool) : dataEdgesHigh clk dio [] = 0 := by cases clk <;> rfl

/-- DIO changes in a data phase only while CLK is low, and holds bit 7 at the end (40_bus_protocol.md R102). -/
theorem dataEdgesHigh_dataTrace (clk dio : Bool) (b : Byte) (es : List WireEvent) :
    dataEdgesHigh clk dio (dataTrace b ++ es) = dataEdgesHigh true (b.getLsbD 7) es := by
  simp [dataTrace, List.range_succ, dataEdgesHigh]

/-- An acknowledgment phase changes DIO with CLK high only where the byte is acknowledged (40_bus_protocol.md R103, R105). -/
theorem dataEdgesHigh_ackTrace (clk dio ack : Bool) (es : List WireEvent) :
    dataEdgesHigh clk dio (ackTrace ack ++ es) = (if ack then 0 else 1) + dataEdgesHigh true ack es := by
  cases ack <;> simp [ackTrace, dataEdgesHigh]

theorem dataEdgesHigh_byteTrace (clk dio ack : Bool) (b : Byte) (es : List WireEvent) :
    dataEdgesHigh clk dio (byteTrace b ack ++ es) = (if ack then 0 else 1) + dataEdgesHigh true ack es := by
  rw [byteTrace, List.append_assoc, dataEdgesHigh_dataTrace, dataEdgesHigh_ackTrace]

/-- A stop changes DIO once with CLK high, from any levels (40_bus_protocol.md R101). -/
theorem dataEdgesHigh_stopTrace (clk dio : Bool) : dataEdgesHigh clk dio stopTrace = 1 := by
  cases clk <;> cases dio <;> rfl

/-! ### Events and Waits of a byte -/

theorem length_dataTrace (b : Byte) : (dataTrace b).length = 24 := rfl

theorem length_ackTrace (ack : Bool) : (ackTrace ack).length = if ack then 9 else 11 := by cases ack <;> rfl

theorem length_byteTrace (b : Byte) (ack : Bool) : (byteTrace b ack).length = 33 + if ack then 0 else 2 := by
  cases ack <;> rfl

theorem count_wait_dataTrace (b : Byte) : (dataTrace b).count (.act .wait) = 0 :=
  List.count_eq_zero.mpr (by simp [dataTrace])

theorem count_wait_byteTrace (b : Byte) (ack : Bool) : (byteTrace b ack).count (.act .wait) = 3 := by
  rw [byteTrace, List.count_append, count_wait_dataTrace]
  cases ack <;> decide

/-! ### Bytes one after another -/

variable (bytes : List Byte) (acks : List Bool)

theorem length_bytesTrace (h : acks.length = bytes.length) :
    (bytesTrace bytes acks).length = 33 * bytes.length + 2 * acks.count false := by
  induction bytes generalizing acks with
  | nil =>
    obtain rfl := List.length_eq_zero_iff.mp h
    rfl
  | cons b bytes ih =>
    obtain _ | ⟨a, acks⟩ := acks
    · cases h
    · have := ih acks (by simpa using h)
      cases a
      · simp [bytesTrace, length_byteTrace, this]; omega
      · simp [bytesTrace, length_byteTrace, this]; omega

theorem count_wait_bytesTrace : (bytesTrace bytes acks).count (.act .wait) = 3 * bytes.length := by
  induction bytes generalizing acks with
  | nil => rfl
  | cons b bytes ih =>
    rw [bytesTrace, List.count_append, count_wait_byteTrace, ih, List.length_cons]
    omega

theorem clockRises_bytesTrace (clk : Bool) :
    clockRises clk (bytesTrace bytes acks ++ stopTrace) = 9 * bytes.length + 1 := by
  induction bytes generalizing acks clk with
  | nil => exact clockRises_stopTrace clk
  | cons b bytes ih =>
    rw [bytesTrace, List.append_assoc, clockRises_byteTrace, ih, List.length_cons]
    omega

theorem dataEdgesHigh_bytesTrace (h : acks.length = bytes.length) (clk dio : Bool) :
    dataEdgesHigh clk dio (bytesTrace bytes acks ++ stopTrace) = 1 + acks.count false := by
  induction bytes generalizing acks clk dio with
  | nil =>
    obtain rfl := List.length_eq_zero_iff.mp h
    exact dataEdgesHigh_stopTrace clk dio
  | cons b bytes ih =>
    obtain _ | ⟨a, acks⟩ := acks
    · cases h
    · rw [bytesTrace, List.append_assoc, dataEdgesHigh_byteTrace, List.headD_cons, List.tail_cons,
        ih acks (by simpa using h)]
      cases a
      · simp; omega
      · simp

/-! ### Frames -/

theorem length_frameTrace (h : acks.length = bytes.length) :
    (frameTrace bytes acks).length = 8 + 33 * bytes.length + 2 * acks.count false := by
  have hstart : startTrace.length = 4 := rfl
  have hstop : stopTrace.length = 4 := rfl
  rw [frameTrace, List.length_append, List.length_append, length_bytesTrace bytes acks h, hstart, hstop]
  omega

theorem count_wait_frameTrace : (frameTrace bytes acks).count (.act .wait) = 3 * bytes.length := by
  have hstart : startTrace.count (.act .wait) = 0 := by decide
  have hstop : stopTrace.count (.act .wait) = 0 := by decide
  rw [frameTrace, List.count_append, List.count_append, count_wait_bytesTrace, hstart, hstop]
  omega

/-- From the idle bus a start raises CLK not at all, so a frame does at its bytes and its stop. -/
theorem clockRises_frameTrace : clockRises true (frameTrace bytes acks) = 9 * bytes.length + 1 := by
  have hbytes := clockRises_bytesTrace bytes acks false
  simpa [frameTrace, startTrace, clockRises] using hbytes

/-- From the idle bus a start changes DIO once with CLK high. -/
theorem dataEdgesHigh_frameTrace (h : acks.length = bytes.length) :
    dataEdgesHigh true true (frameTrace bytes acks) = 2 + acks.count false := by
  have hbytes := dataEdgesHigh_bytesTrace bytes acks h false false
  have hstart : dataEdgesHigh true true (frameTrace bytes acks) =
      1 + dataEdgesHigh false false (bytesTrace bytes acks ++ stopTrace) := by
    simp [frameTrace, startTrace, dataEdgesHigh]
  rw [hstart, hbytes]
  omega

/-! ### Frames no byte of which is acknowledged -/

/-- A trace of bytes uses one sampled bit for each byte. -/
theorem bytesTrace_take : bytesTrace bytes (acks.take bytes.length) = bytesTrace bytes acks := by
  induction bytes generalizing acks with
  | nil => rfl
  | cons b bytes ih =>
    cases acks with
    | nil => rfl
    | cons a acks => exact congrArg (byteTrace b a ++ ·) (ih acks)

theorem frameTrace_take : frameTrace bytes (acks.take bytes.length) = frameTrace bytes acks := by
  rw [frameTrace, bytesTrace_take, frameTrace]

theorem length_frameTrace_nacked (n : Nat) (h : bytes.length ≤ n) :
    (frameTrace bytes (List.replicate n true)).length = 8 + 33 * bytes.length := by
  have htake : (List.replicate n true).take bytes.length = List.replicate bytes.length true := by
    rw [List.take_replicate, Nat.min_eq_left h]
  rw [← frameTrace_take, htake, length_frameTrace _ _ List.length_replicate, List.count_replicate]
  rfl

variable (fs : List (List Byte))

theorem byteCount_cons (f : List Byte) : byteCount (f :: fs) = f.length + byteCount fs := by
  simp [byteCount]

theorem count_wait_framesTrace : (framesTrace fs acks).count (.act .wait) = 3 * byteCount fs := by
  induction fs generalizing acks with
  | nil => rfl
  | cons f fs ih =>
    rw [framesTrace, List.count_append, count_wait_frameTrace, ih, byteCount_cons]
    omega

/-- The events of frames no byte of which is acknowledged (40_bus_protocol.md R109). -/
theorem length_framesTrace_nacked (n : Nat) (h : byteCount fs ≤ n) :
    (framesTrace fs (List.replicate n true)).length = 8 * fs.length + 33 * byteCount fs := by
  induction fs generalizing n with
  | nil => rfl
  | cons f fs ih =>
    rw [byteCount_cons] at h ⊢
    rw [framesTrace, List.length_append, List.drop_replicate, length_frameTrace_nacked f n (by omega),
      ih (n - f.length) (by omega), List.length_cons]
    omega

/-- The numbers of frames, bytes and data bytes of a request (42_display_ops.md R182). -/
def frameCounts : Instr → Nat × Nat × Nat
  | .init _ => (9, 13, 4)
  | .rsym _ _ _ | .setdp _ => (2, 3, 1)
  | .rhex _ | .rint _ _ => (2, 5, 3)
  | .clear => (8, 12, 4)
  | .setbr _ | .pwroff => (1, 1, 0)
  | .clrsts | .dataAuto | .dataFixed | .dispOff | .dispOn _ | .addr _ | .segData _ | .dpData _ => (0, 0, 0)

/-- No operand and no configuration changes a request's numbers of frames and bytes. -/
theorem requestFrames_counts (p : Params) (i : Instr) : (requestFrames p i).length = (frameCounts i).1 ∧
    byteCount (requestFrames p i) = (frameCounts i).2.1 ∧ dataByteCount (requestFrames p i) = (frameCounts i).2.2 := by
  cases i with
  | rint v dec => cases dec <;> exact ⟨rfl, rfl, rfl⟩
  | _ => exact ⟨rfl, rfl, rfl⟩

end Sys2Proof.Machine
end

/-! ## SUPPORT. Segment masks and clamps -/

section
namespace Sys2Proof.Machine

/-- Entry 33 + k is the mask of segment k (10_state.md R32). -/
theorem symtab_segment (p : Params) (k : Nat) (h : k < 7) : symtab p (33 + k) = BitVec.ofNat 8 (2 ^ k) := by
  have hmask : ∀ k < 7, 1#8 <<< k = BitVec.ofNat 8 (2 ^ k) := by decide
  rw [symtab, dif_neg (by omega), Nat.add_sub_cancel_left, hmask k h]

theorem clampDigit_toNat : ∀ d : Byte, (clampDigit d).toNat = min d.toNat 2 := by decide

theorem clampDigit_of_lt : ∀ d : Byte, 2 < d.toNat → clampDigit d = clampDigit 2 := by decide

theorem clampLevel_toNat : ∀ l : Byte, (clampLevel l).toNat = min l.toNat 7 := by decide

theorem digitAddr_range : ∀ d : Byte, digitAddr d = 0xC0 ∨ digitAddr d = 0xC1 ∨ digitAddr d = 0xC2 := by decide

/-- The level does not carry into the bits above it (41_symbol_encoder.md R136). -/
theorem dispOn_fields : ∀ l : Byte, (dispOn l).extractLsb' 3 5 = 0x11 ∧
    ((dispOn l).extractLsb' 0 3).toNat = min l.toNat 7 := by decide

end Sys2Proof.Machine
end

/-! ## The obligations on the wire and on operands -/

section
open Sys2Proof Sys2Proof.Machine

/-- Settles O36: the counts of a frame by induction on its bytes, from those of a byte. -/
theorem frameEventCounts : Obligations.FrameEventCounts := by
  refine ⟨⟨rfl, by decide, rfl⟩, fun clk => ⟨rfl, by decide, clockRises_stopTrace clk⟩, fun b ack clk => ?byte,
    fun bytes acks h => ⟨length_frameTrace bytes acks h, count_wait_frameTrace bytes acks,
      clockRises_frameTrace bytes acks⟩⟩
  have hdata := clockRises_dataTrace clk b []
  have hack := clockRises_ackTrace clk ack []
  rw [List.append_nil] at hdata hack
  exact ⟨length_dataTrace b, length_ackTrace ack, count_wait_byteTrace b ack, hdata, hack⟩

/-- Settles O37: the changes of a frame by induction on its bytes, from those of each phase. -/
theorem dataEdgesWhileClockHigh : Obligations.DataEdgesWhileClockHigh := by
  refine ⟨rfl, dataEdgesHigh_stopTrace, fun clk dio b => ?data, fun clk dio => ?nack, fun clk dio => ?ack,
    dataEdgesHigh_frameTrace⟩
  case data => simpa using dataEdgesHigh_dataTrace clk dio b []
  case nack => simpa using dataEdgesHigh_ackTrace clk dio true []
  case ack => exact ⟨by cases clk <;> cases dio <;> rfl, rfl, by simpa using dataEdgesHigh_ackTrace clk dio false []⟩

/-- Settles O35: the twenty-four events of a data phase, from any levels. -/
theorem dataPhaseIsLsbFirst : Obligations.DataPhaseIsLsbFirst := by
  refine fun b clk dio => ⟨?bits, by simpa using dataEdgesHigh_dataTrace clk dio b []⟩
  simp [dataTrace, List.range_succ, bitsAtRises]

/-- Settles O38: Waits and events follow from the numbers of frames and bytes, which no operand changes. -/
theorem transactionCounts : Obligations.TransactionCounts := by
  intro p i hr
  obtain ⟨hframes, hbytes, hdata⟩ := requestFrames_counts p i
  rw [count_wait_framesTrace, length_framesTrace_nacked _ 13 (byteCount_requestFrames_le i p), hframes, hbytes, hdata]
  cases i with
  | init | rsym | rhex | rint | setdp | clear | setbr | pwroff | clrsts => rfl
  | dataAuto | dataFixed | dispOff | dispOn | addr | segData | dpData => cases hr

/-- Settles O30: bit 7 and the masks for every table, the default entries by evaluation. -/
theorem symbolTableValues : Obligations.SymbolTableValues :=
  ⟨symtab_bit7, symtab_segment, by decide⟩

/-- Settles O33: the nibbles of the clamped value, and of the byte. -/
theorem hexDigitsSpellTheValue : Obligations.HexDigitsSpellTheValue := by
  refine ⟨fun p v => ⟨_, _, _, ?_, ?_, ?_, ?_, hexDigits_eq p v⟩, fun p v => ⟨_, _, ?_, ?_, ?_, hexByte_eq p v⟩⟩
  all_goals
    have := v.isLt
    omega

/-- Settles O34: each clamp and byte at its 256 operands. -/
theorem clampsAndCommandBytes : Obligations.ClampsAndCommandBytes :=
  ⟨fun d => ⟨clampDigit_toNat d, clampDigit_of_lt d⟩, clampLevel_toNat, fun d => ⟨rfl, digitAddr_range d⟩, by decide,
    fun l => ⟨rfl, dispOn_fields l⟩, rfl, rfl, rfl⟩

end

/-! ## SUPPORT. The receiver's reading of one byte -/

section
namespace Sys2Proof.Machine

variable {r : Receiver}

/-! ### A frame's first byte (30_encoding.md R78) -/

theorem take_of_first (h : r.pos = .first) (b : Byte) : r.take b = r.takeFirst b := by rw [Receiver.take, h]

theorem take_auto (h : r.pos = .first) : r.take cmdAuto = { r with mode := .auto, pos := .ignored } :=
  take_of_first h _

theorem take_fixed (h : r.pos = .first) : r.take cmdFixed = { r with mode := .fixed, pos := .ignored } :=
  take_of_first h _

/-- A display-control command is no mode command. -/
theorem not_mode_of_control : ∀ b : Byte, b &&& 0xF0 = 0x80 → b ≠ cmdAuto ∧ b ≠ cmdFixed := by decide

theorem take_control (h : r.pos = .first) (b : Byte) (hb : b &&& 0xF0 = 0x80) :
    r.take b = { r with dctrl := b, pos := .ignored } := by
  obtain ⟨hauto, hfixed⟩ := not_mode_of_control b hb
  rw [take_of_first h, Receiver.takeFirst, if_neg hauto, if_neg hfixed, if_pos hb]

/-- An address byte is neither a mode command nor a display-control command, and its low bits are the address. -/
theorem addressByte_fields : ∀ aa : BitVec 2, addrBase + aa.setWidth 8 ≠ cmdAuto ∧ addrBase + aa.setWidth 8 ≠ cmdFixed ∧
    ¬((addrBase + aa.setWidth 8) &&& 0xF0 = 0x80) ∧ (addrBase + aa.setWidth 8) &&& 0xFC = addrBase ∧
    (addrBase + aa.setWidth 8).extractLsb' 0 2 = aa := by decide

theorem take_address (h : r.pos = .first) (aa : BitVec 2) :
    r.take (addrBase + aa.setWidth 8) = { r with ptr := aa.toNat, pos := .data aa } := by
  obtain ⟨hauto, hfixed, hcontrol, haddr, hlow⟩ := addressByte_fields aa
  rw [take_of_first h, Receiver.takeFirst, if_neg hauto, if_neg hfixed, if_neg hcontrol, if_pos haddr, hlow]

theorem take_noClass (h : r.pos = .first) (b : Byte) (hauto : b ≠ cmdAuto) (hfixed : b ≠ cmdFixed)
    (hcontrol : ¬ b &&& 0xF0 = 0x80) (haddr : ¬ b &&& 0xFC = addrBase) : r.take b = { r with pos := .ignored } := by
  rw [take_of_first h, Receiver.takeFirst, if_neg hauto, if_neg hfixed, if_neg hcontrol, if_neg haddr]

theorem control_iff_range : ∀ b : Byte, b &&& 0xF0 = 0x80 ↔ 0x80 ≤ b.toNat ∧ b.toNat ≤ 0x8F := by decide

theorem address_iff_range : ∀ b : Byte, b &&& 0xFC = addrBase ↔ 0xC0 ≤ b.toNat ∧ b.toNat ≤ 0xC3 := by decide

theorem eq_addressByte : ∀ (aa : BitVec 2) (b : Byte), b.toNat = 0xC0 + aa.toNat → b = addrBase + aa.setWidth 8 := by
  decide

/-! ### The bytes after it -/

theorem storeAddr_of_data {aa : BitVec 2} (h : r.pos = .data aa) :
    r.storeAddr = if r.ptr ≤ 3 then some (0xC0 + r.ptr) else none := by rw [Receiver.storeAddr, h]; rfl

theorem take_data {aa : BitVec 2} (h : r.pos = .data aa) (b : Byte) : r.take b = { r with
    ram := if r.ptr ≤ 3 then Memory.write r.ram (0xC0 + r.ptr) b else r.ram
    ptr := if r.mode = .auto then r.ptr + 1 else r.ptr } := by
  have htake : r.take b = r.takeData b := by rw [Receiver.take, h]
  rw [htake, Receiver.takeData, storeAddr_of_data h]
  cases r.mode <;> by_cases hp : r.ptr ≤ 3 <;> simp [hp]

theorem take_ignored (h : r.pos = .ignored) (b : Byte) : r.take b = r := by rw [Receiver.take, h]

/-! ### What a byte leaves alone -/

/-- A byte read leaves the line's side of the receiver as it was (30_encoding.md R78). -/
theorem take_lineSide (r : Receiver) (b : Byte) :
    (r.take b).bits = r.bits ∧ (r.take b).bytes = r.bytes ∧ (r.take b).spoiled = r.spoiled := by
  cases h : r.pos with
  | first =>
    rw [take_of_first h, Receiver.takeFirst]
    split_ifs <;> exact ⟨rfl, rfl, rfl⟩
  | data aa => rw [take_data h]; exact ⟨rfl, rfl, rfl⟩
  | ignored => rw [take_ignored h]; exact ⟨rfl, rfl, rfl⟩

/-- Every byte of RAM after a byte read: the byte where it is stored, the byte before everywhere else. -/
theorem read_take_ram (r : Receiver) (b : Byte) (hw : Memory.wf r.ram) (a : Nat) :
    Memory.read (r.take b).ram a = if r.storeAddr = some a then b else Memory.read r.ram a := by
  rw [take_ram]
  cases h : r.storeAddr with
  | none => rfl
  | some k =>
    have hak : a = k ↔ some k = some a := ⟨fun e => by rw [e], fun e => (Option.some.inj e).symm⟩
    simp only [Memory.read_write r.ram k b hw a, hak]

/-- A byte read, answered by what the receiver makes of it. -/
theorem next_receiveByte {s : State} {b : Byte} {q : Receiver} (h : s.rx.take b = q) :
    (.next (receiveByte b s) : Host.Outcome State Fault Refusal) = .next { s with rx := q } := by
  rw [receiveByte, h]

/-- A data byte of either class: where it goes and how the pointer moves on (30_encoding.md R78). -/
theorem exec_data (s : State) (i : Instr) (hi : i.isRequest = false) (aa : BitVec 2) (h : s.rx.pos = .data aa)
    (hw : Memory.wf s.rx.ram) : ∃ t, exec i s = .next t ∧
      (∀ a, Memory.read t.rx.ram a = if s.rx.storeAddr = some a then encodeByte i else Memory.read s.rx.ram a) ∧
      t.rx.ptr = (if s.rx.mode = .auto then s.rx.ptr + 1 else s.rx.ptr) :=
  ⟨_, exec_wire i hi s, read_take_ram s.rx _ hw, congrArg Receiver.ptr (take_data h _)⟩

end Sys2Proof.Machine
end

/-! ## The obligations on the receiver's bytes -/

section
open Sys2Proof Sys2Proof.Machine

/-- Settles O39: the classes of a first byte by their ranges, and the data byte by its position. -/
theorem receiverReadsByte : Obligations.ReceiverReadsByte := by
  refine fun r b => ⟨fun h hb => hb ▸ take_auto h, fun h hb => hb ▸ take_fixed h,
    fun h hb => take_control h b ((control_iff_range b).mpr hb), fun aa h hb => ?address, fun h h1 h2 h3 h4 => ?noClass,
    fun aa h => take_data h b, fun h => take_ignored h b⟩
  case address =>
    rw [eq_addressByte aa b hb]
    exact take_address h aa
  case noClass => exact take_noClass h b h1 h2 (mt (control_iff_range b).mp h3) (mt (address_iff_range b).mp h4)

/-- Settles O40: by `exec_wire`. -/
theorem wireInstructionsComplete : Obligations.WireInstructionsComplete :=
  fun s i hi => exec_wire i hi s

/-- Settles O41: each class's byte as a first byte. -/
theorem firstBytesSetModeControlOrPointer : Obligations.FirstBytesSetModeControlOrPointer := by
  have hcontrol : ∀ l : BitVec 3, (dispOnBase + l.setWidth 8) &&& 0xF0 = 0x80 := by decide
  exact fun s h => ⟨next_receiveByte (take_auto h), next_receiveByte (take_fixed h),
    next_receiveByte (take_control h dispOffByte rfl), fun l => next_receiveByte (take_control h _ (hcontrol l)),
    fun aa => next_receiveByte (take_address h aa)⟩

/-- Settles O42: both data classes by `exec_data`, and the location by the pointer. -/
theorem dataBytesAreStored : Obligations.DataBytesAreStored := by
  intro s aa h hw
  have hloc := storeAddr_of_data h
  refine ⟨fun pattern => ?segData, fun on => ?dpData, fun hp => hloc.trans (if_pos hp),
    fun hp => hloc.trans (if_neg (Nat.not_le.mpr hp))⟩
  case segData =>
    rw [setWidth_segData]
    exact exec_data s (.segData pattern) rfl aa h hw
  case dpData =>
    have hbyte : (if on then 0x08 else 0x00 : Byte) = encodeByte (.dpData on) := dpByte_eq on
    rw [hbyte]
    exact exec_data s (.dpData on) rfl aa h hw

/-- Settles O43: a wire instruction is one byte read, and a byte is stored at `storeAddr` or nowhere. -/
theorem wireInstructionsFrame : Obligations.WireInstructionsFrame := by
  intro s t i hi he
  rw [exec_wire i hi s] at he
  cases he
  obtain ⟨hbits, hbytes, hspoiled⟩ := take_lineSide s.rx (encodeByte i)
  refine ⟨rfl, take_inFrame .., take_ackBit .., hbits, hbytes, hspoiled, take_inbox .., fun hw a ha => ?_⟩
  exact (read_take_ram s.rx _ hw a).trans (if_neg ha)

end

/-! ## SUPPORT. The effect of a request's frames on the receiver -/

section
namespace Sys2Proof.Machine

/-! ### Several writes to the RAM -/

/-- Writes one after another. -/
def Memory.writes (m : Memory) (cs : List Host.Cell) : Memory := cs.foldl (fun m c => m.write c.1 c.2) m

/-- What is read at `a` after writes, where `b` was read before them. -/
def readAfter (a : Nat) (cs : List Host.Cell) (b : Byte) : Byte := cs.foldl (fun b c => if a = c.1 then c.2 else b) b

theorem Memory.writes_wf (m : Memory) (cs : List Host.Cell) (h : Memory.wf m) : Memory.wf (m.writes cs) := by
  induction cs generalizing m with
  | nil => exact h
  | cons c cs ih => exact ih _ (Memory.write_wf m c.1 c.2 h)

theorem Memory.read_writes (m : Memory) (cs : List Host.Cell) (h : Memory.wf m) (a : Nat) :
    Memory.read (m.writes cs) a = readAfter a cs (Memory.read m a) := by
  induction cs generalizing m with
  | nil => rfl
  | cons c cs ih =>
    have hc := Memory.read_write m c.1 c.2 h a
    rw [readAfter, List.foldl_cons, ← hc]
    exact ih _ (Memory.write_wf m c.1 c.2 h)

/-- An address is written, whatever was there before, or not written at all. -/
theorem readAfter_cases (a : Nat) (cs : List Host.Cell) :
    (∀ b, readAfter a cs b = b) ∨ ∃ v, ∀ b, readAfter a cs b = v := by
  induction cs with
  | nil => exact .inl fun _ => rfl
  | cons c cs ih =>
    obtain ih | ⟨v, ih⟩ := ih
    · by_cases h : a = c.1
      · exact .inr ⟨c.2, fun b => (ih _).trans (if_pos h)⟩
      · exact .inl fun b => (ih _).trans (if_neg h)
    · exact .inr ⟨v, fun b => ih _⟩

theorem readAfter_idem (a : Nat) (cs : List Host.Cell) (b : Byte) :
    readAfter a cs (readAfter a cs b) = readAfter a cs b := by
  obtain h | ⟨v, h⟩ := readAfter_cases a cs
  · rw [h]
  · rw [h, h]

/-- The same writes again change nothing. -/
theorem Memory.writes_idem (m : Memory) (cs : List Host.Cell) (h : Memory.wf m) :
    (m.writes cs).writes cs = m.writes cs := by
  have hw := Memory.writes_wf m cs h
  refine Memory.ext_read _ _ (Memory.writes_wf _ cs hw) hw fun a => ?_
  rw [Memory.read_writes _ cs hw, Memory.read_writes m cs h, readAfter_idem]

/-! ### The table of effects (42_display_ops.md R184) -/

/-- `MODE` after a request's frames, from the mode before. -/
def requestMode (mode : AddrMode) : Instr → AddrMode
  | .init _ | .rsym _ _ _ | .setdp _ | .clear => .fixed
  | .rhex _ | .rint _ _ => .auto
  | .setbr _ | .pwroff | .clrsts | .dataAuto | .dataFixed | .dispOff | .dispOn _ | .addr _ | .segData _ | .dpData _ => mode

/-- What a request's frames write to `RAM`, in order. -/
def requestWrites (p : Params) : Instr → List Host.Cell
  | .init _ | .clear => [(0xC0, 0), (0xC1, 0), (0xC2, 0), (0xC3, 0)]
  | .rsym d c raw => [(0xC0 + min d.toNat 2, resolve p c raw)]
  | .rhex v => [0xC0, 0xC1, 0xC2].zip (hexByte p v)
  | .rint v dec => [0xC0, 0xC1, 0xC2].zip (intDigits p v dec)
  | .setdp on => [(0xC3, dpByte on)]
  | .setbr _ | .pwroff | .clrsts | .dataAuto | .dataFixed | .dispOff | .dispOn _ | .addr _ | .segData _ | .dpData _ => []

/-- `q` is the receiver `r` after the request `i`; `DCTRL` follows the writes to CMD. -/
structure HasEffect (p : Params) (i : Instr) (r q : Receiver) : Prop where
  mode : q.mode = requestMode r.mode i
  dctrl : q.dctrl = (requestCmds i).getLastD r.dctrl
  ram : q.ram = r.ram.writes (requestWrites p i)

theorem intDigits_length (p : Params) (v : BitVec 16) (dec : Bool) : (intDigits p v dec).length = 3 := by
  cases dec <;> rfl

/-- A request's frames have the effect of the table. -/
theorem hasEffect_readFrames (p : Params) (i : Instr) (r : Receiver) :
    HasEffect p i r (r.readFrames (requestFrames p i)) := by
  cases i with
  | init b =>
    rw [requestFrames, framesInit, readFrames_append, readFrames_clear, framesSetbr, cmdWrite, readFrames_cons,
      readFrame_control r _ (dispOn_and b), readFrames_nil]
    exact ⟨rfl, rfl, rfl⟩
  | rsym d c raw =>
    have haddr : (BitVec.ofNat 2 (min d.toNat 2)).toNat = min d.toNat 2 := by
      rw [BitVec.toNat_ofNat]
      omega
    rw [requestFrames, framesRsym, digitAddr_eq, readFrames_fixedWrite, haddr]
    exact ⟨rfl, rfl, rfl⟩
  | rhex v =>
    rw [requestFrames, framesRhex, hexByte, readFrames_autoWrite]
    exact ⟨rfl, rfl, rfl⟩
  | rint v dec =>
    obtain ⟨x, y, z, hdigits⟩ := List.length_eq_three.mp (intDigits_length p v dec)
    rw [requestFrames, framesRint, hdigits, readFrames_autoWrite]
    exact ⟨rfl, rfl, by rw [requestWrites, hdigits]; rfl⟩
  | setdp on =>
    rw [requestFrames, framesSetdp, addrDp_eq, readFrames_fixedWrite]
    exact ⟨rfl, rfl, rfl⟩
  | clear =>
    rw [requestFrames, readFrames_clear]
    exact ⟨rfl, rfl, rfl⟩
  | setbr l =>
    rw [requestFrames, framesSetbr, cmdWrite, readFrames_cons, readFrame_control r _ (dispOn_and l), readFrames_nil]
    exact ⟨rfl, rfl, rfl⟩
  | pwroff =>
    rw [requestFrames, framesPwroff, cmdWrite, readFrames_cons, readFrame_control r _ rfl, readFrames_nil]
    exact ⟨rfl, rfl, rfl⟩
  | clrsts | dataAuto | dataFixed | dispOff | dispOn | addr | segData | dpData => exact ⟨rfl, rfl, rfl⟩

theorem requestMode_idem (mode : AddrMode) (i : Instr) : requestMode (requestMode mode i) i = requestMode mode i := by
  cases i <;> rfl

theorem getLastD_idem (l : List Byte) (b : Byte) : l.getLastD (l.getLastD b) = l.getLastD b := by
  cases l <;> rfl

end Sys2Proof.Machine
end

/-! ## SUPPORT. The state in which a request has run -/

section
namespace Sys2Proof.Machine

variable {s : State} {i : Instr}

/-- The state in which the request's items have been performed, each with those it adds, and the engine is idle. -/
def requestEnd (s : State) (i : Instr) : State :=
  withSeq .idle false ((requestBody s.params i).foldl cycleItem s)

/-- Two requests with the same body leave the same state: what acceptance latches is forgotten at the end. -/
theorem requestEnd_congr {j : Instr} (h : requestBody s.params i = requestBody s.params j) :
    requestEnd s i = requestEnd s j := by rw [requestEnd, requestEnd, h]

/-- An accepted request runs to its end while the host waits (10_state.md R26). -/
theorem stepsTo_requestEnd (hr : i.isRequest = true) (h : Ready s) (hin : HostWaits s) :
    StepsTo (accept i (requestBody s.params i) s) (requestEnd s i) := by
  obtain ⟨q, hsteps, -, hq⟩ := steps_items (requestBody s.params i) [] (accept i (requestBody s.params i) s) h.inbox hin
    Seq.noConfusion (List.append_nil _).symm (requestBody_ne_nil s.params i hr)
  obtain rfl := hq.mpr rfl
  have hacc : accept i (requestBody s.params i) s =
      withSeq (.run (latch (encode i)) 0 (requestBody s.params i)) true s := rfl
  rw [hacc, foldl_cycleItem_withSeq, withSeq_withSeq] at hsteps
  exact hsteps

/-- Updates of CMD one after another leave the last. -/
theorem foldl_cycleItem_setCmds (cs : List Byte) (s : State) (hb : s.rx.inbox = []) :
    (cs.map Item.setCmd).foldl cycleItem s = { s with cmd := cs.getLastD s.cmd } := by
  induction cs generalizing s with
  | nil => rfl
  | cons c cs ih =>
    rw [List.map_cons, List.foldl_cons, cycleItem_setCmd s c hb, ih { s with cmd := c } hb]
    cases cs <;> rfl

/-- At its end a request has sent its frames after its update of CMD. -/
theorem afterFrames_requestEnd {acks rest : List Bool} (hr : i.isRequest = true) (hc : i ≠ .clrsts) (h : Ready s)
    (hl : acks.length = byteCount (requestFrames s.params i)) (hd : s.dioIn = acks ++ rest) :
    AfterFrames { s with cmd := (requestCmds i).getLastD s.cmd } ((requestBody s.params i).foldl cycleItem s)
      (requestFrames s.params i) acks rest := by
  rw [requestBody_eq s.params i hr hc, List.foldl_append, foldl_cycleItem_setCmds _ s h.inbox]
  exact afterFrames _ _ acks rest ⟨h.pins, h.inFrame, h.ackBit, h.inbox⟩ hl hd

/-- The state at a request's end is between requests. -/
theorem ready_withSeq_idle {u : State} (h : BusReady u) : Ready (withSeq .idle false u) :=
  ⟨rfl, rfl, h.pins, h.inFrame, h.ackBit, h.inbox⟩

/-- A request with a meaning runs to its end, given a bit for each of its bytes. -/
theorem runsTo_requestEnd {acks rest : List Bool} {P : State → Prop} (hr : i.isRequest = true) (hc : i ≠ .clrsts)
    (hm : refusedRequest s.params i = false) (h : Ready s) (hin : HostWaits s)
    (hl : acks.length = byteCount (requestFrames s.params i)) (hd : s.dioIn = acks ++ rest) (hP : P (requestEnd s i)) :
    RunsTo i s P :=
  ⟨_, _, exec_accept s i hr hm h.seq, stepsTo_requestEnd hr h hin,
    ready_withSeq_idle (afterFrames_requestEnd hr hc h hl hd).ready, hP⟩

/-- What `u` shows of the request `i` run from `s` with every byte acknowledged: CMD, the configuration, and the
receiver with the request's effect (42_display_ops.md R184). -/
structure ShowsEffect (s : State) (i : Instr) (u : State) : Prop where
  effect : HasEffect s.params i s.rx u.rx
  cmd : u.cmd = (requestCmds i).getLastD s.cmd
  params : u.params = s.params

/-- The bits of acknowledged bytes are all 0 (40_bus_protocol.md R103). -/
theorem any_replicate_false (n : Nat) : (List.replicate n false).any id = false := by simp

/-- With every byte acknowledged, a request with a meaning has its effect on the receiver (42_display_ops.md R184). -/
theorem runsTo_showsEffect (hr : i.isRequest = true) (hc : i ≠ .clrsts) (hm : refusedRequest s.params i = false)
    (h : Ready s) (hin : HostWaits s) (ha : AllAcked s) : RunsTo i s (ShowsEffect s i) := by
  obtain ⟨later, hd⟩ := ha
  obtain ⟨extra, hextra⟩ := Nat.exists_eq_add_of_le (byteCount_requestFrames_le i s.params)
  rw [hextra, List.replicate_add, List.append_assoc] at hd
  have hl : (List.replicate (byteCount (requestFrames s.params i)) false).length = _ := List.length_replicate
  refine runsTo_requestEnd hr hc hm h hin hl hd ?_
  have hend := afterFrames_requestEnd hr hc h hl hd
  obtain ⟨⟨hmode, hdctrl, hram⟩, -⟩ := hend.receiver (any_replicate_false _)
  obtain ⟨emode, edctrl, eram⟩ := hasEffect_readFrames s.params i s.rx
  exact ⟨⟨hmode.trans emode, hdctrl.trans edctrl, hram.trans eram⟩, hend.cmd, hend.params⟩

theorem RunsTo.mono {P Q : State → Prop} (h : RunsTo i s P) (hPQ : ∀ u, P u → Q u) : RunsTo i s Q := by
  obtain ⟨t, u, he, hs, hu, hP⟩ := h
  exact ⟨t, u, he, hs, hu, hPQ u hP⟩

/-- Every byte of RAM after a request whose bytes are all acknowledged. -/
theorem ShowsEffect.read {u : State} (h : ShowsEffect s i u) (hw : Memory.wf s.rx.ram) (a : Nat) :
    Memory.read u.rx.ram a = readAfter a (requestWrites s.params i) (Memory.read s.rx.ram a) := by
  rw [h.effect.ram, Memory.read_writes _ _ hw]

/-! ### What is read after the writes of each kind of request -/

/-- Zeros in the four locations (42_display_ops.md R172). -/
theorem readAfter_zeros (a : Nat) (b : Byte) :
    readAfter a [(0xC0, 0), (0xC1, 0), (0xC2, 0), (0xC3, 0)] b = if 0xC0 ≤ a ∧ a ≤ 0xC3 then 0 else b := by
  by_cases ha : 0xC0 ≤ a ∧ a ≤ 0xC3
  · obtain rfl | rfl | rfl | rfl : a = 0xC0 ∨ a = 0xC1 ∨ a = 0xC2 ∨ a = 0xC3 := by omega
    all_goals rfl
  · have h0 : a ≠ 0xC0 := by omega
    have h1 : a ≠ 0xC1 := by omega
    have h2 : a ≠ 0xC2 := by omega
    have h3 : a ≠ 0xC3 := by omega
    simp [readAfter, ha, h0, h1, h2, h3]

/-- Three patterns in the three digits (40_bus_protocol.md R107). -/
theorem readAfter_digits (a : Nat) (ps : List Byte) (h : ps.length = 3) (b : Byte) :
    readAfter a ([0xC0, 0xC1, 0xC2].zip ps) b = if 0xC0 ≤ a ∧ a ≤ 0xC2 then ps.getD (a - 0xC0) 0 else b := by
  obtain ⟨x, y, z, rfl⟩ := List.length_eq_three.mp h
  by_cases ha : 0xC0 ≤ a ∧ a ≤ 0xC2
  · obtain rfl | rfl | rfl : a = 0xC0 ∨ a = 0xC1 ∨ a = 0xC2 := by omega
    all_goals rfl
  · have h0 : a ≠ 0xC0 := by omega
    have h1 : a ≠ 0xC1 := by omega
    have h2 : a ≠ 0xC2 := by omega
    simp [readAfter, ha, h0, h1, h2]

end Sys2Proof.Machine
end

/-! ## SUPPORT. The display -/

section
namespace Sys2Proof.Machine

/-- Cell `CELL_MAP(d)` shows `RAM[d]` (30_encoding.md R78). -/
theorem appearance_cell (s : State) (d : Fin 3) : (appearance s).cells[d.val]? =
    some (s.params.cellMap[d.val], Memory.read s.rx.ram (0xC0 + d.val)) := by
  match d with
  | 0 | 1 | 2 => rfl

/-- The display-on command lights the display at its level (30_encoding.md R76, R78). -/
theorem dispOn_display : ∀ l : Byte, (dispOn l).getLsbD 3 = true ∧
    (dispOn l).extractLsb' 0 3 = BitVec.ofNat 3 (min l.toNat 7) := by decide

/-- The display-off command darkens the display (30_encoding.md R76, R78). -/
theorem dispOffByte_display : dispOffByte.getLsbD 3 = false ∧ dispOffByte.extractLsb' 0 3 = 0 := by decide

/-- A request that writes no RAM changes the light only: `DCTRL` says how (30_encoding.md R78). -/
theorem ShowsEffect.appearance {s u : State} {i : Instr} (h : ShowsEffect s i u) (hw : requestWrites s.params i = []) :
    appearance u = { appearance s with
      lit := ((requestCmds i).getLastD s.rx.dctrl).getLsbD 3
      level := ((requestCmds i).getLastD s.rx.dctrl).extractLsb' 0 3 } := by
  have hram : u.rx.ram = s.rx.ram := by rw [h.effect.ram, hw]; rfl
  simp only [Machine.appearance, h.effect.dctrl, h.params, hram]

end Sys2Proof.Machine
end

/-! ## The obligations on the effects of requests -/

section
open Sys2Proof Sys2Proof.Machine

/-- Settles O28: the two requests have the same frames, so the same body and the same end. -/
theorem clampedDigitAndFallbackCode : Obligations.ClampedDigitAndFallbackCode := by
  intro s d c raw acks rest h hin hl hd
  have runs (d c : Byte) (raw : Bool) {u : State} (hu : requestEnd s (.rsym d c raw) = u) :
      RunsTo (.rsym d c raw) s (· = u) :=
    runsTo_requestEnd rfl nofun rfl h hin hl hd hu
  refine ⟨fun hdigit => ?digit, fun hcode => ?code⟩
  case digit =>
    have hbody : requestBody s.params (.rsym d c raw) = requestBody s.params (.rsym 2 c raw) := by
      simp only [requestBody, bodyRsym, framesRsym, digitAddr, clampDigit_of_lt d hdigit]
    exact ⟨_, runs _ _ _ rfl, runs _ _ _ (requestEnd_congr hbody.symm)⟩
  case code =>
    have hbody : requestBody s.params (.rsym d c false) = requestBody s.params (.rsym d 31 false) := by
      have h31 : lookup s.params 31 = symtab s.params 31 := rfl
      simp only [requestBody, bodyRsym, framesRsym, resolve, Bool.false_eq_true, if_false,
        lookup_of_le s.params c hcode, h31]
    exact ⟨_, runs _ _ _ rfl, runs _ _ _ (requestEnd_congr hbody.symm)⟩

/-- Settles O44: each request shows its row of the table of effects. -/
theorem receiverEffectsOfRequests : Obligations.ReceiverEffectsOfRequests := by
  intro s h hin ha hw
  have runs (i : Instr) (hr : i.isRequest = true) (hc : i ≠ .clrsts) (hm : refusedRequest s.params i = false) :=
    runsTo_showsEffect hr hc hm h hin ha
  refine ⟨fun b => ?init, fun d c raw => ?rsym, fun v => ?rhex, fun v dec hv => ?rint, fun on => ?setdp, ?clear,
    fun l => ?setbr, ?pwroff, ?clrsts, fun w rest hi hd => ?illegal⟩
  case init =>
    exact (runs (.init b) rfl nofun rfl).mono fun u hu => ⟨hu.effect.mode, hu.effect.dctrl,
      hu.effect.dctrl.trans hu.cmd.symm, fun a => (hu.read hw a).trans (readAfter_zeros ..)⟩
  case rsym =>
    exact (runs (.rsym d c raw) rfl nofun rfl).mono fun u hu => ⟨hu.effect.mode, hu.effect.dctrl, hu.read hw⟩
  case rhex =>
    exact (runs (.rhex v) rfl nofun rfl).mono fun u hu => ⟨hu.effect.mode, hu.effect.dctrl,
      fun a => (hu.read hw a).trans (readAfter_digits a (hexByte s.params v) rfl _)⟩
  case rint =>
    exact (runs (.rint v dec) rfl nofun hv).mono fun u hu => ⟨hu.effect.mode, hu.effect.dctrl,
      fun a => (hu.read hw a).trans (readAfter_digits a _ (intDigits_length s.params v dec) _)⟩
  case setdp =>
    exact (runs (.setdp on) rfl nofun rfl).mono fun u hu => ⟨hu.effect.mode, hu.effect.dctrl, hu.read hw⟩
  case clear =>
    exact (runs .clear rfl nofun rfl).mono fun u hu => ⟨hu.effect.mode, hu.effect.dctrl,
      fun a => (hu.read hw a).trans (readAfter_zeros ..)⟩
  case setbr =>
    exact (runs (.setbr l) rfl nofun rfl).mono fun u hu => ⟨hu.effect.mode, hu.effect.dctrl,
      hu.effect.dctrl.trans hu.cmd.symm, hu.effect.ram⟩
  case pwroff =>
    exact (runs .pwroff rfl nofun rfl).mono fun u hu => ⟨hu.effect.mode, hu.effect.dctrl,
      hu.effect.dctrl.trans hu.cmd.symm, hu.effect.ram⟩
  case clrsts =>
    exact ⟨_, _, exec_accept s .clrsts rfl rfl h.seq, stepsTo_clrsts s h hin,
      ⟨h.seq, rfl, h.pins, h.inFrame, h.ackBit, h.inbox⟩, rfl⟩
  case illegal => exact ⟨_, step_illegal h.inbox h.seq hi hd, rfl⟩

/-- Settles O45: each part of the table of effects is idempotent. -/
theorem requestsIdempotentAtReceiver : Obligations.RequestsIdempotentAtReceiver := by
  intro p i r hw
  have once := hasEffect_readFrames p i r
  have twice := hasEffect_readFrames p i (r.readFrames (requestFrames p i))
  refine ⟨?mode, ?dctrl, ?ram⟩
  case mode => rw [twice.mode, once.mode, requestMode_idem]
  case dctrl => rw [twice.dctrl, once.dctrl, getLastD_idem]
  case ram => rw [twice.ram, once.ram, Memory.writes_idem _ _ hw]

/-- Settles O46: the appearance is its definition, and the two requests write `DCTRL` only. -/
theorem displayPowerKeepsDigits : Obligations.DisplayPowerKeepsDigits := by
  refine ⟨fun s => ⟨appearance_cell s, rfl, beq_iff_eq, Iff.rfl, rfl⟩, fun s l h hin ha => ⟨?pwroff, ?setbr⟩⟩
  case pwroff =>
    refine (runsTo_showsEffect (i := .pwroff) rfl nofun rfl h hin ha).mono fun u hu => (hu.appearance rfl).trans ?_
    obtain ⟨hlit, hlevel⟩ := dispOffByte_display
    simp only [requestCmds, List.getLastD_cons, List.getLastD_nil, hlit, hlevel]
  case setbr =>
    refine (runsTo_showsEffect (i := .setbr l) rfl nofun rfl h hin ha).mono fun u hu => (hu.appearance rfl).trans ?_
    obtain ⟨hlit, hlevel⟩ := dispOn_display l
    simp only [requestCmds, List.getLastD_cons, List.getLastD_nil, hlit, hlevel]

/-- Settles O49: the reset sequence sends INIT's frames, whose effect on contents not given is known. -/
theorem acknowledgedResetClearsReceiver : Obligations.AcknowledgedResetClearsReceiver := by
  intro s rest hb hi hd
  obtain ⟨u, hsteps, hu⟩ := stepsTo_beginReset (s := { s with inputs := [] }) rfl List.length_replicate hd
  obtain ⟨⟨hmode, hdctrl, hram⟩, -⟩ := hu.receiver (any_replicate_false 13)
  have heffect := hasEffect_readFrames s.params (.init brightDefault) (beginReset s).rx
  have hcontents : Memory.isRam (beginReset s).rx.ram := unknown_isRam s.rx s.draws
  refine ⟨_, .head (step_reset hb hi) hsteps, ready_withSeq_idle hu.ready, hmode.trans heffect.mode,
    hdctrl.trans heffect.dctrl, hu.cmd, fun a => ?_⟩
  have hread : Memory.read u.rx.ram a = if 0xC0 ≤ a ∧ a ≤ 0xC3 then 0 else Memory.read (beginReset s).rx.ram a :=
    (congrArg (Memory.read · a) (hram.trans heffect.ram)).trans
      ((Memory.read_writes _ _ hcontents.1 a).trans (readAfter_zeros ..))
  refine hread.trans (ite_eq_left_iff.mpr fun ha => ?_)
  exact Memory.read_outside _ a hcontents ha

end
